-- ==== Sys2Proof/Config.lean ====
section
/-! DEFINITION. The configuration `cfg` of 00_scope.md R6 to R10: plain data, with the well-formedness
conditions of R7, R8, R9 (U4) carried by the type; the OPEN functions of R8 as opaque constants; and TESTCFG. -/

namespace Sys2Proof

/-- R34, R14: SK04's DirectoryEntry, a record of the entry table `ET`. -/
structure DirEntry where
  name : List Byte
  isFile : Bool
  isDir : Bool
  cluster : W32
  length : W32
  deriving DecidableEq, Repr, Inhabited

/-- R8, D22: the OPEN function `ClusterFirstPage`. `linear` is the default of R8 with its OPEN
`ALLOC_OFFSET`; `other id` is any other function (log 4). -/
inductive FirstPage where
  | linear (allocOffset : Nat)
  | other (id : Nat)
  deriving DecidableEq, Repr

/-- R8: which card the OPEN functions `FatValue`, `Ecc128`, `RootEntry`, `DirParse` describe. `testcfg` is
the toy card of R10; `other id` is any other card, whose functions are opaque (log 4). -/
inductive CardFormat where
  | testcfg
  | other (id : Nat)
  deriving DecidableEq, Repr

/-- R8 `ClusterFirstPage` of a card that does not use the default form: OPEN. -/
opaque Config.otherFirstPage (id : Nat) (c : Nat) : Nat

/-- R8 `FatValue(IMG, c)` of a card that is not TESTCFG's: OPEN, a pure function of the image and the cluster. -/
opaque Config.otherFatValue (id : Nat) (img : List (Nat × Byte)) (c : Nat) : W32

/-- R8 `Ecc128(ch)` of a card that is not TESTCFG's: OPEN, 128 bytes to 3 bytes. -/
opaque Config.otherEcc128 (id : Nat) (ch : List Byte) : Byte × Byte × Byte

/-- R8 `RootEntry(IMG)` of a card that is not TESTCFG's: OPEN. -/
opaque Config.otherRootEntry (id : Nat) (img : List (Nat × Byte)) : DirEntry

/-- R8 `DirParse(bs)` of a card that is not TESTCFG's: OPEN. -/
opaque Config.otherDirParse (id : Nat) (bs : List Byte) : List (DirEntry × Bool)

/-- The fields of `cfg` (R6 to R9), named as the spec names them. -/
structure ConfigData where
  /-- `P[0..17]` -/
  pTab : List W32
  /-- `S[0..1023]` -/
  sTab : List W32
  /-- `T[0..255]` -/
  tTab : List W16
  m1 : W32
  m2 : W32
  /-- `HALF_LEN`, written `H` -/
  halfLen : Nat
  pageSize : Nat
  hasSpare : Bool
  spareSize : Nat
  ppc : Nat
  nClusters : Nat
  nPages : Nat
  imgLen : Nat
  chainEnd : W32
  firstPage : FirstPage
  card : CardFormat
  dmWords : Nat
  cbLen : Nat
  ebCap : Nat
  ctCap : Nat
  dbCap : Nat
  ftMax : Nat
  strMax : Nat
  etMax : Nat
  nameMax : Nat
  deriving DecidableEq, Repr

/-- R6 `BIAS` = 16, the one constant SK04 gives. -/
def bias : Nat := 16

/-- R7 `PLEN`. -/
def ConfigData.plen (d : ConfigData) : Nat := 2 * d.halfLen
/-- R7 `CONT_LEN`. -/
def ConfigData.contLen (d : ConfigData) : Nat := 12 + 2 * d.halfLen
/-- R7 `OFF_A`. -/
def ConfigData.offA (_ : ConfigData) : Nat := 4
/-- R7 `OFF_CK`. -/
def ConfigData.offCk (d : ConfigData) : Nat := 4 + d.halfLen
/-- R7 `OFF_B`. -/
def ConfigData.offB (d : ConfigData) : Nat := 12 + d.halfLen
/-- R8 `NCH`, the number of 128-byte sub-chunks of a page. -/
def ConfigData.nch (d : ConfigData) : Nat := d.pageSize / 128
/-- R8 `RAW_PAGE`. -/
def ConfigData.rawPage (d : ConfigData) : Nat := d.pageSize + (if d.hasSpare then d.spareSize else 0)
/-- R8 `CLUSTER_SIZE`. -/
def ConfigData.clusterSize (d : ConfigData) : Nat := d.pageSize * d.ppc
/-- R8 `PageAddr(p)`. -/
def ConfigData.pageAddr (d : ConfigData) (p : Nat) : Nat := p * d.rawPage

/-- R8 `ClusterFirstPage(c)`. -/
def ConfigData.clusterFirstPage (d : ConfigData) (c : Nat) : Nat :=
  match d.firstPage with
  | .linear off => (off + c) * d.ppc
  | .other id => Config.otherFirstPage id c

/-- The conditions R6 to R9, R72 put on a configuration (U4: the model's type carries them). -/
def ConfigData.ok (d : ConfigData) : Bool :=
  d.pTab.length == 18 && d.sTab.length == 1024 && d.tTab.length == 256 &&
  d.halfLen % 8 == 0 &&
  d.pageSize % 128 == 0 && (!d.hasSpare || decide (3 * d.nch ≤ d.spareSize)) && decide (1 ≤ d.ppc) &&
  decide (d.nPages * d.rawPage ≤ d.imgLen) &&
  decide (∀ c, c < d.nClusters → d.clusterFirstPage c + d.ppc ≤ d.nPages) &&
  decide (d.dmWords ≤ 2 ^ 31) &&
  decide (d.contLen ≤ d.ebCap) && decide (d.plen ≤ d.ctCap) && decide (d.plen ≤ d.dbCap) &&
  decide (d.dbCap < 2 ^ 29)

/-- A configuration the spec admits (00_scope.md R6 to R9; U4). -/
structure Config extends ConfigData where
  wf : toConfigData.ok = true
  deriving DecidableEq, Repr

/-- The list `f 0, f 1, ..., f (n-1)`. -/
def tabulate {α : Type} (f : Nat → α) : Nat → Nat → List α
  | _, 0 => []
  | i, n + 1 => f i :: tabulate f (i + 1) n

/-- One of the eight steps of R10 that make an entry of TESTCFG's `T`. -/
def testT1 (c : W16) : W16 := if c.getLsbD 0 then (c >>> 1) ^^^ 0x8408#16 else c >>> 1

/-- TESTCFG (R10, D33): the toy configuration of 95_test_vectors.md, nobody's real constants. -/
def testcfgData : ConfigData where
  pTab := tabulate (fun i => BitVec.ofNat 32 (0x9E3779B9 * (i + 1))) 0 18
  sTab := tabulate (fun j => BitVec.ofNat 32 ((j + 1) * 0x6C078965 + 0x0BADC0DE)) 0 1024
  tTab := tabulate (fun k => testT1 (testT1 (testT1 (testT1 (testT1 (testT1 (testT1 (testT1
    (BitVec.ofNat 16 k))))))))) 0 256
  m1 := 0x5A5A5A5A#32
  m2 := 0x13579BDF#32
  halfLen := 8
  pageSize := 128
  hasSpare := true
  spareSize := 4
  ppc := 2
  nClusters := 8
  nPages := 16
  imgLen := 2144
  chainEnd := 0xFFFFFFFF#32
  firstPage := .linear 0
  card := .testcfg
  dmWords := 256
  cbLen := 256
  ebCap := 1024
  ctCap := 64
  dbCap := 64
  ftMax := 64
  strMax := 64
  etMax := 16
  nameMax := 16

theorem testcfgData_ok : testcfgData.ok = true := by decide +kernel

/-- TESTCFG as a well-formed configuration (R10). -/
def testcfg : Config := { toConfigData := testcfgData, wf := testcfgData_ok }

end Sys2Proof
end

