-- ==== Sys2Proof/Machine/State.lean ====
section
/-! DEFINITION. The architectural state of 10_state.md as plain data, its reset values (R37), and the reasons a
step of the model could stop. -/

namespace Sys2Proof.Machine

/-- R21, R240: the register `state`. -/
inductive RunState where
  | idle
  | run
  | done
  | fault
  deriving DecidableEq, Repr

/-- R26: the register `img_mode`. -/
inductive ImgMode where
  | closed
  | read
  | rw
  deriving DecidableEq, Repr

/-- R33: a record of the field table `FT`. `len` of a `Str` record is the length of its bytes. -/
inductive FtRecord where
  | int (n : Nat) (signed : Bool) (off : W32) (value : W64)
  | str (off : W32) (bytes : List Byte)
  deriving DecidableEq, Repr

/-- A sparse memory: (address, content) pairs in the canonical form of `Store.wf` (Machine/Ops.lean). -/
abbrev Store (α : Type) := List (Nat × α)

/-- A byte memory: a list of `Host.Cell`. -/
abbrev Memory := List Host.Cell

/-- What a byte nothing has written reads as (R36, U1: unspecified; DESIGN CHOICE, unsafe, log 3). -/
def blankByte : Byte := 0#8
/-- What a word of `DM` nothing has written reads as (log 3). -/
def blankWord : W32 := 0#32
/-- What a record of `ET` nothing has written reads as (log 3). -/
def blankEntry : DirEntry := { name := [], isFile := false, isDir := false, cluster := 0#32, length := 0#32 }

/-- Everything 10_state.md gives the machine (R20 to R37), with the configuration it was built with. -/
structure State where
  /-- R6 to R9, R20: parameters of the step; nothing writes it (log 1). -/
  cfg : Config
  /-- R21, R29: the descriptor pointer. -/
  dp : W32
  /-- R21, R240. -/
  state : RunState
  /-- R21, R260. -/
  err : Byte
  /-- R21, R261. -/
  einfo : W32
  /-- R22: the cursor, a bit position in `DB`. -/
  bo : W32
  /-- R22: the running total of unpacked bytes. -/
  utot : W32
  /-- R22. -/
  rv : W64
  /-- R22. -/
  rb : W32
  /-- R23: `L`. -/
  regL : W32
  /-- R23: `R`. -/
  regR : W32
  /-- R24. -/
  crc : W16
  /-- R24. -/
  left : W32
  /-- R24. -/
  right : W32
  /-- R24. -/
  ck64 : W64
  /-- R24. -/
  cstored : W64
  /-- R25. -/
  hdr : W32
  /-- R25. -/
  dstart : W32
  /-- R25: valid bytes of `DB`. -/
  dblen : W32
  /-- R25: valid bytes of `CT`. -/
  ctlen : W32
  /-- R25: valid bytes of `EB`. -/
  eblen : W32
  /-- R26: valid records of `ET`. -/
  etn : W32
  /-- R26, R35, R183. -/
  imgMode : ImgMode
  /-- R32: descriptor memory, 32-bit words. -/
  dm : List (Nat × W32)
  /-- R32: constant buffer. -/
  cb : List Host.Cell
  /-- R32: entry buffer. -/
  eb : List Host.Cell
  /-- R32: ciphertext buffer. -/
  ct : List Host.Cell
  /-- R32: the DecodedBuffer. -/
  db : List Host.Cell
  /-- R32, R33: the field table; its length is `ftn` (log 5). -/
  ft : List FtRecord
  /-- R32, R34: the entry table. -/
  et : List (Nat × DirEntry)
  /-- R32, R35, R72: the card image. -/
  img : List Host.Cell
  deriving DecidableEq, Repr

/-- R22: the register `ftn`, the number of records of `FT` (log 5). -/
def State.ftn (s : State) : W32 := BitVec.ofNat 32 s.ft.length

/-- The reasons the model could stop with a fault. There are none: a spec fault is a state change (R262), and the
block has no stuck state (R246; 93_implementation_defined.md, treatment `stuck` unused). Nothing raises one: safe. -/
inductive Fault where
  deriving DecidableEq, Repr

/-- The reasons the model could refuse an instruction. -/
inductive Refusal where
  /-- The instruction has no meaning yet. Raised by a refused arm of `exec` only, and no arm is refused: safe. -/
  | notModelled (mnemonic : String)
  deriving DecidableEq, Repr

/-- What one step of this machine answers. -/
abbrev Result := Host.Outcome State Fault Refusal

/-- The memories that reset does not set: `DM`, `CB`, `EB`, `CT`, `DB`, `ET` hold unspecified contents after reset and
`IMG` whatever the platform attached (R37, R300, U1). -/
structure Contents where
  dm : List (Nat × W32)
  cb : List Host.Cell
  eb : List Host.Cell
  ct : List Host.Cell
  db : List Host.Cell
  et : List (Nat × DirEntry)
  img : List Host.Cell
  deriving DecidableEq, Repr

/-- The state after reset of a block configured as `c` whose memories hold `m` (R37). -/
def State.resetWith (c : Config) (m : Contents) : State where
  cfg := c
  dp := 0#32
  state := .idle
  err := 0#8
  einfo := 0#32
  bo := 0#32
  utot := 0#32
  rv := 0#64
  rb := 0#32
  regL := 0#32
  regR := 0#32
  crc := 0#16
  left := 0#32
  right := 0#32
  ck64 := 0#64
  cstored := 0#64
  hdr := 0#32
  dstart := 0#32
  dblen := 0#32
  ctlen := 0#32
  eblen := 0#32
  etn := 0#32
  imgMode := .closed
  dm := m.dm
  cb := m.cb
  eb := m.eb
  ct := m.ct
  db := m.db
  ft := []
  et := m.et
  img := m.img

/-- Memories that list nothing. -/
def Contents.empty : Contents := { dm := [], cb := [], eb := [], ct := [], db := [], et := [], img := [] }

/-- The machine right after reset: R37, configured as TESTCFG (DESIGN CHOICE, log 2), no memory listing anything
(DESIGN CHOICE, log 3). -/
def State.reset : State := State.resetWith testcfg Contents.empty

end Sys2Proof.Machine
end

