-- ==== Sys2Proof/Machine/Flags.lean ====
section
/-! DEFINITION. The block has no condition flags (10_state.md R30); its only status is `state`, `err`, `einfo`. This file
holds the status codes: the values of `state` and `img_mode` (R21, R26) and the faults with their `err` code and `einfo`
word (60_exceptions.md R260, R261). -/

namespace Sys2Proof.Machine

/-- R21: the number the register `state` holds. -/
def RunState.code : RunState → BitVec 2
  | .idle => 0
  | .run => 1
  | .done => 2
  | .fault => 3

/-- R26: the number the register `img_mode` holds. -/
def ImgMode.code : ImgMode → BitVec 2
  | .closed => 0
  | .read => 1
  | .rw => 2

/-- The faults of R260, each with its information word (R261). -/
inductive BlockFault where
  | formatMismatch (info : W32)
  | notFound (info : W32)
  | truncated (info : W32)
  | valueOutOfRange (info : W32)
  | illegalDescriptor (info : W32)
  | badOperand (info : W32)
  | chainError (info : W32)
  | eccMismatch (info : W32)
  deriving DecidableEq, Repr

/-- R260: the code `err` holds. -/
def BlockFault.code : BlockFault → Byte
  | .formatMismatch _ => 1
  | .notFound _ => 2
  | .truncated _ => 3
  | .valueOutOfRange _ => 4
  | .illegalDescriptor _ => 5
  | .badOperand _ => 6
  | .chainError _ => 7
  | .eccMismatch _ => 8

/-- R261: the word `einfo` holds. -/
def BlockFault.info : BlockFault → W32
  | .formatMismatch i => i
  | .notFound i => i
  | .truncated i => i
  | .valueOutOfRange i => i
  | .illegalDescriptor i => i
  | .badOperand i => i
  | .chainError i => i
  | .eccMismatch i => i

end Sys2Proof.Machine
end

