-- ==== Sys2Proof/Syntax.lean ====
section
/-! DEFINITION. The 29 descriptors of 30_encoding.md R95, one constructor per row of spec/opcode_table.json.
Every operand is a whole 32-bit word (R94); how a word is read (s32 or natural) is Machine/Operands.lean's. -/

namespace Sys2Proof

inductive Instr where
  | endRun
  | rd (len : W32)
  | unpack (totalBytes : W32) (lens : List W32)
  | unpacks (totalBytes : W32)
  | skip (newBo totalBytes : W32)
  | align (totalBytes : W32)
  | seek (newBo : W32)
  | padchk (cbAddr len : W32)
  | patch (ftIdx : W32)
  | encw
  | decw
  | enc
  | dec
  | crcinit
  | crcupd (off len : W32)
  | crcfin
  | ckxf
  | ckgen
  | ckvfy
  | fatget (cluster : W32)
  | rdchain (etIdx : W32)
  | wrchain (etIdx : W32)
  | eccgen (ebOff : W32)
  | eccchk (page : W32)
  | lsroot
  | lookup (cbAddr len : W32)
  | split
  | join
  | dstart
  deriving DecidableEq, Repr

/-- R93 `size`, in words. -/
def Instr.size : Instr → Nat
  | .endRun => 1
  | .rd _ => 2
  | .unpack _ lens => 2 + lens.length
  | .unpacks _ => 2
  | .skip _ _ => 3
  | .align _ => 2
  | .seek _ => 2
  | .padchk _ _ => 3
  | .patch _ => 2
  | .encw => 1
  | .decw => 1
  | .enc => 1
  | .dec => 1
  | .crcinit => 1
  | .crcupd _ _ => 3
  | .crcfin => 1
  | .ckxf => 1
  | .ckgen => 1
  | .ckvfy => 1
  | .fatget _ => 2
  | .rdchain _ => 2
  | .wrchain _ => 2
  | .eccgen _ => 2
  | .eccchk _ => 2
  | .lsroot => 1
  | .lookup _ _ => 3
  | .split => 1
  | .join => 1
  | .dstart => 1

/-- R99: the pseudo-descriptor `LOADC`. -/
def loadc : List Instr := [.split, .ckvfy, .dec, .dstart]

/-- R99: the pseudo-descriptor `SAVEC`. -/
def savec : List Instr := [.enc, .ckgen, .join]

end Sys2Proof
end

