-- ==== Sys2Proof/Machine/Ops.lean ====
section
/-! DEFINITION. The named operations over memories and registers (00_scope.md R12, R13), the taking of a fault (R262), the
way out of one (R244, R266), and the completion of a descriptor (R29, R241). -/

namespace Sys2Proof.Machine

variable {α : Type}

/-! ## Sparse memories -/

/-- The content at address `a`; an address the list does not name reads as `blank`. -/
def Store.read (blank : α) : Store α → Nat → α
  | [], _ => blank
  | c :: m, a => if c.1 = a then c.2 else Store.read blank m a

/-- Drop what is listed for address `a`. -/
def Store.erase (m : Store α) (a : Nat) : Store α := m.filter (fun c => decide (c.1 ≠ a))

/-- List `v` at address `a`, keeping the addresses rising. -/
def Store.insert : Store α → Nat → α → Store α
  | [], a, v => [(a, v)]
  | c :: m, a, v =>
    if a < c.1 then (a, v) :: c :: m else if c.1 = a then (a, v) :: m else c :: Store.insert m a v

/-- Write `v` at address `a`: a blank content is not listed. -/
def Store.write [DecidableEq α] (blank : α) (m : Store α) (a : Nat) (v : α) : Store α :=
  if v = blank then Store.erase m a else Store.insert m a v

/-- R13 `MemRead`: the `n` contents from address `a` on, in address order. -/
def Store.readRange (blank : α) (m : Store α) (a : Nat) : Nat → List α
  | 0 => []
  | n + 1 => Store.read blank m a :: Store.readRange blank m (a + 1) n

/-- R13 `MemWrite`: store the contents of a list from address `a` on. -/
def Store.writeRange [DecidableEq α] (blank : α) (m : Store α) (a : Nat) : List α → Store α
  | [] => m
  | v :: vs => Store.writeRange blank (Store.write blank m a v) (a + 1) vs

/-- The canonical form: addresses strictly rising, nothing listed that reads as an unlisted address does. -/
abbrev Store.wf (blank : α) (m : Store α) : Prop :=
  m.Pairwise (fun c d => c.1 < d.1) ∧ ∀ c ∈ m, c.2 ≠ blank

/-- Every listed address is below `n`: the memory holds nothing at an address its space does not have. -/
abbrev Store.below (m : Store α) (n : Nat) : Prop := ∀ c ∈ m, c.1 < n

/-- The canonical form of a byte memory. -/
abbrev Memory.wf (m : Memory) : Prop := Store.wf blankByte m

/-- One byte of a byte memory. -/
def readByte (m : Memory) (a : Nat) : Byte := Store.read blankByte m a
/-- Bytes `m[a .. a+n)`. -/
def readBytes (m : Memory) (a n : Nat) : List Byte := Store.readRange blankByte m a n
/-- Store one byte. -/
def writeByte (m : Memory) (a : Nat) (b : Byte) : Memory := Store.write blankByte m a b
/-- Store bytes from address `a` on. -/
def writeBytes (m : Memory) (a : Nat) (bs : List Byte) : Memory := Store.writeRange blankByte m a bs

/-- R13 `DM[i]`. -/
def readWord (m : Store W32) (i : Nat) : W32 := Store.read blankWord m i
/-- Words `DM[i .. i+n)`. -/
def readWords (m : Store W32) (i n : Nat) : List W32 := Store.readRange blankWord m i n
/-- Store one word of `DM`. -/
def writeWord (m : Store W32) (i : Nat) (w : W32) : Store W32 := Store.write blankWord m i w
/-- Store words of `DM` from index `i` on. -/
def writeWords (m : Store W32) (i : Nat) (ws : List W32) : Store W32 := Store.writeRange blankWord m i ws

/-- The record `ET[i]`. -/
def readEntry (m : Store DirEntry) (i : Nat) : DirEntry := Store.read blankEntry m i
/-- Store a record of `ET`. -/
def writeEntry (m : Store DirEntry) (i : Nat) (e : DirEntry) : Store DirEntry := Store.write blankEntry m i e
/-- Store records of `ET` from index `i` on. -/
def writeEntries (m : Store DirEntry) (i : Nat) (es : List DirEntry) : Store DirEntry :=
  Store.writeRange blankEntry m i es

/-! ## Little-endian words (R12, R60, R61) -/

/-- The four bytes of a word, least significant first. -/
def bytesOf32 (w : W32) : List Byte :=
  [w.extractLsb' 0 8, w.extractLsb' 8 8, w.extractLsb' 16 8, w.extractLsb' 24 8]

/-- The eight bytes of a 64-bit word, least significant first. -/
def bytesOf64 (w : W64) : List Byte := bytesOf32 (w.extractLsb' 0 32) ++ bytesOf32 (w.extractLsb' 32 32)

/-- R12 `LE32(B, a)`. -/
def le32 (m : Memory) (a : Nat) : W32 :=
  readByte m (a + 3) ++ readByte m (a + 2) ++ readByte m (a + 1) ++ readByte m a

/-- R12 `LE64(B, a)`. -/
def le64 (m : Memory) (a : Nat) : W64 := le32 m (a + 4) ++ le32 m a

/-- R12 `PutLE32(B, a, w)`. -/
def putLe32 (m : Memory) (a : Nat) (w : W32) : Memory := writeBytes m a (bytesOf32 w)

/-- R12 `PutLE64(B, a, w)`. -/
def putLe64 (m : Memory) (a : Nat) (w : W64) : Memory := writeBytes m a (bytesOf64 w)

/-! ## Bit positions, most significant bit first (R12, R62) -/

/-- R12: bit position `p` of a buffer is bit `7 - (p mod 8)` of byte `p div 8`. -/
def bitAt (m : Memory) (p : Nat) : Bool := (readByte m (p / 8)).getLsbD (7 - p % 8)

/-- R12 `Bits(B, p, n)`: the natural whose bit `n-1-t` is bit position `p+t`. -/
def bits (m : Memory) (p : Nat) : Nat → Nat
  | 0 => 0
  | n + 1 => (bitAt m p).toNat * 2 ^ n + bits m (p + 1) n

/-- A byte with its bit `i` set to `b`. -/
def setBit (x : Byte) (i : Nat) (b : Bool) : Byte :=
  if b then x ||| (1#8 <<< i) else x &&& ~~~(1#8 <<< i)

/-- Set bit position `p` of a buffer, a read-modify-write of one byte (R67). -/
def putBitAt (m : Memory) (p : Nat) (b : Bool) : Memory :=
  writeByte m (p / 8) (setBit (readByte m (p / 8)) (7 - p % 8) b)

/-- R12 `PutBits(B, p, n, v)`: bit position `p+t` becomes `v[n-1-t]`, in increasing `t`. -/
def putBits (m : Memory) (p : Nat) : Nat → W64 → Memory
  | 0, _ => m
  | n + 1, v => putBits (putBitAt m p (v.getLsbD n)) (p + 1) n v

/-- R125: bytes written as 8-bit groups from bit position `p` on. -/
def putByteGroups (m : Memory) (p : Nat) : List Byte → Memory
  | [] => m
  | b :: bs => putByteGroups (putBits m p 8 (b.zeroExtend 64)) (p + 8) bs

/-! ## Taking a fault, leaving one, completing -/

/-- R262: the state a `raise` leaves. `dp` is not advanced and no effect of the descriptor takes place. -/
def State.raised (s : State) (k : BlockFault) : State :=
  { s with err := k.code, einfo := k.info, state := .fault, imgMode := .closed }

/-- R262 `raise Kind(info)`: the step ends in `FAULT`. -/
def raise (k : BlockFault) (s : State) : Result := .next (s.raised k)

/-- R244 START at entry point `v`: the one way out of `FAULT` (R266). -/
def State.started (s : State) (v : W32) : State :=
  { s with dp := v, err := 0#8, einfo := 0#32, state := .run }

/-- R13, R264: one check of a descriptor's rule. The first that fails raises, and nothing after it is looked at. -/
@[inline] def require (c : Prop) [Decidable c] (k : BlockFault) (s : State) (rest : Result) : Result :=
  if c then rest else raise k s

/-- R29, R241: `dp <- dp + size`. -/
def State.advance (s : State) (n : Nat) : State := { s with dp := s.dp + BitVec.ofNat 32 n }

/-- R29, R241 step 4: descriptor `i` has completed with the effects in `s`. -/
def complete (i : Instr) (s : State) : Result := .next (s.advance i.size)

/-- R183: the image handle is opened. -/
def State.openImage (s : State) (m : ImgMode) : State := { s with imgMode := m }

/-- R183: the image handle is closed, the last effect of every filesystem descriptor. -/
def State.closeImage (s : State) : State := { s with imgMode := .closed }

end Sys2Proof.Machine
end

