-- ==== Sys2Proof/Machine/Operands.lean ====
section
/-! DEFINITION. The readings of an operand word (30_encoding.md R94) and the bit-field read function that a length operand
selects (40_bitfield.md R110, R111), with the range check of R126. -/

namespace Sys2Proof.Machine

/-- R11, R94 (a): a word read as a two's complement integer. -/
def s32 (w : W32) : Int := w.toInt

/-- R94 (a): the number of bits a length operand asks for, `|s32(w)|`. -/
def lenBits (w : W32) : Nat := (s32 w).natAbs

/-- R94 (a): does a length operand ask for a signed field? -/
def lenSigned (w : W32) : Bool := decide (s32 w < 0)

/-- R11 `ceil8`. -/
def ceil8 (n : Nat) : Nat := (n + 7) / 8

/-- The loop of R110, on a step budget. One turn takes `min(8 - bx, rem)` bits of the current byte. -/
def extractLoop (m : Memory) : Nat → Nat → Nat → Nat → Nat
  | 0, _, _, v => v
  | fuel + 1, o, rem, v =>
    if rem = 0 then v
    else
      let bx := o % 8
      let k := min (8 - bx) rem
      let ex := ((readByte m (o / 8)).toNat >>> (8 - bx - k)) % 2 ^ k
      extractLoop m fuel (o + k) (rem - k) ((v <<< k) ||| ex)

/-- R110 `Extract(B, p, n)`. Every turn of the loop takes at least one bit, so `n` turns are enough. -/
def extract (m : Memory) (p n : Nat) : Nat := extractLoop m n p n 0

/-- The ones below bit `n`: `2^n - 1` in 64 bits. -/
def mask64 (n : Nat) : W64 := BitVec.ofNat 64 (2 ^ n - 1)

/-- R111: sign extension to the next whole byte and no further. -/
def signExtendToByte (n : Nat) (signed : Bool) (v : W64) : W64 :=
  if signed = true ∧ 0 < n ∧ v.getLsbD (n - 1) = true then (v ||| ~~~(mask64 n)) &&& mask64 (8 * ceil8 n) else v

/-- R111 `ReadField(B, p, l)`, the value. -/
def readField (m : Memory) (p : Nat) (n : Nat) (signed : Bool) : W64 :=
  signExtendToByte n signed (BitVec.ofNat 64 (extract m p n))

/-- R116: `k` 8-bit groups from bit position `p` on. -/
def readByteGroups (m : Memory) (p : Nat) : Nat → List Byte
  | 0 => []
  | k + 1 => BitVec.ofNat 8 (extract m p 8) :: readByteGroups m (p + 8) k

/-- R126 `InRange(n, signed, value)`. -/
def inRange (n : Nat) (signed : Bool) (value : W64) : Bool :=
  if signed = false then decide (value.toNat < 2 ^ n)
  else if n = 0 then decide (value = 0#64)
  else
    let w := 8 * ceil8 n
    let top := value.toNat / 2 ^ (n - 1)
    decide (value.toNat < 2 ^ w) && (decide (top = 0) || decide (top = 2 ^ (w - (n - 1)) - 1))

end Sys2Proof.Machine
end

