-- ==== Sys2Proof/Machine/BitField.lean ====
section
/-! DEFINITION. The bit-field unit (40_bitfield.md): `RD UNPACK UNPACKS SKIP ALIGN SEEK PADCHK PATCH`. -/

namespace Sys2Proof.Machine

/-- R112 `RD len`. -/
def execRd (len : W32) (s : State) : Result :=
  let n := lenBits len
  require (n ≤ 64) (.badOperand 1) s <|
  require (s.bo.toNat + n ≤ 8 * s.dblen.toNat) (.truncated s.bo) s <|
  complete (.rd len) { s with
    rv := readField s.db s.bo.toNat n (lenSigned len)
    rb := BitVec.ofNat 32 (ceil8 n)
    bo := s.bo + BitVec.ofNat 32 n }

/-- R114: the number of bits a list of length operands asks for. -/
def totalBits (lens : List W32) : Nat := (lens.map lenBits).sum

/-- R115: the sum of the byte lengths the reads of a list of length operands report. -/
def totalByteLen (lens : List W32) : Nat := (lens.map (fun l => ceil8 (lenBits l))).sum

/-- R114: the records of an `UNPACK` that starts at cursor `bo`; `off` is the cursor before each read. -/
def unpackRecords (m : Memory) (bo : W32) : List W32 → List FtRecord
  | [] => []
  | l :: ls =>
    FtRecord.int (lenBits l) (lenSigned l) bo (readField m bo.toNat (lenBits l) (lenSigned l)) ::
      unpackRecords m (bo + BitVec.ofNat 32 (lenBits l)) ls

/-- R114, R115 `UNPACK total_bytes, [l_1 .. l_cnt]`. With `cnt = 0` check (3) is made like any other: a cursor past `8 * dblen` faults,
though R114's corner case says that the descriptor only adds `total_bytes`, and R97 (c) that `UNPACK 0, []` changes nothing but `dp`
(DESIGN CHOICE, log 16). -/
def execUnpack (totalBytes : W32) (lens : List W32) (s : State) : Result :=
  require (lens.all (fun l => decide (lenBits l ≤ 64)) = true) (.badOperand 1) s <|
  require (s.ft.length + lens.length ≤ s.cfg.ftMax) (.badOperand 8) s <|
  require (s.bo.toNat + totalBits lens ≤ 8 * s.dblen.toNat) (.truncated s.bo) s <|
  complete (.unpack totalBytes lens) { s with
    ft := s.ft ++ unpackRecords s.db s.bo lens
    bo := s.bo + BitVec.ofNat 32 (totalBits lens)
    utot := s.utot + BitVec.ofNat 32 (max (totalByteLen lens) totalBytes.toNat) }

/-- R116 `UNPACKS total_bytes`. -/
def execUnpacks (totalBytes : W32) (s : State) : Result :=
  let tb := totalBytes.toNat
  require (tb ≤ s.cfg.strMax ∧ s.ft.length + 1 ≤ s.cfg.ftMax) (.badOperand 8) s <|
  require (s.bo.toNat + 8 * tb ≤ 8 * s.dblen.toNat) (.truncated s.bo) s <|
  complete (.unpacks totalBytes) { s with
    ft := s.ft ++ [FtRecord.str s.bo (readByteGroups s.db s.bo.toNat tb)]
    bo := s.bo + BitVec.ofNat 32 (8 * tb)
    utot := s.utot + totalBytes }

/-- R117 `SKIP new_bo, total_bytes`. -/
def execSkip (newBo totalBytes : W32) (s : State) : Result :=
  complete (.skip newBo totalBytes) { s with bo := newBo, utot := s.utot + totalBytes }

/-- R118 `ALIGN total_bytes`: the cursor does not move. -/
def execAlign (totalBytes : W32) (s : State) : Result :=
  complete (.align totalBytes) { s with utot := s.utot + totalBytes }

/-- R119 `SEEK new_bo`. -/
def execSeek (newBo : W32) (s : State) : Result := complete (.seek newBo) { s with bo := newBo }

/-- R120 `PADCHK cb_addr, len`. With `len = 0` checks (1) and (2) are made like any other: the pattern's place and the cursor must be
in range, though R120's corner case says that it always passes (DESIGN CHOICE, log 15). -/
def execPadchk (cbAddr len : W32) (s : State) : Result :=
  require (cbAddr.toNat + len.toNat ≤ s.cfg.cbLen) (.badOperand 2) s <|
  require (s.bo.toNat + 8 * len.toNat ≤ 8 * s.dblen.toNat) (.truncated s.bo) s <|
  require (readByteGroups s.db s.bo.toNat len.toNat = readBytes s.cb cbAddr.toNat len.toNat) (.formatMismatch 3) s <|
  complete (.padchk cbAddr len) { s with
    bo := s.bo + BitVec.ofNat 32 (8 * len.toNat)
    utot := s.utot + len }

/-- R125 `PATCH ft_idx`: the record is the only coordinate (R127). -/
def execPatch (ftIdx : W32) (s : State) : Result :=
  match s.ft[ftIdx.toNat]? with
  | none => raise (.badOperand 3) s
  | some (.int n signed off value) =>
    require (inRange n signed value = true) (.valueOutOfRange ftIdx) s <|
    require (off.toNat + n ≤ 8 * s.dblen.toNat) (.truncated off) s <|
    complete (.patch ftIdx) { s with db := putBits s.db off.toNat n value }
  | some (.str off bytes) =>
    require (off.toNat + 8 * bytes.length ≤ 8 * s.dblen.toNat) (.truncated off) s <|
    complete (.patch ftIdx) { s with db := putByteGroups s.db off.toNat bytes }

end Sys2Proof.Machine
end

