-- ==== Sys2Proof/Machine/Checksum.lean ====
section
/-! DEFINITION. The checksum unit (42_checksum.md): `CRCINIT CRCUPD CRCFIN CKXF CKGEN CKVFY`. -/

namespace Sys2Proof.Machine

/-- R6 `T[k]`. -/
def crcTable (c : Config) (k : Nat) : W16 := c.tTab.getD k 0#16

/-- R162 `Upd(c, b)`. -/
def crcUpd (c : Config) (x : W16) (b : Byte) : W16 :=
  (x >>> 8) ^^^ crcTable c (x.extractLsb' 0 8 ^^^ b).toNat

/-- R163: the accumulator after a run of bytes, in order. -/
def crcRun (c : Config) (x : W16) (bs : List Byte) : W16 := bs.foldl (crcUpd c) x

/-- R169 `Crc16(bs)`. -/
def crc16 (c : Config) (bs : List Byte) : W16 := crcRun c 0xFFFF#16 bs ^^^ 0xFFFF#16

/-- R171: byte sequences of equal length that differ in exactly one bit, bit `i` of byte `k`. -/
def DifferInOneBit (xs ys : List Byte) : Prop :=
  ∃ k i, k < xs.length ∧ i < 8 ∧ ys = xs.set k (xs.getD k 0#8 ^^^ (1#8 <<< i))

/-- R171 `SingleBitSensitive(T)`: the property of the table `T` that a claim about flipped bits takes as a hypothesis. It is not
among the conditions of a configuration: for an arbitrary `T` it is false. -/
def SingleBitSensitive (c : Config) : Prop :=
  ∀ xs ys : List Byte, DifferInOneBit xs ys → crc16 c xs ≠ crc16 c ys

/-- R166 `left` of `Xf(x)`. -/
def xfLeft (c : Config) (x : W16) : W32 := (x.zeroExtend 32 &&& c.m1) ||| (c.m2 &&& ~~~c.m1)

/-- R166 `right` of `Xf(x)`. -/
def xfRight (c : Config) (x : W16) : W32 := (x.zeroExtend 32 &&& ~~~c.m1) ||| (c.m2 &&& c.m1)

/-- R166 `ck` of `Xf(x)`. -/
def xfCk (c : Config) (x : W16) : W64 :=
  ((xfRight c x).zeroExtend 64 <<< 32) ||| (xfLeft c x).zeroExtend 64

/-- The valid ciphertext `CT[0 .. ctlen)` (R170 (d)). -/
def State.ciphertext (s : State) : List Byte := readBytes s.ct 0 s.ctlen.toNat

/-- R165, R166: `(left, right, ck64) <- Xf(x)`. -/
def State.withXf (s : State) (x : W16) : State :=
  { s with left := xfLeft s.cfg x, right := xfRight s.cfg x, ck64 := xfCk s.cfg x }

/-- R161 `CRCINIT`. -/
def execCrcinit (s : State) : Result := complete .crcinit { s with crc := 0xFFFF#16 }

/-- R163 `CRCUPD off, len`. -/
def execCrcupd (off len : W32) (s : State) : Result :=
  require (off.toNat + len.toNat ≤ s.ctlen.toNat) (.badOperand 5) s <|
  complete (.crcupd off len) { s with crc := crcRun s.cfg s.crc (readBytes s.ct off.toNat len.toNat) }

/-- R164 `CRCFIN`. -/
def execCrcfin (s : State) : Result := complete .crcfin { s with crc := s.crc ^^^ 0xFFFF#16 }

/-- R165 `CKXF`. -/
def execCkxf (s : State) : Result := complete .ckxf (s.withXf s.crc)

/-- R167 `CKGEN`. -/
def execCkgen (s : State) : Result :=
  let c := crc16 s.cfg s.ciphertext
  complete .ckgen { s.withXf c with crc := c, cstored := xfCk s.cfg c }

/-- R168 `CKVFY`: all 64 bits are compared. -/
def execCkvfy (s : State) : Result :=
  let c := crc16 s.cfg s.ciphertext
  require (xfCk s.cfg c = s.cstored) (.formatMismatch 2) s <|
  complete .ckvfy { s.withXf c with crc := c }

end Sys2Proof.Machine
end

