-- ==== Sys2Proof/Machine/Cipher.lean ====
section
/-! DEFINITION. The cipher unit (41_cipher.md): `ENCW DECW ENC DEC`. -/

namespace Sys2Proof.Machine

/-- R6 `P[i]`. -/
def subkey (c : Config) (i : Nat) : W32 := c.pTab.getD i 0#32

/-- R6 `S[i]`. -/
def sbox (c : Config) (i : Nat) : W32 := c.sTab.getD i 0#32

/-- R141: the F-function, as SK04 writes it. -/
def feistelF (c : Config) (x : W32) : W32 :=
  sbox c (768 + (x.extractLsb' 0 8).toNat) +
    (sbox c (512 + (x.extractLsb' 8 8).toNat) ^^^
      (sbox c (256 + (x.extractLsb' 16 8).toNat) + sbox c (x.extractLsb' 24 8).toNat))

/-- R142: one iteration of `Encrypt`, for `i = 0, 2, .., 16`. -/
def encIter (c : Config) (x : W32 × W32) (i : Nat) : W32 × W32 :=
  let l := if i = 0 then x.1 ^^^ subkey c i else x.1 ^^^ subkey c i ^^^ feistelF c x.2
  let r := if i = 16 then x.2 ^^^ subkey c (i + 1) else x.2 ^^^ subkey c (i + 1) ^^^ feistelF c l
  (l, r)

/-- R142 `Encrypt(L, R)`. -/
def encrypt (c : Config) (x : W32 × W32) : W32 × W32 := [0, 2, 4, 6, 8, 10, 12, 14, 16].foldl (encIter c) x

/-- R143: one iteration of `Decrypt`, for `i = 17, 15, .., 1` (reading of 90_conflicts.md C7). -/
def decIter (c : Config) (x : W32 × W32) (i : Nat) : W32 × W32 :=
  let l := if i = 17 then x.1 ^^^ subkey c i else x.1 ^^^ subkey c i ^^^ feistelF c x.2
  let r := if i = 1 then x.2 ^^^ subkey c (i - 1) else x.2 ^^^ subkey c (i - 1) ^^^ feistelF c l
  (l, r)

/-- R143 `Decrypt(L, R)`. -/
def decrypt (c : Config) (x : W32 × W32) : W32 × W32 := [17, 15, 13, 11, 9, 7, 5, 3, 1].foldl (decIter c) x

/-- R149 `EncBlock` on the two little-endian words of a block: the output words are written `R` then `L`. -/
def encBlock (c : Config) (x : W32 × W32) : W32 × W32 := (encrypt c x).swap

/-- R149 `DecBlock`. -/
def decBlock (c : Config) (x : W32 × W32) : W32 × W32 := (decrypt c x).swap

/-- R146, R147: transform `n` blocks from byte `k` of `src` on, into `dst`. -/
def mapBlocks (f : W32 × W32 → W32 × W32) (src : Memory) : Nat → Nat → Memory → Memory
  | _, 0, dst => dst
  | k, n + 1, dst =>
    let y := f (le32 src k, le32 src (k + 4))
    mapBlocks f src (k + 8) n (putLe32 (putLe32 dst k y.1) (k + 4) y.2)

/-- R144 `ENCW`: no word swap. -/
def execEncw (s : State) : Result :=
  let y := encrypt s.cfg (s.regL, s.regR)
  complete .encw { s with regL := y.1, regR := y.2 }

/-- R145 `DECW`: no word swap. -/
def execDecw (s : State) : Result :=
  let y := decrypt s.cfg (s.regL, s.regR)
  complete .decw { s with regL := y.1, regR := y.2 }

/-- R146 `ENC`. -/
def execEnc (s : State) : Result :=
  require (s.dblen.toNat % 8 = 0) (.badOperand 4) s <|
  require (s.dblen.toNat ≤ s.cfg.ctCap) (.badOperand 8) s <|
  complete .enc { s with
    ct := mapBlocks (encBlock s.cfg) s.db 0 (s.dblen.toNat / 8) s.ct
    ctlen := s.dblen }

/-- R147 `DEC`. -/
def execDec (s : State) : Result :=
  require (s.ctlen.toNat % 8 = 0) (.badOperand 4) s <|
  require (s.ctlen.toNat ≤ s.cfg.dbCap) (.badOperand 8) s <|
  complete .dec { s with
    db := mapBlocks (decBlock s.cfg) s.ct 0 (s.ctlen.toNat / 8) s.db
    dblen := s.ctlen }

end Sys2Proof.Machine
end

