-- ==== Sys2Proof/Machine/Container.lean ====
section
/-! DEFINITION. The container unit (44_container.md): `SPLIT JOIN DSTART`. The map of the container is 20_memory.md R70. -/

namespace Sys2Proof.Machine

/-- R222 `SPLIT`. -/
def execSplit (s : State) : Result :=
  let h := s.cfg.halfLen
  require (s.eblen.toNat = s.cfg.contLen) (.formatMismatch 4) s <|
  require ((le32 s.eb 0).toNat = 2 * h) (.formatMismatch 1) s <|
  complete .split { s with
    hdr := le32 s.eb 0
    ct := writeBytes (writeBytes s.ct 0 (readBytes s.eb s.cfg.offA h)) h (readBytes s.eb s.cfg.offB h)
    cstored := le64 s.eb s.cfg.offCk
    ctlen := BitVec.ofNat 32 (2 * h) }

/-- R224: the container put together in a buffer. -/
def joinInto (s : State) (eb : Memory) : Memory :=
  let h := s.cfg.halfLen
  writeBytes
    (putLe64 (writeBytes (putLe32 eb 0 (BitVec.ofNat 32 (2 * h))) s.cfg.offA (readBytes s.ct 0 h)) s.cfg.offCk s.cstored)
    s.cfg.offB (readBytes s.ct h h)

/-- R224 `JOIN`: the header written is the constant `2*H`, the checksum written is `cstored`. -/
def execJoin (s : State) : Result :=
  require (s.ctlen.toNat = 2 * s.cfg.halfLen) (.badOperand 4) s <|
  complete .join { s with eb := joinInto s s.eb, eblen := BitVec.ofNat 32 s.cfg.contLen }

/-- R226 `data_start`, modulo 2^32. -/
def dataStart (m : Memory) : W32 := le32 m 0 + BitVec.ofNat 32 bias

/-- R226 `DSTART`. -/
def execDstart (s : State) : Result :=
  let d := dataStart s.db
  require (4 ≤ s.dblen.toNat) (.truncated 0) s <|
  require (d.toNat ≤ s.dblen.toNat) (.truncated d) s <|
  complete .dstart { s with dstart := d, bo := BitVec.ofNat 32 (8 * d.toNat) }

end Sys2Proof.Machine
end

