-- ==== Sys2Proof/Machine/Card.lean ====
section
/-! DEFINITION. The functions of the card (00_scope.md R8, R10; 43_filesystem.md R180 to R184, R194, R202): pages, clusters,
codes, the chain walk, reading and writing a file, directory lists. -/

namespace Sys2Proof.Machine

/-! ## TESTCFG's toy card (R10) -/

/-- R10 `FatValue`: a flat table of little-endian words after the 16 raw pages. -/
def testFatValue (img : Memory) (c : Nat) : W32 := le32 img (2112 + 4 * c)

/-- R10 `Ecc128`: exclusive-or, sum, and index-weighted sum of the bytes. -/
def testEcc128 (ch : List Byte) : Byte × Byte × Byte :=
  (ch.foldl (fun x b => x ^^^ b) 0#8,
   BitVec.ofNat 8 (ch.map BitVec.toNat).sum,
   BitVec.ofNat 8 (ch.zipIdx.map (fun x => x.2 * x.1.toNat)).sum)

/-- R10 `RootEntry`. -/
def testRootEntry : DirEntry := { name := [], isFile := false, isDir := true, cluster := 0#32, length := 96#32 }

/-- The little-endian word at byte `a` of a list. -/
def listLe32 (r : List Byte) (a : Nat) : W32 :=
  r.getD (a + 3) 0#8 ++ r.getD (a + 2) 0#8 ++ r.getD (a + 1) 0#8 ++ r.getD a 0#8

/-- R10: one 32-byte directory record, with its `live` mark. -/
def testDirRecord (r : List Byte) : DirEntry × Bool :=
  let flags := r.getD 0 0#8
  ({ name := (r.drop 16).takeWhile (fun b => decide (b ≠ 0#8))
     isFile := flags.getLsbD 1
     isDir := flags.getLsbD 2
     cluster := listLe32 r 4
     length := listLe32 r 8 }, flags.getLsbD 0)

/-- R10: the first `n` 32-byte records of a byte sequence. -/
def testDirRecords : Nat → List Byte → List (DirEntry × Bool)
  | 0, _ => []
  | n + 1, bs => testDirRecord (bs.take 32) :: testDirRecords n (bs.drop 32)

/-- R10 `DirParse`: a trailing partial record is dropped. -/
def testDirParse (bs : List Byte) : List (DirEntry × Bool) := testDirRecords (bs.length / 32) bs

/-! ## The configuration's functions (R8) -/

/-- R8 `FatValue(IMG, c)`. -/
def fatValue (c : Config) (img : Memory) (cl : Nat) : W32 :=
  match c.card with
  | .testcfg => testFatValue img cl
  | .other id => Config.otherFatValue id img cl

/-- R8 `Ecc128(ch)`. -/
def ecc128 (c : Config) (ch : List Byte) : Byte × Byte × Byte :=
  match c.card with
  | .testcfg => testEcc128 ch
  | .other id => Config.otherEcc128 id ch

/-- The three bytes of `Ecc128(ch)` in order. -/
def eccBytes (c : Config) (ch : List Byte) : List Byte :=
  [(ecc128 c ch).1, (ecc128 c ch).2.1, (ecc128 c ch).2.2]

/-- R8 `RootEntry(IMG)`. -/
def rootEntry (c : Config) (img : Memory) : DirEntry :=
  match c.card with
  | .testcfg => testRootEntry
  | .other id => Config.otherRootEntry id img

/-- R8 `DirParse(bs)` before the guarantee on names. -/
def rawDirParse (c : Config) (bs : List Byte) : List (DirEntry × Bool) :=
  match c.card with
  | .testcfg => testDirParse bs
  | .other id => Config.otherDirParse id bs

/-- R8, R202 `DirParse(bs)`: every name it yields has at most `NAME_MAX` bytes (log 7). -/
def dirParse (c : Config) (bs : List Byte) : List (DirEntry × Bool) :=
  (rawDirParse c bs).map (fun d => ({ d.1 with name := d.1.name.take c.nameMax }, d.2))

/-! ## Pages and clusters (R72, R180, R181) -/

/-- R180 `PageData(p)`. -/
def pageData (c : Config) (img : Memory) (p : Nat) : List Byte := readBytes img (c.pageAddr p) c.pageSize

/-- R180 `PageSpare(p)`. -/
def pageSpare (c : Config) (img : Memory) (p : Nat) : List Byte :=
  readBytes img (c.pageAddr p + c.pageSize) c.spareSize

/-- R180: the data of `n` pages from page `p` on. -/
def pagesData (c : Config) (img : Memory) : Nat → Nat → List Byte
  | _, 0 => []
  | p, n + 1 => pageData c img p ++ pagesData c img (p + 1) n

/-- R180 `ClusterData(c)`. -/
def clusterData (c : Config) (img : Memory) (cl : Nat) : List Byte :=
  pagesData c img (c.clusterFirstPage cl) c.ppc

/-- R72: sub-chunk `k` of a page's data. -/
def subChunk (d : List Byte) (k : Nat) : List Byte := (d.drop (128 * k)).take 128

/-- R181: the codes of a page's data, in sub-chunk order. -/
def eccCodes (c : Config) (d : List Byte) : List Byte :=
  (List.range c.nch).flatMap (fun k => eccBytes c (subChunk d k))

/-- R181 `SpareOf(d)`. -/
def spareOf (c : Config) (d : List Byte) : List Byte :=
  eccCodes c d ++ List.replicate (c.spareSize - 3 * c.nch) 0#8

/-! ## Chains and files (R182, R184) -/

/-- R182 `Walk`, with `left` hops still allowed. -/
def walkFrom (c : Config) (img : Memory) (left : Nat) (cl : W32) : Except BlockFault (List W32) :=
  if cl = c.chainEnd then .ok []
  else if c.nClusters ≤ cl.toNat then .error (.chainError 1)
  else
    match left with
    | 0 => .error (.chainError 2)
    | n + 1 =>
      match walkFrom c img n (fatValue c img cl.toNat) with
      | .ok cls => .ok (cl :: cls)
      | .error k => .error k

/-- R182 `Walk(c0)`: at most `N_CLUSTERS` hops. -/
def walk (c : Config) (img : Memory) (c0 : W32) : Except BlockFault (List W32) := walkFrom c img c.nClusters c0

/-- R184: the data of a chain, cluster after cluster. -/
def chainData (c : Config) (img : Memory) : List W32 → List Byte
  | [] => []
  | cl :: cls => clusterData c img cl.toNat ++ chainData c img cls

/-- R184 `ReadChain(e)`. -/
def readChain (c : Config) (img : Memory) (e : DirEntry) : Except BlockFault (List Byte) :=
  match walk c img e.cluster with
  | .error k => .error k
  | .ok cls =>
    if cls.length * c.clusterSize < e.length.toNat then .error (.chainError 3)
    else .ok ((chainData c img cls).take e.length.toNat)

/-! ## Writing (R194, R196) -/

/-- R194 `WritePage(p, part)`: the spare area is that of the page as it then stands. -/
def writePage (c : Config) (img : Memory) (p : Nat) (part : List Byte) : Memory :=
  let img1 := writeBytes img (c.pageAddr p) part
  if c.hasSpare = true then writeBytes img1 (c.pageAddr p + c.pageSize) (spareOf c (pageData c img1 p)) else img1

/-- R194: the parts of a cluster's slice, page after page from page `p` on; a page with no new byte is not written. -/
def writePages (c : Config) : Nat → Memory → Nat → List Byte → Memory
  | 0, img, _, _ => img
  | n + 1, img, p, slice =>
    let part := slice.take c.pageSize
    writePages c n (if part = [] then img else writePage c img p part) (p + 1) (slice.drop c.pageSize)

/-- R194: the slices of `data` down a chain. -/
def writeChain (c : Config) (img : Memory) : List W32 → List Byte → Memory
  | [], _ => img
  | cl :: cls, data =>
    writeChain c (writePages c c.ppc img (c.clusterFirstPage cl.toNat) (data.take c.clusterSize)) cls
      (data.drop c.clusterSize)

/-! ## Directories (R202, R203) -/

/-- R202: the live entries of a directory's bytes, in order. -/
def liveEntries (c : Config) (bs : List Byte) : List DirEntry :=
  ((dirParse c bs).filter (fun d => d.2)).map (fun d => d.1)

/-- R202 `DirList(e)`. -/
def dirList (c : Config) (img : Memory) (e : DirEntry) : Except BlockFault (List DirEntry) :=
  match readChain c img e with
  | .error k => .error k
  | .ok bs => .ok (liveEntries c bs)

/-- R200: the first sub-chunk of a page whose stored code is not the computed one. -/
def firstBadChunk (c : Config) (img : Memory) (p : Nat) : Option Nat :=
  (List.range c.nch).find? (fun k =>
    decide (eccBytes c (subChunk (pageData c img p) k) ≠ ((pageSpare c img p).drop (3 * k)).take 3))

end Sys2Proof.Machine
end

