-- ==== Sys2Proof/Machine/Filesystem.lean ====
section
/-! DEFINITION. The filesystem unit (43_filesystem.md): `FATGET RDCHAIN WRCHAIN ECCGEN ECCCHK LSROOT LOOKUP`. A descriptor
that accesses the image opens the handle first and closes it as its last effect, on a fault too (R183). -/

namespace Sys2Proof.Machine

/-- R186 `FATGET cluster`. -/
def execFatget (cluster : W32) (s : State) : Result :=
  require (cluster.toNat < s.cfg.nClusters) (.badOperand 6) s <|
  let s1 := s.openImage .read
  complete (.fatget cluster)
    { s1 with rv := (fatValue s1.cfg s1.img cluster.toNat).zeroExtend 64 }.closeImage

/-- R190 `RDCHAIN et_idx`. -/
def execRdchain (etIdx : W32) (s : State) : Result :=
  let e := readEntry s.et etIdx.toNat
  require (etIdx.toNat < s.etn.toNat) (.badOperand 3) s <|
  require (e.length.toNat ≤ s.cfg.ebCap) (.badOperand 7) s <|
  let s1 := s.openImage .read
  match readChain s1.cfg s1.img e with
  | .error k => raise k s1
  | .ok data => complete (.rdchain etIdx) { s1 with eb := writeBytes s1.eb 0 data, eblen := e.length }.closeImage

/-- R194 `WRCHAIN et_idx`: the whole chain is walked before the first byte is written (R195). -/
def execWrchain (etIdx : W32) (s : State) : Result :=
  let e := readEntry s.et etIdx.toNat
  require (etIdx.toNat < s.etn.toNat) (.badOperand 3) s <|
  let s1 := s.openImage .rw
  match walk s1.cfg s1.img e.cluster with
  | .error k => raise k s1
  | .ok cls =>
    require (s.eblen.toNat ≤ cls.length * s.cfg.clusterSize) (.chainError 3) s1 <|
    complete (.wrchain etIdx)
      { s1 with img := writeChain s1.cfg s1.img cls (readBytes s1.eb 0 s1.eblen.toNat) }.closeImage

/-- R199 `ECCGEN eb_off`: `IMG` is not touched. -/
def execEccgen (ebOff : W32) (s : State) : Result :=
  require (ebOff.toNat + 128 ≤ s.eblen.toNat) (.badOperand 5) s <|
  let e := ecc128 s.cfg (readBytes s.eb ebOff.toNat 128)
  complete (.eccgen ebOff) { s with rv := (e.2.2 ++ e.2.1 ++ e.1 : BitVec 24).zeroExtend 64, rb := 3#32 }

/-- R200 `ECCCHK page`: it detects and does not correct. -/
def execEccchk (page : W32) (s : State) : Result :=
  require (s.cfg.hasSpare = true ∧ page.toNat < s.cfg.nPages) (.badOperand 6) s <|
  let s1 := s.openImage .read
  match firstBadChunk s1.cfg s1.img page.toNat with
  | some k => raise (.eccMismatch (BitVec.ofNat 32 k)) s1
  | none => complete (.eccchk page) s1.closeImage

/-- R204, R205: `ET[0 .. m) <- entries`, `etn <- m`. -/
def State.withEntries (s : State) (es : List DirEntry) : State :=
  { s with et := writeEntries s.et 0 es, etn := BitVec.ofNat 32 es.length }

/-- R204 `LSROOT`. -/
def execLsroot (s : State) : Result :=
  let s1 := s.openImage .read
  match dirList s1.cfg s1.img (rootEntry s1.cfg s1.img) with
  | .error k => raise k s1
  | .ok es =>
    require (es.length ≤ s.cfg.etMax) (.badOperand 8) s1 <|
    complete .lsroot (s1.withEntries es).closeImage

/-- R205 `LOOKUP cb_addr, len`. -/
def execLookup (cbAddr len : W32) (s : State) : Result :=
  require (cbAddr.toNat + len.toNat ≤ s.cfg.cbLen) (.badOperand 2) s <|
  let s1 := s.openImage .read
  match dirList s1.cfg s1.img (rootEntry s1.cfg s1.img) with
  | .error k => raise k s1
  | .ok roots =>
    match roots.find? (fun d => decide (d.name = readBytes s1.cb cbAddr.toNat len.toNat)) with
    | none => raise (.notFound 0) s1
    | some h =>
      match dirList s1.cfg s1.img h with
      | .error k => raise k s1
      | .ok es =>
        require (es.length ≤ s.cfg.etMax) (.badOperand 8) s1 <|
        complete (.lookup cbAddr len) (s1.withEntries es).closeImage

end Sys2Proof.Machine
end

