-- ==== Sys2Proof/Machine/Sequencer.lean ====
section
/-! DEFINITION. The sequencer's own descriptor (45_sequencer.md). -/

namespace Sys2Proof.Machine

/-- R243 `END`: the run is over; `dp` stays at the `END`. -/
def execEndRun (s : State) : Result := .next { s with state := .done }

end Sys2Proof.Machine
end

