-- ==== Sys2Proof/Machine/Dispatch.lean ====
section
/-! DEFINITION. One arm per descriptor of 30_encoding.md R95. -/

namespace Sys2Proof.Machine

def exec (i : Instr) (s : State) : Host.Outcome State Fault Refusal :=
  match i with
  | .endRun => Sys2Proof.Machine.execEndRun s
  | .rd len => Sys2Proof.Machine.execRd len s
  | .unpack totalBytes lens => Sys2Proof.Machine.execUnpack totalBytes lens s
  | .unpacks totalBytes => Sys2Proof.Machine.execUnpacks totalBytes s
  | .skip newBo totalBytes => Sys2Proof.Machine.execSkip newBo totalBytes s
  | .align totalBytes => Sys2Proof.Machine.execAlign totalBytes s
  | .seek newBo => Sys2Proof.Machine.execSeek newBo s
  | .padchk cbAddr len => Sys2Proof.Machine.execPadchk cbAddr len s
  | .patch ftIdx => Sys2Proof.Machine.execPatch ftIdx s
  | .encw => Sys2Proof.Machine.execEncw s
  | .decw => Sys2Proof.Machine.execDecw s
  | .enc => Sys2Proof.Machine.execEnc s
  | .dec => Sys2Proof.Machine.execDec s
  | .crcinit => Sys2Proof.Machine.execCrcinit s
  | .crcupd off len => Sys2Proof.Machine.execCrcupd off len s
  | .crcfin => Sys2Proof.Machine.execCrcfin s
  | .ckxf => Sys2Proof.Machine.execCkxf s
  | .ckgen => Sys2Proof.Machine.execCkgen s
  | .ckvfy => Sys2Proof.Machine.execCkvfy s
  | .fatget cluster => Sys2Proof.Machine.execFatget cluster s
  | .rdchain etIdx => Sys2Proof.Machine.execRdchain etIdx s
  | .wrchain etIdx => Sys2Proof.Machine.execWrchain etIdx s
  | .eccgen ebOff => Sys2Proof.Machine.execEccgen ebOff s
  | .eccchk page => Sys2Proof.Machine.execEccchk page s
  | .lsroot => Sys2Proof.Machine.execLsroot s
  | .lookup cbAddr len => Sys2Proof.Machine.execLookup cbAddr len s
  | .split => Sys2Proof.Machine.execSplit s
  | .join => Sys2Proof.Machine.execJoin s
  | .dstart => Sys2Proof.Machine.execDstart s

end Sys2Proof.Machine
end

