-- ==== Sys2Proof/WellFormed.lean ====
section
/-! DEFINITION. What 30_encoding.md lets an instruction hold. Every operand is a whole 32-bit word with no
reserved bits (R94, R97 (d)), so the one condition is that `UNPACK`'s `cnt` fits the 16 bits of `imm16` (R90). -/

namespace Sys2Proof

def Instr.wellFormed : Instr → Bool
  | .unpack _ lens => decide (lens.length < 2 ^ 16)
  | .endRun | .rd _ | .unpacks _ | .skip _ _ | .align _ | .seek _ | .padchk _ _ | .patch _
  | .encw | .decw | .enc | .dec | .crcinit | .crcupd _ _ | .crcfin | .ckxf | .ckgen | .ckvfy
  | .fatget _ | .rdchain _ | .wrchain _ | .eccgen _ | .eccchk _ | .lsroot | .lookup _ _
  | .split | .join | .dstart => true

end Sys2Proof
end

