-- ==== Sys2Proof/Decode.lean ====
section
/-! DEFINITION. Decoding of a descriptor from its words, and the encoder (30_encoding.md R90 to R98, R100). -/

namespace Sys2Proof

/-- Why a run of words is no descriptor, in the order of R96. -/
inductive DecodeError where
  /-- R96 check 1: there is no head word. -/
  | noHead
  /-- R96 check 2: `op` is not an opcode of R95. -/
  | unknownOp
  /-- R96 check 3: `rsv ≠ 0`, or `imm16 ≠ 0` outside `UNPACK`. -/
  | reservedField
  /-- R96 check 4: the operand words are not all there. -/
  | operandsMissing
  deriving DecidableEq, Repr

/-- The `einfo` of the `IllegalDescriptor` a decode error raises (R96, R261). -/
def DecodeError.info : DecodeError → W32
  | .noHead => 1
  | .unknownOp => 2
  | .reservedField => 3
  | .operandsMissing => 4

/-- R91 `op = head[7:0]`. -/
def headOp (head : W32) : Byte := head.extractLsb' 0 8
/-- R91 `rsv = head[15:8]`. -/
def headRsv (head : W32) : Byte := head.extractLsb' 8 8
/-- R91 `imm16 = head[31:16]`. -/
def headImm (head : W32) : W16 := head.extractLsb' 16 16

/-- The four formats of R90, each with what it makes of its operand words. -/
inductive Shape where
  | z (i : Instr)
  | w1 (mk : W32 → Instr)
  | w2 (mk : W32 → W32 → Instr)
  | v (mk : W32 → List W32 → Instr)

/-- The opcode map of R95. -/
def opTable : List (Byte × Shape) := [
  (0x00#8, .z .endRun),
  (0x10#8, .w1 .rd),
  (0x11#8, .v .unpack),
  (0x12#8, .w1 .unpacks),
  (0x13#8, .w2 .skip),
  (0x14#8, .w1 .align),
  (0x15#8, .w1 .seek),
  (0x16#8, .w2 .padchk),
  (0x17#8, .w1 .patch),
  (0x20#8, .z .encw),
  (0x21#8, .z .decw),
  (0x22#8, .z .enc),
  (0x23#8, .z .dec),
  (0x30#8, .z .crcinit),
  (0x31#8, .w2 .crcupd),
  (0x32#8, .z .crcfin),
  (0x33#8, .z .ckxf),
  (0x34#8, .z .ckgen),
  (0x35#8, .z .ckvfy),
  (0x40#8, .w1 .fatget),
  (0x41#8, .w1 .rdchain),
  (0x42#8, .w1 .wrchain),
  (0x43#8, .w1 .eccgen),
  (0x44#8, .w1 .eccchk),
  (0x45#8, .z .lsroot),
  (0x46#8, .w2 .lookup),
  (0x50#8, .z .split),
  (0x51#8, .z .join),
  (0x52#8, .z .dstart)]

/-- The row of R95 an `op` selects, if any. -/
def shapeOf (op : Byte) : Option Shape := opTable.lookup op

/-- Is `imm16` the count of an `UNPACK`, or a field that must be 0 (R90)? -/
def Shape.immFree : Shape → Bool
  | .v _ => true
  | .z _ | .w1 _ | .w2 _ => false

/-- R93 `size(head)`: a function of the head word alone. A head word of no descriptor counts as one word. -/
def headSize (head : W32) : Nat :=
  match shapeOf (headOp head) with
  | none => 1
  | some (.z _) => 1
  | some (.w1 _) => 2
  | some (.w2 _) => 3
  | some (.v _) => 2 + (headImm head).toNat

/-- Read the operand words of a head word whose format is `sh` and whose count is `cnt` (R92); the words
left over come back. -/
def takeOperands (sh : Shape) (cnt : Nat) (ws : List W32) : Except DecodeError (Instr × List W32) :=
  match sh with
  | .z i => .ok (i, ws)
  | .w1 mk =>
    match ws with
    | a :: rest => .ok (mk a, rest)
    | [] => .error .operandsMissing
  | .w2 mk =>
    match ws with
    | a :: b :: rest => .ok (mk a b, rest)
    | [_] => .error .operandsMissing
    | [] => .error .operandsMissing
  | .v mk =>
    match ws with
    | a :: rest => if rest.length < cnt then .error .operandsMissing else .ok (mk a (rest.take cnt), rest.drop cnt)
    | [] => .error .operandsMissing

/-- R96, R97: decode the descriptor at the front of a run of words. -/
def decode : List W32 → Except DecodeError (Instr × List W32)
  | [] => .error .noHead
  | head :: ws =>
    match shapeOf (headOp head) with
    | none => .error .unknownOp
    | some sh =>
      if headRsv head ≠ 0#8 ∨ (sh.immFree = false ∧ headImm head ≠ 0#16) then .error .reservedField
      else takeOperands sh (headImm head).toNat ws

/-- R63: the words of a descriptor program held as a byte stream, word `i` at `4i` little-endian; trailing bytes
that make no whole word are dropped. -/
def wordsOfBytes : List Byte → List W32
  | b0 :: b1 :: b2 :: b3 :: rest => (b3 ++ b2 ++ b1 ++ b0 : BitVec 32) :: wordsOfBytes rest
  | [_, _, _] => []
  | [_, _] => []
  | [_] => []
  | [] => []

/-- The descriptor at the front of a byte stream (R63): total on any bytes, rejecting by name. -/
def decodeBytes (bs : List Byte) : Except DecodeError (Instr × List W32) := decode (wordsOfBytes bs)

/-- The `n` words of 32 bits of the number `w`, the first being its least significant bits. -/
def wordsOfNat (w : Nat) : Nat → List W32
  | 0 => []
  | n + 1 => BitVec.ofNat 32 w :: wordsOfNat (w / 2 ^ 32) n

/-- The words of an instruction of the opcode table whose low `nbits` bits are `w`, all other bits 0. -/
def tableWords (nbits w : Nat) : List W32 :=
  wordsOfNat (w % 2 ^ nbits) (headSize (BitVec.ofNat 32 (w % 2 ^ nbits)))

/-- The instruction the decoder reads from an opcode-table word (the host's question). -/
def decodeTableWord (nbits w : Nat) : Option Instr :=
  match decode (tableWords nbits w) with
  | .ok (i, _) => some i
  | .error _ => none

/-- R95: the opcode. -/
def Instr.opcode : Instr → Byte
  | .endRun => 0x00
  | .rd _ => 0x10
  | .unpack _ _ => 0x11
  | .unpacks _ => 0x12
  | .skip _ _ => 0x13
  | .align _ => 0x14
  | .seek _ => 0x15
  | .padchk _ _ => 0x16
  | .patch _ => 0x17
  | .encw => 0x20
  | .decw => 0x21
  | .enc => 0x22
  | .dec => 0x23
  | .crcinit => 0x30
  | .crcupd _ _ => 0x31
  | .crcfin => 0x32
  | .ckxf => 0x33
  | .ckgen => 0x34
  | .ckvfy => 0x35
  | .fatget _ => 0x40
  | .rdchain _ => 0x41
  | .wrchain _ => 0x42
  | .eccgen _ => 0x43
  | .eccchk _ => 0x44
  | .lsroot => 0x45
  | .lookup _ _ => 0x46
  | .split => 0x50
  | .join => 0x51
  | .dstart => 0x52

/-- R90, R92: the value of `imm16`. -/
def Instr.imm16 : Instr → W16
  | .unpack _ lens => BitVec.ofNat 16 lens.length
  | .endRun | .rd _ | .unpacks _ | .skip _ _ | .align _ | .seek _ | .padchk _ _ | .patch _
  | .encw | .decw | .enc | .dec | .crcinit | .crcupd _ _ | .crcfin | .ckxf | .ckgen | .ckvfy
  | .fatget _ | .rdchain _ | .wrchain _ | .eccgen _ | .eccchk _ | .lsroot | .lookup _ _
  | .split | .join | .dstart => 0

/-- R92: the operand words, in order. -/
def Instr.operands : Instr → List W32
  | .rd len => [len]
  | .unpack totalBytes lens => totalBytes :: lens
  | .unpacks totalBytes => [totalBytes]
  | .skip newBo totalBytes => [newBo, totalBytes]
  | .align totalBytes => [totalBytes]
  | .seek newBo => [newBo]
  | .padchk cbAddr len => [cbAddr, len]
  | .patch ftIdx => [ftIdx]
  | .crcupd off len => [off, len]
  | .fatget cluster => [cluster]
  | .rdchain etIdx => [etIdx]
  | .wrchain etIdx => [etIdx]
  | .eccgen ebOff => [ebOff]
  | .eccchk page => [page]
  | .lookup cbAddr len => [cbAddr, len]
  | .endRun | .encw | .decw | .enc | .dec | .crcinit | .crcfin | .ckxf | .ckgen | .ckvfy
  | .lsroot | .split | .join | .dstart => []

/-- R90: the head word, `imm16 || rsv || op` with `rsv` 0. -/
def Instr.headWord (i : Instr) : W32 := i.imm16 ++ 0#8 ++ i.opcode

/-- The words of an instruction (R90, R92). -/
def encode (i : Instr) : List W32 := i.headWord :: i.operands

end Sys2Proof
end

