-- ==== Sys2Proof/Machine/Fetch.lean ====
section
/-! DEFINITION. Fetching the words of the descriptor at `dp` (30_encoding.md R92, R96), and placing an instruction where it
is fetched next. -/

namespace Sys2Proof.Machine

/-- R96, R92: the words the sequencer reads at `dp`, the head word and as many operand words as the head word asks for,
but none at or above `DM_WORDS`. `decode` meets the four checks of R96 on them, in their order. -/
def fetchWords (s : State) : List W32 :=
  readWords s.dm s.dp.toNat (min (s.cfg.dmWords - s.dp.toNat) (headSize (readWord s.dm s.dp.toNat)))

/-- The longest instruction, in words (R98). -/
def maxWords : Nat := 65537

/-- A configuration whose `DM` has at least `n` words: the given one where it has, else the same one with `DM_WORDS = n`
where R9 admits that. -/
def configWithRoom (c : Config) (n : Nat) : Config :=
  if n ≤ c.dmWords then c
  else if h : ({ c.toConfigData with dmWords := n } : ConfigData).ok = true then { toConfigData := _, wf := h }
  else c

/-- Store an instruction whose low `nbits` bits are `w` (all its other bits 0) at `dp`, with the sequencer in `RUN`. -/
def placeInstr (s : State) (nbits w : Nat) : State :=
  let dp := s.dp.toNat
  let v := w % 2 ^ nbits
  { s with
    state := .run
    cfg := configWithRoom s.cfg (dp + headSize (BitVec.ofNat 32 v))
    dm := writeWords (s.dm.filter (fun c => decide (c.1 < dp ∨ dp + maxWords ≤ c.1))) dp
            (wordsOfNat v ((nbits + 31) / 32)) }

end Sys2Proof.Machine
end

