-- ==== Sys2Proof/Machine/Step.lean ====
section
/-! DEFINITION. One step of the sequencer (45_sequencer.md R241). -/

namespace Sys2Proof.Machine

/-- R241: while `state = RUN`, decode the descriptor at `dp` (a failed check of R96 raises) and apply its rule, which
advances `dp` (R241 step 4). While `state ≠ RUN` the sequencer does nothing: the block waits for the host (R20, log 6). -/
def step (s : State) : Host.Outcome State Fault Refusal :=
  match s.state with
  | .run =>
    match decode (fetchWords s) with
    | .ok (i, _) => exec i s
    | .error e => raise (.illegalDescriptor e.info) s
  | .idle => .next s
  | .done => .next s
  | .fault => .next s

/-- `s` with an instruction stored where the next step fetches it, and the sequencer in `RUN` (log 10). -/
def State.withFetchWord (s : State) (nbits w : Nat) : State := placeInstr s nbits w

end Sys2Proof.Machine
end

