-- ==== Sys2Proof/Machine/HostPort.lean ====
section
/-! DEFINITION. The host port (10_state.md R27, R33, R34; 45_sequencer.md R244, R245, R248) and the platform's access to the
card image (20_memory.md R81). Everything here stands between steps; nothing of it happens while `state = RUN` (R76). -/

namespace Sys2Proof.Machine

/-- R245, R248: an access of the host while `state = RUN` is discarded. -/
def unlessRunning (s t : State) : State := if s.state = .run then s else t

/-- R27: what the register numbered `n` holds, zero-extended to 32 bits. A number not in the table gives 0, and so does the
write-only `CTRL`. -/
def registerValue (s : State) : Nat → W32
  | 1 => s.state.code.zeroExtend 32
  | 2 => s.err.zeroExtend 32
  | 3 => s.einfo
  | 4 => s.dp
  | 5 => s.bo
  | 6 => s.utot
  | 7 => s.rv.extractLsb' 0 32
  | 8 => s.rv.extractLsb' 32 32
  | 9 => s.rb
  | 10 => s.regL
  | 11 => s.regR
  | 12 => s.crc.zeroExtend 32
  | 13 => s.left
  | 14 => s.right
  | 15 => s.ck64.extractLsb' 0 32
  | 16 => s.ck64.extractLsb' 32 32
  | 17 => s.cstored.extractLsb' 0 32
  | 18 => s.cstored.extractLsb' 32 32
  | 19 => s.hdr
  | 20 => s.dstart
  | 21 => s.dblen
  | 22 => s.ctlen
  | 23 => s.eblen
  | 24 => s.ftn
  | 25 => s.etn
  | 26 => s.imgMode.code.zeroExtend 32
  | _ => 0#32

/-- R245 `HostRead(n)`: while `state = RUN` every register but `state` reads as 0. -/
def hostRead (s : State) (n : Nat) : W32 :=
  if s.state = .run ∧ n ≠ 1 then 0#32 else registerValue s n

/-- R27: a write of `v` to the register numbered `n`. A read-only register, an unknown number and a value above the bound
discard it; number 0 is START (R244). -/
def registerWrite (s : State) (v : W32) : Nat → State
  | 0 => s.started v
  | 5 => { s with bo := v }
  | 6 => { s with utot := v }
  | 10 => { s with regL := v }
  | 11 => { s with regR := v }
  | 12 => if v.toNat ≤ 0xFFFF then { s with crc := v.extractLsb' 0 16 } else s
  | 17 => { s with cstored := s.cstored.extractLsb' 32 32 ++ v }
  | 18 => { s with cstored := v ++ s.cstored.extractLsb' 0 32 }
  | 21 => if v.toNat ≤ s.cfg.dbCap then { s with dblen := v } else s
  | 22 => if v.toNat ≤ s.cfg.ctCap then { s with ctlen := v } else s
  | 23 => if v.toNat ≤ s.cfg.ebCap then { s with eblen := v } else s
  | 24 => if v.toNat ≤ s.ft.length then { s with ft := s.ft.take v.toNat } else s
  | 25 => if v.toNat ≤ s.cfg.etMax then { s with etn := v } else s
  | _ => s

/-- R245 `HostWrite(n, v)`. -/
def hostWrite (s : State) (n : Nat) (v : W32) : State := unlessRunning s (registerWrite s v n)

/-! ## The memory port (R248) -/

/-- The byte spaces the host reaches through the block. -/
inductive ByteSpace where
  | cb
  | eb
  | ct
  | db
  deriving DecidableEq, Repr

/-- The number of bytes of a space: its capacity, not its valid length (R248). -/
def ByteSpace.cap (c : Config) : ByteSpace → Nat
  | .cb => c.cbLen
  | .eb => c.ebCap
  | .ct => c.ctCap
  | .db => c.dbCap

/-- The contents of a space. -/
def ByteSpace.mem (s : State) : ByteSpace → Memory
  | .cb => s.cb
  | .eb => s.eb
  | .ct => s.ct
  | .db => s.db

/-- The state with other contents of a space. -/
def ByteSpace.put (s : State) (m : Memory) : ByteSpace → State
  | .cb => { s with cb := m }
  | .eb => { s with eb := m }
  | .ct => { s with ct := m }
  | .db => { s with db := m }

/-- R248: the host reads a byte. -/
def hostReadByte (s : State) (sp : ByteSpace) (a : Nat) : Byte :=
  if s.state ≠ .run ∧ a < sp.cap s.cfg then readByte (sp.mem s) a else 0#8

/-- R248: the host writes a byte. -/
def hostWriteByte (s : State) (sp : ByteSpace) (a : Nat) (b : Byte) : State :=
  unlessRunning s (if a < sp.cap s.cfg then sp.put s (writeByte (sp.mem s) a b) else s)

/-- R248: the host reads a word of `DM`. -/
def hostReadDm (s : State) (i : Nat) : W32 :=
  if s.state ≠ .run ∧ i < s.cfg.dmWords then readWord s.dm i else 0#32

/-- R248, R79: the host writes a word of `DM`. -/
def hostWriteDm (s : State) (i : Nat) (w : W32) : State :=
  unlessRunning s (if i < s.cfg.dmWords then { s with dm := writeWord s.dm i w } else s)

/-- R33, R248: the host reads the record `FT[i]`, `i < ftn`, any field of which it may look at; `none` where it reads 0. -/
def hostReadFt (s : State) (i : Nat) : Option FtRecord := if s.state ≠ .run then s.ft[i]? else none

/-- R33: `FT[i].value <- v`, for an `Int` record. -/
def FtRecord.withValue (v : W64) : FtRecord → FtRecord
  | .int n signed off _ => .int n signed off v
  | .str off bytes => .str off bytes

/-- R33: `FT[i].bytes[j] <- b`, for a `Str` record and `j < len`. -/
def FtRecord.withByte (j : Nat) (b : Byte) : FtRecord → FtRecord
  | .int n signed off value => .int n signed off value
  | .str off bytes => .str off (bytes.set j b)

/-- R33, R248: the host writes `FT[i].value`. -/
def hostWriteFtValue (s : State) (i : Nat) (v : W64) : State :=
  unlessRunning s { s with ft := s.ft.modify i (FtRecord.withValue v) }

/-- R33, R248: the host writes byte `j` of the string record `FT[i]`. -/
def hostWriteFtByte (s : State) (i j : Nat) (b : Byte) : State :=
  unlessRunning s { s with ft := s.ft.modify i (FtRecord.withByte j b) }

/-- R34, R248: the host reads the record `ET[i]`, any field of which it may look at; all fields 0 where it reads 0. -/
def hostReadEt (s : State) (i : Nat) : DirEntry :=
  if s.state ≠ .run ∧ i < s.cfg.etMax then readEntry s.et i else blankEntry

/-- R34: the fields of an `ET` record, as the host writes them. -/
inductive EntryWrite where
  | name (bs : List Byte)
  | isFile (b : Bool)
  | isDir (b : Bool)
  | cluster (w : W32)
  | length (w : W32)
  deriving DecidableEq, Repr

/-- R34, R248: a name longer than `NAME_MAX` cannot be written. -/
def EntryWrite.fits (nameMax : Nat) : EntryWrite → Bool
  | .name bs => decide (bs.length ≤ nameMax)
  | .isFile _ => true
  | .isDir _ => true
  | .cluster _ => true
  | .length _ => true

/-- R34, R248: one field of a record written. -/
def EntryWrite.apply (e : DirEntry) : EntryWrite → DirEntry
  | .name bs => { e with name := bs }
  | .isFile b => { e with isFile := b }
  | .isDir b => { e with isDir := b }
  | .cluster w => { e with cluster := w }
  | .length w => { e with length := w }

/-- R34, R248: the host writes a field of `ET[i]`. -/
def hostWriteEt (s : State) (i : Nat) (w : EntryWrite) : State :=
  unlessRunning s
    (if i < s.cfg.etMax ∧ w.fits s.cfg.nameMax = true then
      { s with et := writeEntry s.et i (w.apply (readEntry s.et i)) }
    else s)

/-! ## The platform and the card (R81, R248) -/

/-- R81: between runs the platform may change a byte of the image. -/
def platformWriteImg (s : State) (a : Nat) (b : Byte) : State :=
  unlessRunning s (if a < s.cfg.imgLen then { s with img := writeByte s.img a b } else s)

/-- R81, R302: between runs the platform may attach another image, of which the bytes below `IMG_LEN` are taken. -/
def platformAttachImg (s : State) (img : Memory) : State :=
  unlessRunning s { s with img := img.filter (fun c => decide (c.1 < s.cfg.imgLen)) }

end Sys2Proof.Machine
end

