-- ==== Sys2Proof/Machine/Reset.lean ====
section
/-! DEFINITION. The reset input (10_state.md R37; 70_reset_and_hazards.md R300, R301; U1, U2). -/

namespace Sys2Proof.Machine

/-- The pages `n` parts of a cluster's slice of `len` bytes are written to, from page `p` on (R194). -/
def partPages (pageSize : Nat) : Nat → Nat → Nat → List Nat
  | 0, _, _ => []
  | n + 1, p, len => (if len = 0 then [] else [p]) ++ partPages pageSize n (p + 1) (len - pageSize)

/-- The pages a chain write of `len` bytes writes (R194). -/
def chainPages (c : Config) : List W32 → Nat → List Nat
  | [], _ => []
  | cl :: cls, len =>
    partPages c.pageSize c.ppc (c.clusterFirstPage cl.toNat) (min len c.clusterSize) ++
      chainPages c cls (len - c.clusterSize)

/-- The pages the `WRCHAIN` of record `etIdx` writes; none where it would fault (R194). -/
def wrchainPages (s : State) (etIdx : W32) : List Nat :=
  if etIdx.toNat < s.etn.toNat then
    match walk s.cfg s.img (readEntry s.et etIdx.toNat).cluster with
    | .error _ => []
    | .ok cls => if s.eblen.toNat ≤ cls.length * s.cfg.clusterSize then chainPages s.cfg cls s.eblen.toNat else []
  else []

/-- U2: the pages whose bytes a reset leaves open, those of the `WRCHAIN` in progress when `state = RUN`. -/
def interruptedPages (s : State) : List Nat :=
  if s.state = .run then
    match decode (fetchWords s) with
    | .ok (.wrchain etIdx, _) => wrchainPages s etIdx
    | _ => []
  else []

/-- Bytes `[a, a+n)` of `img` replaced by those of `m`. -/
def overlay (img m : Memory) (a n : Nat) : Memory := writeBytes img a (readBytes m a n)

/-- R300, R301: the state after a reset in state `s`. The registers take their reset values, the memories of the block hold
whatever `m` says (U1), and `IMG` keeps its bytes but for the data and spare bytes of the pages of a `WRCHAIN` in progress,
which hold whatever `m` says (U2). -/
def resetInput (s : State) (m : Contents) : State :=
  { State.resetWith s.cfg m with
    img := (interruptedPages s).foldl (fun i p => overlay i m.img (s.cfg.pageAddr p) s.cfg.rawPage) s.img }

end Sys2Proof.Machine
end

