-- ==== Sys2Proof/Safety.lean ====
section
/-! DEFINITION. What counts as a sound state, and the terms in which claims about the machine are put. -/

namespace Sys2Proof.Machine

/-- R33: what a record of `FT` may be. -/
def FtRecord.ok (c : Config) : FtRecord → Prop
  | .int n _ _ _ => n ≤ 64
  | .str _ bytes => bytes.length ≤ c.strMax

/-- The invariant of every state of the block between two descriptors. -/
structure BlockInv (s : State) : Prop where
  /-- R25 -/
  dblen_le : s.dblen.toNat ≤ s.cfg.dbCap
  /-- R25 -/
  ctlen_le : s.ctlen.toNat ≤ s.cfg.ctCap
  /-- R25 -/
  eblen_le : s.eblen.toNat ≤ s.cfg.ebCap
  /-- R26 -/
  etn_le : s.etn.toNat ≤ s.cfg.etMax
  /-- R32: `FT` has at most `FT_MAX` records. -/
  ft_le : s.ft.length ≤ s.cfg.ftMax
  /-- R33 -/
  ft_ok : ∀ f ∈ s.ft, f.ok s.cfg
  /-- R34: no name is longer than `NAME_MAX`. -/
  names_le : ∀ c ∈ s.et, c.2.name.length ≤ s.cfg.nameMax
  /-- R26, R183: the handle is closed between descriptors. -/
  img_closed : s.imgMode = .closed
  /-- R247, R244: `err` and `einfo` are 0 unless the run has ended at a fault. -/
  no_fault : s.state ≠ .fault → s.err = 0#8 ∧ s.einfo = 0#32
  /-- R260: after a fault `err` holds one of the codes 1 to 8. -/
  fault_code : s.state = .fault → 1 ≤ s.err.toNat ∧ s.err.toNat ≤ 8
  dm_wf : Store.wf blankWord s.dm
  cb_wf : Memory.wf s.cb
  eb_wf : Memory.wf s.eb
  ct_wf : Memory.wf s.ct
  db_wf : Memory.wf s.db
  et_wf : Store.wf blankEntry s.et
  img_wf : Memory.wf s.img
  dm_below : Store.below s.dm s.cfg.dmWords
  cb_below : Store.below s.cb s.cfg.cbLen
  eb_below : Store.below s.eb s.cfg.ebCap
  ct_below : Store.below s.ct s.cfg.ctCap
  db_below : Store.below s.db s.cfg.dbCap
  et_below : Store.below s.et s.cfg.etMax
  img_below : Store.below s.img s.cfg.imgLen

/-- Contents that memories of the sizes of `c` can hold, in canonical form. -/
structure Contents.ok (m : Contents) (c : Config) : Prop where
  names_le : ∀ e ∈ m.et, e.2.name.length ≤ c.nameMax
  dm_wf : Store.wf blankWord m.dm
  cb_wf : Memory.wf m.cb
  eb_wf : Memory.wf m.eb
  ct_wf : Memory.wf m.ct
  db_wf : Memory.wf m.db
  et_wf : Store.wf blankEntry m.et
  img_wf : Memory.wf m.img
  dm_below : Store.below m.dm c.dmWords
  cb_below : Store.below m.cb c.cbLen
  eb_below : Store.below m.eb c.ebCap
  ct_below : Store.below m.ct c.ctCap
  db_below : Store.below m.db c.dbCap
  et_below : Store.below m.et c.etMax
  img_below : Store.below m.img c.imgLen

/-- `s` with its program counter moved past an instruction of `n` words and nothing else changed (R29). -/
abbrev State.past (s : State) (n : Nat) : State := { s with dp := s.dp + BitVec.ofNat 32 n }

/-- What R262 says a step that raises answers: the three status registers are written, the image handle is closed, and nothing
else changes. -/
abbrev State.faulted (s : State) (code : Byte) (info : W32) : Result :=
  .next { s with err := code, einfo := info, state := .fault, imgMode := .closed }

/-- R111 on naturals: the value a field of `n` bits at bit position `p` reads as. -/
def fieldNat (m : Memory) (p n : Nat) (signed : Bool) : Nat :=
  let v := bits m p n
  if signed = true ∧ 0 < n ∧ v.testBit (n - 1) = true then v + (2 ^ (8 * ceil8 n) - 2 ^ n) else v

/-- The address in `IMG` of byte `i` of the file whose clusters are `cls` (R72, R180, R184). -/
def fileByteAddr (c : Config) (cls : List W32) (i : Nat) : Nat :=
  c.pageAddr (c.clusterFirstPage (cls.getD (i / c.clusterSize) 0#32).toNat + i % c.clusterSize / c.pageSize)
    + i % c.pageSize

/-- R194, R196: does a chain write of `len` bytes down `cls` write raw page `p`? -/
def writesPage (c : Config) (cls : List W32) (len p : Nat) : Prop :=
  ∃ j q, j < cls.length ∧ q < c.ppc ∧ j * c.clusterSize + q * c.pageSize < len ∧
    p = c.clusterFirstPage (cls.getD j 0#32).toNat + q

/-- No two clusters of the card have a page in common. The default `ClusterFirstPage` of R8 sees to it; R8 asks it of no other. -/
def ClustersShareNoPage (c : Config) : Prop :=
  ∀ k k' q q', k < c.nClusters → k' < c.nClusters → q < c.ppc → q' < c.ppc →
    c.clusterFirstPage k + q = c.clusterFirstPage k' + q' → k = k'

/-- The word list of `DM` from index `i` on begins with the words of `ws`. -/
def dmHolds (s : State) (i : Nat) (ws : List W32) : Prop := ∀ k, k < ws.length → readWord s.dm (i + k) = ws.getD k 0#32

/-- R95: the opcodes of format Z. -/
def zOps : List Nat := [0x00, 0x20, 0x21, 0x22, 0x23, 0x30, 0x32, 0x33, 0x34, 0x35, 0x45, 0x50, 0x51, 0x52]
/-- R95: the opcodes of format W1. -/
def w1Ops : List Nat := [0x10, 0x12, 0x14, 0x15, 0x17, 0x40, 0x41, 0x42, 0x43, 0x44]
/-- R95: the opcodes of format W2. -/
def w2Ops : List Nat := [0x13, 0x16, 0x31, 0x46]
/-- R95: the opcodes of format V. -/
def vOps : List Nat := [0x11]

/-- R93: the size of the descriptor with head word `h`, whose `op` is an opcode of R95. -/
def sizeByFormat (h : W32) : Nat :=
  let op := h.toNat % 256
  if op ∈ zOps then 1 else if op ∈ w1Ops then 2 else if op ∈ w2Ops then 3 else 2 + h.toNat / 65536

/-- Run instructions one after another through their meanings, each from the state the one before it left, as long as
the run goes on. -/
def execAll : List Instr → State → Result
  | [], s => .next s
  | i :: is, s =>
    match exec i s with
    | .next t => if t.state = .run then execAll is t else .next t
    | .fault r => .fault r
    | .refused r => .refused r

/-- R33: what fixes a record's place and width, which nothing may change once it is written. -/
def FtRecord.place : FtRecord → Nat × Bool × W32 × Option Nat
  | .int n signed off _ => (n, signed, off, none)
  | .str off bytes => (8 * bytes.length, false, off, some bytes.length)

/-- R33: the bit position a record starts at. -/
def FtRecord.off : FtRecord → W32
  | .int _ _ off _ => off
  | .str off _ => off

/-- R125: the bits of `DB` a record covers. -/
def FtRecord.width : FtRecord → Nat
  | .int n _ _ _ => n
  | .str _ bytes => 8 * bytes.length

end Sys2Proof.Machine
end

