-- ==== Sys2Proof/Certificates/Slice0/Obligations.lean ====
section
/-! DEFINITION. The statements for the provers. Every statement about a state holds for every configuration the spec admits
(the field `cfg`), so for every value of the OPEN constants (00_scope.md R6 to R9). -/

open Sys2Proof Sys2Proof.Machine

/-! ## Encoding -/

/-- R90, R92, R93, R95: decoding the words of a well-formed instruction gives it back and leaves what follows. (A law of the
model's encoder, written from the same tables.) -/
def Obligations.DecodeOfEncode : Prop :=
  ∀ (i : Instr) (rest : List W32), i.wellFormed = true → decode (encode i ++ rest) = .ok (i, rest)

/-- R97, R100: what decodes to an instruction is exactly the words of that instruction, which is well-formed: no bit of a
descriptor is ignored. -/
def Obligations.EncodeOfDecode : Prop :=
  ∀ (ws rest : List W32) (i : Instr), decode ws = .ok (i, rest) → i.wellFormed = true ∧ ws = encode i ++ rest

/-- R90 to R95, words of 95_test_vectors.md (V5, V9, V31, programs A to C). -/
def Obligations.SampleWordsDecode : Prop :=
  decode [0x00000000#32] = .ok (.endRun, []) ∧
  decode [0x00040011#32, 0#32, 14#32, 4#32, 5#32, 3#32] = .ok (.unpack 0#32 [14#32, 4#32, 5#32, 3#32], []) ∧
  decode [0x00000013#32, 0x28#32, 7#32] = .ok (.skip 0x28#32 7#32, []) ∧
  decode [0x00000010#32, 0xFFFFFFF8#32] = .ok (.rd 0xFFFFFFF8#32, []) ∧
  decode [0x00000022#32] = .ok (.enc, []) ∧
  decode [0x00000031#32, 4#32, 5#32] = .ok (.crcupd 4#32 5#32, []) ∧
  decode [0x00000046#32, 0#32, 6#32] = .ok (.lookup 0#32 6#32, []) ∧
  decode [0x00000051#32] = .ok (.join, [])

/-- R96, R97, R264: the four decode checks, in their order, each with its information word; the format of every opcode is
written out (R95). Where all four pass, the step applies the rule of a descriptor. -/
def Obligations.DecodeChecksInOrder : Prop :=
  ∀ s : State, s.state = .run →
    let h := readWord s.dm s.dp.toNat
    let op := h.toNat % 256
    let illegal (info : W32) : State := { s with err := 5#8, einfo := info, state := .fault, imgMode := .closed }
    if s.cfg.dmWords ≤ s.dp.toNat then step s = .next (illegal 1#32)
    else if op ∉ zOps ++ w1Ops ++ w2Ops ++ vOps then step s = .next (illegal 2#32)
    else if h.toNat / 256 % 256 ≠ 0 ∨ (op ∉ vOps ∧ h.toNat / 65536 ≠ 0) then step s = .next (illegal 3#32)
    else if s.cfg.dmWords < s.dp.toNat + sizeByFormat h then step s = .next (illegal 4#32)
    else ∃ i, i.size = sizeByFormat h ∧ i.opcode.toNat = op ∧ dmHolds s s.dp.toNat (encode i) ∧ step s = exec i s

/-! ## The step -/

/-- R241, R20: while `state = RUN` the instruction the words at `dp` decode to is the one the step runs, and `exec` itself
advances `dp`; while `state ≠ RUN` the step changes nothing (the model's way to say that the block waits, log 6). -/
def Obligations.StepRunsDecoded : Prop :=
  (∀ (s : State) (i : Instr) (rest : List W32), s.state = .run → decode (fetchWords s) = .ok (i, rest) →
    step s = exec i s) ∧
  (∀ s : State, s.state ≠ .run → step s = .next s)

/-- No step hangs or gets stuck; each answers a next state (R246, which the spec marks derived). -/
def Obligations.EveryStepAnswersNext : Prop := ∀ s : State, ∃ t, step s = .next t

/-- Every run ends, within `DM_WORDS - dp + 1` steps, in `DONE` or `FAULT` (R246, which the spec marks derived). -/
def Obligations.EveryRunEnds : Prop :=
  ∀ s : State, s.state = .run → ∃ k t, k ≤ s.cfg.dmWords - s.dp.toNat + 1 ∧
    Host.Core.run Sys2Proof.core k s = .next t ∧ (t.state = .done ∨ t.state = .fault)

/-- R29, R241, R250: there is no control transfer. As long as the run goes on, `dp` moves forward by the size of the
descriptor at `dp` and stays within `DM`. -/
def Obligations.PointerMovesForward : Prop :=
  ∀ s t : State, s.state = .run → step s = .next t → t.state = .run →
    t.dp.toNat = s.dp.toNat + sizeByFormat (readWord s.dm s.dp.toNat) ∧ t.dp.toNat ≤ s.cfg.dmWords

/-- R240, R243: a step of a run leaves `RUN`, `DONE` or `FAULT`; `DONE` only by an `END`, which changes nothing else. -/
def Obligations.RunLeavesByEndOrFault : Prop :=
  ∀ s t : State, s.state = .run → step s = .next t →
    t.state = .run ∨ t.state = .fault ∨
      (s.dp.toNat < s.cfg.dmWords ∧ readWord s.dm s.dp.toNat = 0#32 ∧ t = { s with state := .done })

/-- R262: faults are precise. A step that ends in `FAULT` has changed the status registers only: every other register,
buffer, table and image byte is as it was and `dp` is at the faulting head word. -/
def Obligations.FaultsArePrecise : Prop :=
  ∀ s t : State, s.state = .run → step s = .next t → t.state = .fault →
    t = { s with err := t.err, einfo := t.einfo, state := .fault, imgMode := .closed } ∧
      1 ≤ t.err.toNat ∧ t.err.toNat ≤ 8

/-! ## Invariants -/

/-- R25, R26, R32 to R34, R183, R244, R247: the invariant of the block is kept by every step. -/
def Obligations.StepKeepsInvariant : Prop := ∀ s t : State, BlockInv s → step s = .next t → BlockInv t

/-- R37: the invariant holds after reset, whatever the memories hold, and in the model's reset state (whose configuration
and memory contents are the model's choice, logs 2 and 3). -/
def Obligations.InvariantAtReset : Prop :=
  (∀ (c : Config) (m : Contents), m.ok c → BlockInv (State.resetWith c m)) ∧ BlockInv State.reset

/-- R25, R27, R248, R81: the host port and the platform keep the invariant. (That the host writes one field of a record of `ET` at
a time, that the platform writes a byte below `IMG_LEN`, and that of an attached image the bytes below `IMG_LEN` are taken, are
the model's choice: log 12.) -/
def Obligations.HostKeepsInvariant : Prop :=
  ∀ s : State, BlockInv s →
    (∀ n v, BlockInv (hostWrite s n v)) ∧ (∀ sp a b, BlockInv (hostWriteByte s sp a b)) ∧ (∀ i w, BlockInv (hostWriteDm s i w)) ∧
    (∀ i v, BlockInv (hostWriteFtValue s i v)) ∧ (∀ i j b, BlockInv (hostWriteFtByte s i j b)) ∧ (∀ i w, BlockInv (hostWriteEt s i w)) ∧
    (∀ a b, BlockInv (platformWriteImg s a b)) ∧ (∀ m, Memory.wf m → BlockInv (platformAttachImg s m))

/-! ## Who writes what -/

/-- R31, R32, R79: no descriptor writes descriptor memory or the constant buffer, which the host alone writes, or a constant table.
(That the rest of the configuration is unwritten too follows from R20, which makes it a parameter of the step; that it stands in
the state is the model's choice: log 1.) -/
def Obligations.ProgramIsNotWritten : Prop :=
  ∀ s t : State, step s = .next t → t.dm = s.dm ∧ t.cb = s.cb ∧ t.cfg = s.cfg

/-- R82, R195: `WRCHAIN` alone writes the image, and a `WRCHAIN` that faults does not. -/
def Obligations.OnlyWrchainWritesImage : Prop :=
  ∀ (i : Instr) (s t : State), exec i s = .next t → s.state = .run →
    (∀ idx, i ≠ .wrchain idx) ∨ t.state = .fault → t.img = s.img

/-- R32: which descriptors write which buffer or table. -/
def Obligations.BufferWriters : Prop :=
  ∀ (i : Instr) (s t : State), exec i s = .next t →
    ((∀ x, i ≠ .rdchain x) → i ≠ .join → t.eb = s.eb ∧ t.eblen = s.eblen) ∧
    (i ≠ .split → i ≠ .enc → t.ct = s.ct ∧ t.ctlen = s.ctlen) ∧
    (i ≠ .dec → (∀ x, i ≠ .patch x) → t.db = s.db) ∧
    (i ≠ .lsroot → (∀ a n, i ≠ .lookup a n) → t.et = s.et ∧ t.etn = s.etn) ∧
    ((∀ b ls, i ≠ .unpack b ls) → (∀ b, i ≠ .unpacks b) → t.ft = s.ft)

/-- Which descriptors write the cursor, and that no descriptor removes, reorders or changes a record of `FT` (R121 (a), (b), which
the spec marks derived). -/
def Obligations.CursorWritersAndGrowingTable : Prop :=
  ∀ (i : Instr) (s t : State), exec i s = .next t →
    (∃ rs, t.ft = s.ft ++ rs) ∧
    ((∀ l, i ≠ .rd l) → (∀ b ls, i ≠ .unpack b ls) → (∀ b, i ≠ .unpacks b) → (∀ a n, i ≠ .padchk a n) →
      (∀ a b, i ≠ .skip a b) → (∀ a, i ≠ .seek a) → i ≠ .dstart → t.bo = s.bo)

/-- The places and widths of the records a descriptor appends, and where it leaves the cursor, follow from the descriptor and the
cursor it found, whatever the buffers hold (R121 (d), which the spec marks derived). `DSTART`, which is no descriptor of a
schema, takes the cursor from the plaintext. -/
def Obligations.FieldPlacesIgnoreContents : Prop :=
  ∀ (i : Instr) (s s' t t' : State), i ≠ .dstart → s'.bo = s.bo →
    exec i s = .next t → t.state ≠ .fault → exec i s' = .next t' → t'.state ≠ .fault →
    (t'.ft.drop s'.ft.length).map FtRecord.place = (t.ft.drop s.ft.length).map FtRecord.place ∧ t'.bo = t.bo

/-! ## Bit-field unit -/

/-- The extraction loop of R110 reads the bits of a span, the first being the most significant (R12; R110 marks this derived). -/
def Obligations.ExtractIsBits : Prop := ∀ (m : Memory) (p n : Nat), extract m p n = bits m p n

/-- R112, with R111: `RD` delivers the field at the cursor and its byte length, and moves the cursor; its checks in order. -/
def Obligations.RdResult : Prop :=
  ∀ (len : W32) (s : State),
    let n := len.toInt.natAbs
    (64 < n → exec (.rd len) s = s.faulted 6 1) ∧
    (n ≤ 64 → 8 * s.dblen.toNat < s.bo.toNat + n → exec (.rd len) s = s.faulted 3 s.bo) ∧
    (n ≤ 64 → s.bo.toNat + n ≤ 8 * s.dblen.toNat →
      exec (.rd len) s = .next { s.past 2 with
        rv := BitVec.ofNat 64 (fieldNat s.db s.bo.toNat n (decide (len.toInt < 0)))
        rb := BitVec.ofNat 32 ((n + 7) / 8)
        bo := s.bo + BitVec.ofNat 32 n })

/-- R114: `UNPACK` appends one record per length, each at the cursor before its read, moves the cursor over all of them, and
adds the larger of the byte lengths' sum and `total_bytes` to `utot`; its checks in order. (That the check on the cursor is made for
`cnt = 0` too is the model's choice: log 16. R114's corner case says that it only adds `total_bytes`, R97 (c) that `UNPACK 0, []`
changes nothing but `dp`.) -/
def Obligations.UnpackResult : Prop :=
  ∀ (tb : W32) (lens : List W32) (s : State),
    let width := fun l : W32 => l.toInt.natAbs
    ((∃ l ∈ lens, 64 < width l) → exec (.unpack tb lens) s = s.faulted 6 1) ∧
    ((∀ l ∈ lens, width l ≤ 64) → s.cfg.ftMax < s.ft.length + lens.length → exec (.unpack tb lens) s = s.faulted 6 8) ∧
    ((∀ l ∈ lens, width l ≤ 64) → s.ft.length + lens.length ≤ s.cfg.ftMax →
      8 * s.dblen.toNat < s.bo.toNat + (lens.map width).sum → exec (.unpack tb lens) s = s.faulted 3 s.bo) ∧
    ((∀ l ∈ lens, width l ≤ 64) → s.ft.length + lens.length ≤ s.cfg.ftMax →
      s.bo.toNat + (lens.map width).sum ≤ 8 * s.dblen.toNat →
      ∃ rs, exec (.unpack tb lens) s = .next { s.past (2 + lens.length) with
          ft := s.ft ++ rs
          bo := s.bo + BitVec.ofNat 32 (lens.map width).sum
          utot := s.utot + BitVec.ofNat 32 (max (lens.map (fun l => (width l + 7) / 8)).sum tb.toNat) } ∧
        rs.length = lens.length ∧
        ∀ j l, lens[j]? = some l →
          let off := s.bo + BitVec.ofNat 32 ((lens.take j).map width).sum
          rs[j]? = some (.int (width l) (decide (l.toInt < 0)) off
            (BitVec.ofNat 64 (fieldNat s.db off.toNat (width l) (decide (l.toInt < 0))))))

/-- R116: `UNPACKS` appends one string record of 8-bit groups at the cursor; its checks in order. -/
def Obligations.UnpacksResult : Prop :=
  ∀ (tb : W32) (s : State),
    (s.cfg.strMax < tb.toNat ∨ s.cfg.ftMax < s.ft.length + 1 → exec (.unpacks tb) s = s.faulted 6 8) ∧
    (tb.toNat ≤ s.cfg.strMax → s.ft.length + 1 ≤ s.cfg.ftMax → 8 * s.dblen.toNat < s.bo.toNat + 8 * tb.toNat →
      exec (.unpacks tb) s = s.faulted 3 s.bo) ∧
    (tb.toNat ≤ s.cfg.strMax → s.ft.length + 1 ≤ s.cfg.ftMax → s.bo.toNat + 8 * tb.toNat ≤ 8 * s.dblen.toNat →
      ∃ bs, exec (.unpacks tb) s = .next { s.past 2 with
          ft := s.ft ++ [.str s.bo bs], bo := s.bo + BitVec.ofNat 32 (8 * tb.toNat), utot := s.utot + tb } ∧
        bs.length = tb.toNat ∧
        ∀ j, j < tb.toNat → bs.getD j 0#8 = BitVec.ofNat 8 (bits s.db (s.bo.toNat + 8 * j) 8))

/-- R117, R118, R119: `SKIP`, `ALIGN`, `SEEK`, which check nothing. -/
def Obligations.CursorMoves : Prop :=
  ∀ (a b : W32) (s : State),
    exec (.skip a b) s = .next { s.past 3 with bo := a, utot := s.utot + b } ∧
    exec (.align b) s = .next { s.past 2 with utot := s.utot + b } ∧
    exec (.seek a) s = .next { s.past 2 with bo := a }

/-- R120: `PADCHK` passes exactly when every 8-bit group at the cursor is the byte of the pattern; its checks in order. (That the
first two checks are made for `len = 0` too is the model's choice: log 15. R120's corner case says that it always passes.) -/
def Obligations.PadchkResult : Prop :=
  ∀ (a n : W32) (s : State),
    let same := ∀ j, j < n.toNat → bits s.db (s.bo.toNat + 8 * j) 8 = (readByte s.cb (a.toNat + j)).toNat
    (s.cfg.cbLen < a.toNat + n.toNat → exec (.padchk a n) s = s.faulted 6 2) ∧
    (a.toNat + n.toNat ≤ s.cfg.cbLen → 8 * s.dblen.toNat < s.bo.toNat + 8 * n.toNat →
      exec (.padchk a n) s = s.faulted 3 s.bo) ∧
    (a.toNat + n.toNat ≤ s.cfg.cbLen → s.bo.toNat + 8 * n.toNat ≤ 8 * s.dblen.toNat → ¬ same →
      exec (.padchk a n) s = s.faulted 1 3) ∧
    (a.toNat + n.toNat ≤ s.cfg.cbLen → s.bo.toNat + 8 * n.toNat ≤ 8 * s.dblen.toNat → same →
      exec (.padchk a n) s = .next { s.past 3 with bo := s.bo + BitVec.ofNat 32 (8 * n.toNat), utot := s.utot + n })

/-- R125: `PATCH` writes the low `n` bits of an `Int` record in range, or the bytes of a `Str` record as 8-bit groups, at the
record's own span. It changes no other bit of `DB`, no byte the span does not touch, and nothing else but `dp`; its checks in
order. -/
def Obligations.PatchResult : Prop :=
  ∀ (idx : W32) (s : State),
    let stores := fun (off : W32) (w : Nat) (bit : Nat → Bool) =>
      ∃ db, exec (.patch idx) s = .next { s.past 2 with db := db } ∧
        (∀ p, bitAt db p = if off.toNat ≤ p ∧ p < off.toNat + w then bit (p - off.toNat) else bitAt s.db p) ∧
        (∀ a, 8 * a + 8 ≤ off.toNat ∨ off.toNat + w ≤ 8 * a → readByte db a = readByte s.db a)
    (s.ft.length ≤ idx.toNat → exec (.patch idx) s = s.faulted 6 3) ∧
    (∀ n sg off v, s.ft[idx.toNat]? = some (.int n sg off v) →
      (inRange n sg v = false → exec (.patch idx) s = s.faulted 4 idx) ∧
      (inRange n sg v = true → 8 * s.dblen.toNat < off.toNat + n → exec (.patch idx) s = s.faulted 3 off) ∧
      (inRange n sg v = true → off.toNat + n ≤ 8 * s.dblen.toNat → stores off n (fun k => v.getLsbD (n - 1 - k)))) ∧
    (∀ off bs, s.ft[idx.toNat]? = some (.str off bs) →
      (8 * s.dblen.toNat < off.toNat + 8 * bs.length → exec (.patch idx) s = s.faulted 3 off) ∧
      (off.toNat + 8 * bs.length ≤ 8 * s.dblen.toNat →
        stores off (8 * bs.length) (fun k => (bs.getD (k / 8) 0#8).getLsbD (7 - k % 8))))

/-- What a read of a field gives is in range for that field (R129 (d), which the spec marks derived). -/
def Obligations.ReadIsInRange : Prop :=
  ∀ (m : Memory) (p n : Nat) (sg : Bool), n ≤ 64 → inRange n sg (readField m p n sg) = true

/-- R126: the values in range are those a read of the field can give: every value below `2^n` unsigned, the byte-rounded
two's complement forms of `-2^(n-1) .. 2^(n-1)-1` signed. -/
def Obligations.InRangeIsTwosComplement : Prop :=
  ∀ (n : Nat) (v : W64), n ≤ 64 →
    (inRange n false v = true ↔ v.toNat < 2 ^ n) ∧
    (inRange n true v = true ↔
      ∃ x : Int, (n = 0 ∧ x = 0 ∨ 1 ≤ n ∧ -(2 ^ (n - 1)) ≤ x ∧ x < 2 ^ (n - 1)) ∧
        (v.toNat : Int) = x % 2 ^ (8 * ((n + 7) / 8)))

/-- After a `PATCH` of an in-range `Int` record the field reads as the record's value, after a `PATCH` of a `Str` record the 8-bit
groups of its span are its bytes, and every field whose span does not overlap reads as before (R129 (c), which the spec marks
derived). -/
def Obligations.PatchThenRead : Prop :=
  ∀ (idx off : W32) (s t : State), exec (.patch idx) s = .next t →
    let othersKept := fun w : Nat =>
      ∀ p n' sg', p + n' ≤ off.toNat ∨ off.toNat + w ≤ p → readField t.db p n' sg' = readField s.db p n' sg'
    (∀ n sg v, s.ft[idx.toNat]? = some (.int n sg off v) → n ≤ 64 → inRange n sg v = true →
      off.toNat + n ≤ 8 * s.dblen.toNat → readField t.db off.toNat n sg = v ∧ othersKept n) ∧
    (∀ bs, s.ft[idx.toNat]? = some (.str off bs) → off.toNat + 8 * bs.length ≤ 8 * s.dblen.toNat →
      (∀ j, j < bs.length → bits t.db (off.toNat + 8 * j) 8 = (bs.getD j 0#8).toNat) ∧ othersKept (8 * bs.length))

/-- Patches of records whose spans do not overlap commute (R127, which marks this derived). -/
def Obligations.PatchesCommute : Prop :=
  ∀ (i j : W32) (f g : FtRecord) (s t : State), BlockInv s → s.state = .run →
    s.ft[i.toNat]? = some f → s.ft[j.toNat]? = some g →
    f.off.toNat + f.width ≤ g.off.toNat ∨ g.off.toNat + g.width ≤ f.off.toNat →
    execAll [.patch i, .patch j] s = .next t → t.state = .run → execAll [.patch j, .patch i] s = .next t

/-- A record that `UNPACK` or `UNPACKS` just appended and nobody edited patches `DB` to itself (R129 (b), which the spec marks
derived). -/
def Obligations.PatchUnedited : Prop :=
  ∀ (i : Instr) (idx : W32) (s t : State), ((∃ b ls, i = .unpack b ls) ∨ ∃ b, i = .unpacks b) → BlockInv s → s.state = .run →
    exec i s = .next t → t.state = .run → s.ft.length ≤ idx.toNat → idx.toNat < t.ft.length →
    exec (.patch idx) t = .next (t.past 2)

/-! ## Cipher unit -/

/-- R141 to R145: `ENCW` and `DECW` replace the pair by what nine iterations make of it, with no word swap; the F-function and the
iterations are written out, and `Encrypt` and `Decrypt`, which the stream descriptors use, are these functions. -/
def Obligations.EncwDecwResult : Prop :=
  ∀ s : State,
    let P := fun i => s.cfg.pTab.getD i 0#32
    let S := fun i => s.cfg.sTab.getD i 0#32
    let F := fun x : W32 =>
      let b0 := x.toNat % 256
      let b1 := x.toNat / 256 % 256
      let b2 := x.toNat / 65536 % 256
      let b3 := x.toNat / 16777216
      S (768 + b0) + (S (512 + b1) ^^^ (S (256 + b2) + S b3))
    let enc := fun x : W32 × W32 =>
      let l0 := x.1 ^^^ P 0
      let r0 := x.2 ^^^ P 1 ^^^ F l0
      let mid := fun (y : W32 × W32) (i : Nat) =>
        let l := y.1 ^^^ P i ^^^ F y.2
        (l, y.2 ^^^ P (i + 1) ^^^ F l)
      let y := [2, 4, 6, 8, 10, 12, 14].foldl mid (l0, r0)
      (y.1 ^^^ P 16 ^^^ F y.2, y.2 ^^^ P 17)
    let dec := fun x : W32 × W32 =>
      let l0 := x.1 ^^^ P 17
      let r0 := x.2 ^^^ P 16 ^^^ F l0
      let mid := fun (y : W32 × W32) (i : Nat) =>
        let l := y.1 ^^^ P i ^^^ F y.2
        (l, y.2 ^^^ P (i - 1) ^^^ F l)
      let y := [15, 13, 11, 9, 7, 5, 3].foldl mid (l0, r0)
      (y.1 ^^^ P 1 ^^^ F y.2, y.2 ^^^ P 0)
    exec .encw s = .next { s.past 1 with regL := (enc (s.regL, s.regR)).1, regR := (enc (s.regL, s.regR)).2 } ∧
    exec .decw s = .next { s.past 1 with regL := (dec (s.regL, s.regR)).1, regR := (dec (s.regL, s.regR)).2 } ∧
    ∀ x, encrypt s.cfg x = enc x ∧ decrypt s.cfg x = dec x

/-- Whatever `P` and `S` hold, `Decrypt` inverts `Encrypt` up to the exchange of the words, and the block functions invert each
other (R150 (a), (b), which the spec marks derived). -/
def Obligations.CipherInverts : Prop :=
  ∀ (c : Config) (x : W32 × W32), decrypt c (encrypt c x).swap = x.swap ∧
    decBlock c (encBlock c x) = x ∧ encBlock c (decBlock c x) = x

/-- R146, R147, R149: `ENC` puts the encrypted blocks of `DB[0 .. dblen)` into `CT`, leaves every byte of `CT` above, and sets
`ctlen`; `DEC` puts the decrypted blocks of `CT[0 .. ctlen)` into `DB`, leaves every byte of `DB` above, and sets `dblen`;
their checks in order. -/
def Obligations.StreamCipherResults : Prop :=
  ∀ s : State,
    (s.dblen.toNat % 8 ≠ 0 → exec .enc s = s.faulted 6 4) ∧
    (s.dblen.toNat % 8 = 0 → s.cfg.ctCap < s.dblen.toNat → exec .enc s = s.faulted 6 8) ∧
    (s.dblen.toNat % 8 = 0 → s.dblen.toNat ≤ s.cfg.ctCap →
      ∃ ct, exec .enc s = .next { s.past 1 with ct := ct, ctlen := s.dblen } ∧
        (∀ k, 8 * k < s.dblen.toNat →
          let y := encrypt s.cfg (le32 s.db (8 * k), le32 s.db (8 * k + 4))
          le32 ct (8 * k) = y.2 ∧ le32 ct (8 * k + 4) = y.1) ∧
        (∀ a, s.dblen.toNat ≤ a → readByte ct a = readByte s.ct a)) ∧
    (s.ctlen.toNat % 8 ≠ 0 → exec .dec s = s.faulted 6 4) ∧
    (s.ctlen.toNat % 8 = 0 → s.cfg.dbCap < s.ctlen.toNat → exec .dec s = s.faulted 6 8) ∧
    (s.ctlen.toNat % 8 = 0 → s.ctlen.toNat ≤ s.cfg.dbCap →
      ∃ db, exec .dec s = .next { s.past 1 with db := db, dblen := s.ctlen } ∧
        (∀ k, 8 * k < s.ctlen.toNat →
          let y := decrypt s.cfg (le32 s.ct (8 * k), le32 s.ct (8 * k + 4))
          le32 db (8 * k) = y.2 ∧ le32 db (8 * k + 4) = y.1) ∧
        (∀ a, s.ctlen.toNat ≤ a → readByte db a = readByte s.db a))

/-- `DEC` after `ENC` restores the plaintext, `ENC` after `DEC` restores the ciphertext: every byte of the buffer, and its length
(R150 (b), which the spec marks derived). -/
def Obligations.StreamRoundTrip : Prop :=
  (∀ s : State, s.state = .run → s.dblen.toNat % 8 = 0 → s.dblen.toNat ≤ s.cfg.ctCap → s.dblen.toNat ≤ s.cfg.dbCap →
    ∃ t, execAll [.enc, .dec] s = .next t ∧ t.state = .run ∧ t.dblen = s.dblen ∧
      ∀ a, readByte t.db a = readByte s.db a) ∧
  (∀ s : State, s.state = .run → s.ctlen.toNat % 8 = 0 → s.ctlen.toNat ≤ s.cfg.ctCap → s.ctlen.toNat ≤ s.cfg.dbCap →
    ∃ t, execAll [.dec, .enc] s = .next t ∧ t.state = .run ∧ t.ctlen = s.ctlen ∧
      ∀ a, readByte t.ct a = readByte s.ct a)

/-! ## Checksum unit -/

/-- R161 to R166: the primitive descriptors, with the byte update and the mask transform written out. -/
def Obligations.ChecksumPrimitives : Prop :=
  ∀ s : State,
    exec .crcinit s = .next { s.past 1 with crc := 0xFFFF#16 } ∧
    (∀ off n : W32, off.toNat + n.toNat ≤ s.ctlen.toNat →
      exec (.crcupd off n) s = .next { s.past 3 with
        crc := (readBytes s.ct off.toNat n.toNat).foldl
          (fun c b => (c >>> 8) ^^^ crcTable s.cfg ((c.extractLsb' 0 8 ^^^ b).toNat)) s.crc }) ∧
    (∀ off n : W32, s.ctlen.toNat < off.toNat + n.toNat → exec (.crcupd off n) s = s.faulted 6 5) ∧
    exec .crcfin s = .next { s.past 1 with crc := s.crc ^^^ 0xFFFF#16 } ∧
    (let z : W32 := s.crc.zeroExtend 32
     let l := (z &&& s.cfg.m1) ||| (s.cfg.m2 &&& ~~~s.cfg.m1)
     let r := (z &&& ~~~s.cfg.m1) ||| (s.cfg.m2 &&& s.cfg.m1)
     exec .ckxf s = .next { s.past 1 with
       left := l, right := r, ck64 := (r.zeroExtend 64 <<< 32) ||| l.zeroExtend 64 })

/-- R167, R168, R169: `CKGEN` makes the checksum of the whole ciphertext the stored value; `CKVFY` compares all 64 bits and
delivers the computed values only when they agree. -/
def Obligations.ChecksumComposites : Prop :=
  ∀ s : State,
    let c : W16 := (readBytes s.ct 0 s.ctlen.toNat).foldl (crcUpd s.cfg) 0xFFFF#16 ^^^ 0xFFFF#16
    exec .ckgen s = .next { s.past 1 with
      crc := c, left := xfLeft s.cfg c, right := xfRight s.cfg c, ck64 := xfCk s.cfg c, cstored := xfCk s.cfg c } ∧
    (xfCk s.cfg c = s.cstored → exec .ckvfy s = .next { s.past 1 with
      crc := c, left := xfLeft s.cfg c, right := xfRight s.cfg c, ck64 := xfCk s.cfg c }) ∧
    (xfCk s.cfg c ≠ s.cstored → exec .ckvfy s = s.faulted 1 2)

/-- The checksum is recovered from the two outputs, so the transform is injective (R166, which marks this derived). -/
def Obligations.TransformIsInjective : Prop :=
  ∀ (c : Config) (x y : W16),
    (xfLeft c x &&& c.m1) ||| (xfRight c x &&& ~~~c.m1) = x.zeroExtend 32 ∧
    (xfCk c x).extractLsb' 0 32 = xfLeft c x ∧ (xfCk c x).extractLsb' 32 32 = xfRight c x ∧
    (xfCk c x = xfCk c y → x = y)

/-- The laws of the checksum unit. The primitives in sequence leave `crc`, `left`, `right`, `ck64` as `CKGEN` does and `cstored`
alone; a `CKVFY` straight after `CKGEN` passes and changes nothing but `dp`; `CKVFY` passes exactly when `cstored` is the
transformed checksum of the ciphertext (R170 (a) to (c), which the spec marks derived). Where the table is single-bit sensitive, a
`CKVFY` that passes faults once any one bit of the ciphertext is flipped (R171, under the hypothesis it names). -/
def Obligations.ChecksumLaws : Prop :=
  ∀ s : State, s.state = .run →
    let passes := ∃ t, exec .ckvfy s = .next t ∧ t.state = .run
    (∃ t u, execAll [.crcinit, .crcupd 0#32 s.ctlen, .crcfin, .ckxf] s = .next t ∧ exec .ckgen s = .next u ∧
      t.crc = u.crc ∧ t.left = u.left ∧ t.right = u.right ∧ t.ck64 = u.ck64 ∧ t.cstored = s.cstored) ∧
    (∃ u, exec .ckgen s = .next u ∧ exec .ckvfy u = .next (u.past 1)) ∧
    (passes ↔ s.cstored = xfCk s.cfg (crc16 s.cfg (readBytes s.ct 0 s.ctlen.toNat))) ∧
    (SingleBitSensitive s.cfg → passes →
      ∀ ct, DifferInOneBit (readBytes s.ct 0 s.ctlen.toNat) (readBytes ct 0 s.ctlen.toNat) →
        exec .ckvfy { s with ct := ct } = State.faulted { s with ct := ct } 1 2)

/-! ## Filesystem unit -/

/-- `Walk` accepts only chains of distinct clusters of the card, at most `N_CLUSTERS` of them, each the FAT's successor of the one
before, ending at the sentinel (R182, R198, which mark these properties derived). -/
def Obligations.WalkIsSound : Prop :=
  ∀ (c : Config) (img : Memory) (c0 : W32) (cls : List W32), walk c img c0 = .ok cls →
    cls.length ≤ c.nClusters ∧ cls.Nodup ∧ (∀ x ∈ cls, x.toNat < c.nClusters ∧ x ≠ c.chainEnd) ∧
    (∀ j, j ≤ cls.length → (c0 :: cls.map (fun x => fatValue c img x.toNat)).getD j 0#32 =
      (cls ++ [c.chainEnd]).getD j 0#32)

/-- R182, R184: the walk follows the FAT from `c0`. It answers the clusters met before the sentinel, where they are clusters of the
card and at most `N_CLUSTERS`; where the chain leaves the card it raises `ChainError(1)`; where it goes on for more than
`N_CLUSTERS` hops it raises `ChainError(2)`. Reading a file raises the walk's fault, or `ChainError(3)` where the chain is too
short, and answers the first `e.length` data bytes of the chain's clusters. -/
def Obligations.WalkResult : Prop :=
  ∀ (c : Config) (img : Memory),
    (∀ c0 : W32,
      let next := fun x : W32 => fatValue c img x.toNat
      let onCard := fun x : W32 => x ≠ c.chainEnd ∧ x.toNat < c.nClusters
      (∀ j, j ≤ c.nClusters → (∀ k, k < j → onCard (next^[k] c0)) → next^[j] c0 = c.chainEnd →
        walk c img c0 = .ok ((List.range j).map (fun k => next^[k] c0))) ∧
      (∀ j, j ≤ c.nClusters → (∀ k, k < j → onCard (next^[k] c0)) → next^[j] c0 ≠ c.chainEnd →
        c.nClusters ≤ (next^[j] c0).toNat → walk c img c0 = .error (.chainError 1)) ∧
      ((∀ k, k ≤ c.nClusters → onCard (next^[k] c0)) → walk c img c0 = .error (.chainError 2))) ∧
    (∀ e : DirEntry,
      (∀ k, walk c img e.cluster = .error k → readChain c img e = .error k) ∧
      ∀ cls, walk c img e.cluster = .ok cls →
        (cls.length * c.clusterSize < e.length.toNat → readChain c img e = .error (.chainError 3)) ∧
        (e.length.toNat ≤ cls.length * c.clusterSize →
          ∃ bs, readChain c img e = .ok bs ∧ bs.length = e.length.toNat ∧
            ∀ i, i < e.length.toNat → bs.getD i 0#8 = readByte img (fileByteAddr c cls i)))

/-- R186, R199, R200: `FATGET`, `ECCGEN` and `ECCCHK`, with their checks. -/
def Obligations.FatAndCodeResults : Prop :=
  ∀ s : State,
    let good := fun (p : W32) (k : Nat) =>
      eccBytes s.cfg (readBytes s.img (s.cfg.pageAddr p.toNat + 128 * k) 128) =
        readBytes s.img (s.cfg.pageAddr p.toNat + s.cfg.pageSize + 3 * k) 3
    (∀ cl : W32, cl.toNat < s.cfg.nClusters → exec (.fatget cl) s = .next { s.past 2 with
      rv := (fatValue s.cfg s.img cl.toNat).zeroExtend 64, imgMode := .closed }) ∧
    (∀ cl : W32, s.cfg.nClusters ≤ cl.toNat → exec (.fatget cl) s = s.faulted 6 6) ∧
    (∀ off : W32, off.toNat + 128 ≤ s.eblen.toNat →
      let e := ecc128 s.cfg (readBytes s.eb off.toNat 128)
      exec (.eccgen off) s = .next { s.past 2 with
        rv := e.1.zeroExtend 64 ||| (e.2.1.zeroExtend 64 <<< 8) ||| (e.2.2.zeroExtend 64 <<< 16), rb := 3#32 }) ∧
    (∀ off : W32, s.eblen.toNat < off.toNat + 128 → exec (.eccgen off) s = s.faulted 6 5) ∧
    (∀ p : W32, s.cfg.hasSpare = false ∨ s.cfg.nPages ≤ p.toNat → exec (.eccchk p) s = s.faulted 6 6) ∧
    (∀ p : W32, s.cfg.hasSpare = true → p.toNat < s.cfg.nPages →
      ((∀ k, k < s.cfg.nch → good p k) → exec (.eccchk p) s = .next { s.past 2 with imgMode := .closed }) ∧
      (∀ k, k < s.cfg.nch → (∀ j, j < k → good p j) → ¬ good p k →
        exec (.eccchk p) s = s.faulted 8 (BitVec.ofNat 32 k)))

/-- R190, with R184: `RDCHAIN` copies the first `e.length` bytes of the chain's clusters, spare bytes skipped, to `EB`; every
byte of `EB` above, and everything else, keeps its value; its checks in order. -/
def Obligations.RdchainResult : Prop :=
  ∀ (idx : W32) (s : State),
    let e := readEntry s.et idx.toNat
    (s.etn.toNat ≤ idx.toNat → exec (.rdchain idx) s = s.faulted 6 3) ∧
    (idx.toNat < s.etn.toNat → s.cfg.ebCap < e.length.toNat → exec (.rdchain idx) s = s.faulted 6 7) ∧
    (idx.toNat < s.etn.toNat → e.length.toNat ≤ s.cfg.ebCap →
      (∀ k, walk s.cfg s.img e.cluster = .error k → exec (.rdchain idx) s = s.faulted k.code k.info) ∧
      ∀ cls, walk s.cfg s.img e.cluster = .ok cls →
        (cls.length * s.cfg.clusterSize < e.length.toNat → exec (.rdchain idx) s = s.faulted 7 3) ∧
        (e.length.toNat ≤ cls.length * s.cfg.clusterSize →
          ∃ eb, exec (.rdchain idx) s = .next { s.past 2 with eb := eb, eblen := e.length, imgMode := .closed } ∧
            (∀ i, i < e.length.toNat → readByte eb i = readByte s.img (fileByteAddr s.cfg cls i)) ∧
            (∀ a, e.length.toNat ≤ a → readByte eb a = readByte s.eb a)))

/-- R194, R195, R197: `WRCHAIN` writes into the pages of the chain that receive a byte and into no other byte of the image;
everything else keeps its value; its checks, all before the first byte is written, in order. -/
def Obligations.WrchainStoresInItsPages : Prop :=
  ∀ (idx : W32) (s : State),
    let e := readEntry s.et idx.toNat
    (s.etn.toNat ≤ idx.toNat → exec (.wrchain idx) s = s.faulted 6 3) ∧
    (idx.toNat < s.etn.toNat →
      (∀ k, walk s.cfg s.img e.cluster = .error k → exec (.wrchain idx) s = s.faulted k.code k.info) ∧
      ∀ cls, walk s.cfg s.img e.cluster = .ok cls →
        (cls.length * s.cfg.clusterSize < s.eblen.toNat → exec (.wrchain idx) s = s.faulted 7 3) ∧
        (s.eblen.toNat ≤ cls.length * s.cfg.clusterSize →
          ∃ img, exec (.wrchain idx) s = .next { s.past 2 with img := img, imgMode := .closed } ∧
            ∀ a, (∀ p, writesPage s.cfg cls s.eblen.toNat p →
                ¬ (s.cfg.pageAddr p ≤ a ∧ a < s.cfg.pageAddr p + s.cfg.rawPage)) →
              readByte img a = readByte s.img a))

/-- R194, R196: where the bytes of `EB` stand after `WRCHAIN`. On every card, the place of a data byte of the chain holds the last byte
of `EB` that goes there, and its old value where none does. On a card whose clusters share no page, every byte of `EB` so stands at
its own place in the chain's clusters, and the data bytes of the chain past them keep their old values. (That no page is shared is not
among the conditions of R8, so the premise of that form is the model's.) -/
def Obligations.WrchainWritesTheFile : Prop :=
  ∀ (idx : W32) (s t : State) (cls : List W32), idx.toNat < s.etn.toNat →
    walk s.cfg s.img (readEntry s.et idx.toNat).cluster = .ok cls → s.eblen.toNat ≤ cls.length * s.cfg.clusterSize →
    exec (.wrchain idx) s = .next t →
    let place := fileByteAddr s.cfg cls
    (∀ i, i < s.eblen.toNat → (∀ k, i < k → k < s.eblen.toNat → place k ≠ place i) →
      readByte t.img (place i) = readByte s.eb i) ∧
    (∀ i, i < cls.length * s.cfg.clusterSize → (∀ k, k < s.eblen.toNat → place k ≠ place i) →
      readByte t.img (place i) = readByte s.img (place i)) ∧
    (ClustersShareNoPage s.cfg → ∀ i, i < cls.length * s.cfg.clusterSize →
      readByte t.img (place i) = if i < s.eblen.toNat then readByte s.eb i else readByte s.img (place i))

/-- Every page that `WRCHAIN` wrote passes `ECCCHK` immediately afterwards (R201 (a), which the spec marks derived), and the spare
bytes after its codes are 0 (R181, R194). -/
def Obligations.WrittenPagesPassEccchk : Prop :=
  ∀ (idx p : W32) (s t : State) (cls : List W32), s.cfg.hasSpare = true → idx.toNat < s.etn.toNat →
    walk s.cfg s.img (readEntry s.et idx.toNat).cluster = .ok cls → s.eblen.toNat ≤ cls.length * s.cfg.clusterSize →
    exec (.wrchain idx) s = .next t → writesPage s.cfg cls s.eblen.toNat p.toNat →
    exec (.eccchk p) t = .next (t.past 2) ∧
      ∀ k, 3 * s.cfg.nch ≤ k → k < s.cfg.spareSize →
        readByte t.img (s.cfg.pageAddr p.toNat + s.cfg.pageSize + k) = 0#8

/-- On a card whose clusters share no page and whose FAT the write left alone, `RDCHAIN` straight after a `WRCHAIN` with
`eblen = ET[i].length` delivers the bytes written (R198, which the spec marks derived, with the two premises it leaves unsaid). -/
def Obligations.WriteThenReadFile : Prop :=
  ∀ (idx : W32) (s t : State), ClustersShareNoPage s.cfg → s.state = .run → BlockInv s →
    (readEntry s.et idx.toNat).length = s.eblen → exec (.wrchain idx) s = .next t → t.state = .run →
    (∀ cl, cl < s.cfg.nClusters → fatValue s.cfg t.img cl = fatValue s.cfg s.img cl) →
    ∃ u, exec (.rdchain idx) t = .next u ∧ u.state = .run ∧ u.eblen = s.eblen ∧ ∀ a, readByte u.eb a = readByte s.eb a

/-- R204, with R202: `LSROOT` fills the first records of `ET` with the live entries of the root directory (the entries of the pairs
`DirParse` yields whose mark is set, in that order) and changes no other record; its checks in order. -/
def Obligations.LsrootResult : Prop :=
  ∀ s : State,
    let root := readChain s.cfg s.img (rootEntry s.cfg s.img)
    (∀ k, root = .error k → exec .lsroot s = s.faulted k.code k.info) ∧
    (∀ bs, root = .ok bs →
      let es := ((dirParse s.cfg bs).filter (fun d => d.2)).map (fun d => d.1)
      (s.cfg.etMax < es.length → exec .lsroot s = s.faulted 6 8) ∧
      (es.length ≤ s.cfg.etMax →
        ∃ et, exec .lsroot s = .next { s.past 1 with et := et, etn := BitVec.ofNat 32 es.length, imgMode := .closed } ∧
          (∀ j, j < es.length → readEntry et j = es.getD j blankEntry) ∧
          ∀ j, es.length ≤ j → readEntry et j = readEntry s.et j))

/-- R205, with R202, R203: `LOOKUP` finds the first live root entry of the given name and fills the first records of `ET` with
the live entries of its directory (the entries of the pairs `DirParse` yields whose mark is set, in that order) and changes no
other record; its checks in order. -/
def Obligations.LookupResult : Prop :=
  ∀ (a n : W32) (s : State),
    let root := readChain s.cfg s.img (rootEntry s.cfg s.img)
    let name := readBytes s.cb a.toNat n.toNat
    let live := fun bs : List Byte => ((dirParse s.cfg bs).filter (fun d => d.2)).map (fun d => d.1)
    (s.cfg.cbLen < a.toNat + n.toNat → exec (.lookup a n) s = s.faulted 6 2) ∧
    (a.toNat + n.toNat ≤ s.cfg.cbLen →
      (∀ k, root = .error k → exec (.lookup a n) s = s.faulted k.code k.info) ∧
      (∀ bs, root = .ok bs → (∀ d ∈ live bs, d.name ≠ name) → exec (.lookup a n) s = s.faulted 2 0) ∧
      (∀ (bs : List Byte) (before after : List DirEntry) (h : DirEntry), root = .ok bs →
        live bs = before ++ h :: after → (∀ d ∈ before, d.name ≠ name) → h.name = name →
        (∀ k, readChain s.cfg s.img h = .error k → exec (.lookup a n) s = s.faulted k.code k.info) ∧
        (∀ sub, readChain s.cfg s.img h = .ok sub →
          let es := live sub
          (s.cfg.etMax < es.length → exec (.lookup a n) s = s.faulted 6 8) ∧
          (es.length ≤ s.cfg.etMax →
            ∃ et, exec (.lookup a n) s = .next { s.past 3 with
                et := et, etn := BitVec.ofNat 32 es.length, imgMode := .closed } ∧
              (∀ j, j < es.length → readEntry et j = es.getD j blankEntry) ∧
              ∀ j, es.length ≤ j → readEntry et j = readEntry s.et j))))

/-! ## Container unit -/

/-- R222, with R70, R61: `SPLIT` takes a container of the right length and header apart; its checks in order. -/
def Obligations.SplitResult : Prop :=
  ∀ s : State,
    (s.eblen.toNat ≠ 12 + 2 * s.cfg.halfLen → exec .split s = s.faulted 1 4) ∧
    (s.eblen.toNat = 12 + 2 * s.cfg.halfLen → (le32 s.eb 0).toNat ≠ 2 * s.cfg.halfLen →
      exec .split s = s.faulted 1 1) ∧
    (s.eblen.toNat = 12 + 2 * s.cfg.halfLen → (le32 s.eb 0).toNat = 2 * s.cfg.halfLen →
      ∃ ct, exec .split s = .next { s.past 1 with
          hdr := le32 s.eb 0, ct := ct, cstored := le64 s.eb (4 + s.cfg.halfLen)
          ctlen := BitVec.ofNat 32 (2 * s.cfg.halfLen) } ∧
        (∀ k, k < s.cfg.halfLen → readByte ct k = readByte s.eb (4 + k)) ∧
        (∀ k, k < s.cfg.halfLen → readByte ct (s.cfg.halfLen + k) = readByte s.eb (12 + s.cfg.halfLen + k)) ∧
        (∀ a, 2 * s.cfg.halfLen ≤ a → readByte ct a = readByte s.ct a))

/-- R224, with R70, R61: `JOIN` lays out the constant header, the halves of the ciphertext and `cstored`, and leaves every byte
of `EB` above; its check. -/
def Obligations.JoinResult : Prop :=
  ∀ s : State,
    (s.ctlen.toNat ≠ 2 * s.cfg.halfLen → exec .join s = s.faulted 6 4) ∧
    (s.ctlen.toNat = 2 * s.cfg.halfLen →
      ∃ eb, exec .join s = .next { s.past 1 with eb := eb, eblen := BitVec.ofNat 32 (12 + 2 * s.cfg.halfLen) } ∧
        le32 eb 0 = BitVec.ofNat 32 (2 * s.cfg.halfLen) ∧ le64 eb (4 + s.cfg.halfLen) = s.cstored ∧
        (∀ k, k < s.cfg.halfLen → readByte eb (4 + k) = readByte s.ct k) ∧
        (∀ k, k < s.cfg.halfLen → readByte eb (12 + s.cfg.halfLen + k) = readByte s.ct (s.cfg.halfLen + k)) ∧
        (∀ a, 12 + 2 * s.cfg.halfLen ≤ a → readByte eb a = readByte s.eb a))

/-- R226: `DSTART` computes `data_start` modulo 2^32 and moves the cursor there; its checks in order. -/
def Obligations.DstartResult : Prop :=
  ∀ s : State,
    let d : W32 := le32 s.db 0 + 16#32
    (s.dblen.toNat < 4 → exec .dstart s = s.faulted 3 0) ∧
    (4 ≤ s.dblen.toNat → s.dblen.toNat < d.toNat → exec .dstart s = s.faulted 3 d) ∧
    (4 ≤ s.dblen.toNat → d.toNat ≤ s.dblen.toNat →
      exec .dstart s = .next { s.past 1 with dstart := d, bo := BitVec.ofNat 32 (8 * d.toNat) })

/-- `JOIN` after a successful `SPLIT` writes back exactly the container (R225, which the spec marks derived). -/
def Obligations.JoinAfterSplit : Prop :=
  ∀ s : State, s.state = .run → s.eblen.toNat = 12 + 2 * s.cfg.halfLen → (le32 s.eb 0).toNat = 2 * s.cfg.halfLen →
    ∃ t, execAll [.split, .join] s = .next t ∧ t.state = .run ∧ t.eblen = s.eblen ∧
      ∀ a, readByte t.eb a = readByte s.eb a

/-- For a container that passes `SPLIT` and `CKVFY`, the program `SPLIT; CKVFY; DEC; ENC; CKGEN; JOIN` leaves `EB` as it was, for
every configuration (R230, which the spec marks derived). -/
def Obligations.PipelineIdentity : Prop :=
  ∀ s t : State, s.state = .run → execAll [.split, .ckvfy] s = .next t → t.state = .run →
    ∃ u, execAll [.split, .ckvfy, .dec, .enc, .ckgen, .join] s = .next u ∧ u.state = .run ∧ u.eblen = s.eblen ∧
      ∀ a, readByte u.eb a = readByte s.eb a

/-! ## The sequencer's own descriptor, the host port, reset -/

/-- R243, R244: `END` stops the run and changes nothing else. A write to register 0, outside `RUN`, takes the entry point, clears
the status, starts the run and changes nothing else; in `RUN` it is discarded; register 0 reads as 0. -/
def Obligations.EndAndStart : Prop :=
  ∀ s : State, exec .endRun s = .next { s with state := .done } ∧
    ∀ v : W32,
      (s.state ≠ .run → hostWrite s 0 v = { s with dp := v, err := 0#8, einfo := 0#32, state := .run }) ∧
      (s.state = .run → hostWrite s 0 v = s) ∧ hostRead s 0 = 0#32

/-- R245, R248: while `state = RUN` every write of the host is discarded and every read gives 0, but for the register `state`. (That
the platform's writes and attachments of the image, which R81 rules out then, are discarded is the model's reading: log 9. That a
read of `FT` or `ET` that gives 0 answers no record or the blank record is the model's choice: log 12.) -/
def Obligations.HostIsShutOutOfARun : Prop :=
  ∀ s : State, s.state = .run →
    (∀ n v, hostWrite s n v = s) ∧ (∀ sp a b, hostWriteByte s sp a b = s) ∧ (∀ i w, hostWriteDm s i w = s) ∧
    (∀ i v, hostWriteFtValue s i v = s) ∧ (∀ i j b, hostWriteFtByte s i j b = s) ∧ (∀ i w, hostWriteEt s i w = s) ∧
    (∀ a b, platformWriteImg s a b = s) ∧ (∀ m, platformAttachImg s m = s) ∧
    hostRead s 1 = 1#32 ∧ (∀ n, n ≠ 1 → hostRead s n = 0#32) ∧ (∀ sp a, hostReadByte s sp a = 0#8) ∧
    (∀ i, hostReadDm s i = 0#32) ∧ (∀ i, hostReadFt s i = none) ∧ (∀ i, hostReadEt s i = blankEntry)

/-- R21, R26, R27, R245: outside `RUN`, what the host reads under each register number, the two halves of a 64-bit register under
their two numbers and 0 under a number of no register or of the write-only `CTRL`; what a write to each RW register stores within its
bound, after which it is read back and no other register reads differently; and that a write above the bound, to an RO register or to
an unknown number changes nothing. (That `ftn` is the length of `FT` and reads modulo 2^32 is the model's: log 5.) -/
def Obligations.HostRegisterPort : Prop :=
  ∀ s : State, s.state ≠ .run →
    let reads := fun (n value : Nat) => (hostRead s n).toNat = value
    let stores := fun (n bound : Nat) (after : W32 → State) => ∀ v : W32,
      (v.toNat ≤ bound → hostWrite s n v = after v ∧ hostRead (after v) n = v ∧
        ∀ m, m ≠ n → hostRead (after v) m = hostRead s m) ∧
      (bound < v.toNat → hostWrite s n v = s)
    reads 1 (match s.state with | .idle => 0 | .run => 1 | .done => 2 | .fault => 3) ∧
    reads 2 s.err.toNat ∧ reads 3 s.einfo.toNat ∧ reads 4 s.dp.toNat ∧ reads 5 s.bo.toNat ∧ reads 6 s.utot.toNat ∧
    reads 7 (s.rv.toNat % 2 ^ 32) ∧ reads 8 (s.rv.toNat / 2 ^ 32) ∧ reads 9 s.rb.toNat ∧
    reads 10 s.regL.toNat ∧ reads 11 s.regR.toNat ∧ reads 12 s.crc.toNat ∧ reads 13 s.left.toNat ∧ reads 14 s.right.toNat ∧
    reads 15 (s.ck64.toNat % 2 ^ 32) ∧ reads 16 (s.ck64.toNat / 2 ^ 32) ∧
    reads 17 (s.cstored.toNat % 2 ^ 32) ∧ reads 18 (s.cstored.toNat / 2 ^ 32) ∧
    reads 19 s.hdr.toNat ∧ reads 20 s.dstart.toNat ∧ reads 21 s.dblen.toNat ∧ reads 22 s.ctlen.toNat ∧
    reads 23 s.eblen.toNat ∧ reads 24 (s.ft.length % 2 ^ 32) ∧ reads 25 s.etn.toNat ∧
    reads 26 (match s.imgMode with | .closed => 0 | .read => 1 | .rw => 2) ∧
    (∀ n, n = 0 ∨ 26 < n → reads n 0) ∧
    stores 5 (2 ^ 32 - 1) (fun v => { s with bo := v }) ∧ stores 6 (2 ^ 32 - 1) (fun v => { s with utot := v }) ∧
    stores 10 (2 ^ 32 - 1) (fun v => { s with regL := v }) ∧ stores 11 (2 ^ 32 - 1) (fun v => { s with regR := v }) ∧
    stores 12 0xFFFF (fun v => { s with crc := v.truncate 16 }) ∧
    stores 17 (2 ^ 32 - 1) (fun v => { s with cstored := s.cstored.extractLsb' 32 32 ++ v }) ∧
    stores 18 (2 ^ 32 - 1) (fun v => { s with cstored := v ++ s.cstored.extractLsb' 0 32 }) ∧
    stores 21 s.cfg.dbCap (fun v => { s with dblen := v }) ∧ stores 22 s.cfg.ctCap (fun v => { s with ctlen := v }) ∧
    stores 23 s.cfg.ebCap (fun v => { s with eblen := v }) ∧
    stores 24 s.ft.length (fun v => { s with ft := s.ft.take v.toNat }) ∧
    stores 25 s.cfg.etMax (fun v => { s with etn := v }) ∧
    ∀ n v, n ∉ [0, 5, 6, 10, 11, 12, 17, 18, 21, 22, 23, 24, 25] → hostWrite s n v = s

/-- R248, R33, R34: outside `RUN`, what the host writes within the bounds of a space is read back there, every other cell reads as
before and nothing else changes; out of bounds nothing is written and 0 is read. The byte spaces and `DM` are bounded by their
capacities, `FT` by `ftn` and by the record's kind and length, `ET` by `ET_MAX` and a name by `NAME_MAX`. (That a record is read
whole, `none` or the blank record standing for 0, and that `ET` is written a field at a time are the model's choice: log 12.) -/
def Obligations.HostMemoryPort : Prop :=
  ∀ s : State, s.state ≠ .run →
    (∀ (sp : ByteSpace) (a : Nat) (b : Byte),
      let t := hostWriteByte s sp a b
      (a < sp.cap s.cfg → t = { s with cb := t.cb, eb := t.eb, ct := t.ct, db := t.db } ∧
        ∀ sp' a', hostReadByte t sp' a' = if sp' = sp ∧ a' = a then b else hostReadByte s sp' a') ∧
      (sp.cap s.cfg ≤ a → t = s ∧ hostReadByte s sp a = 0#8)) ∧
    (∀ (i : Nat) (w : W32),
      let t := hostWriteDm s i w
      (i < s.cfg.dmWords → t = { s with dm := t.dm } ∧ ∀ j, hostReadDm t j = if j = i then w else hostReadDm s j) ∧
      (s.cfg.dmWords ≤ i → t = s ∧ hostReadDm s i = 0#32)) ∧
    (∀ i, hostReadFt s i = s.ft[i]? ∧ (s.ft.length ≤ i → hostReadFt s i = none)) ∧
    (∀ (i : Nat) (v : W64),
      let t := hostWriteFtValue s i v
      (∀ n sg off w, s.ft[i]? = some (.int n sg off w) → t = { s with ft := t.ft } ∧
        ∀ k, hostReadFt t k = if k = i then some (.int n sg off v) else hostReadFt s k) ∧
      (∀ off bs, s.ft[i]? = some (.str off bs) → t = s) ∧
      (s.ft.length ≤ i → t = s)) ∧
    (∀ (i j : Nat) (b : Byte),
      let t := hostWriteFtByte s i j b
      (∀ off bs, s.ft[i]? = some (.str off bs) →
        (j < bs.length → t = { s with ft := t.ft } ∧
          ∀ k, hostReadFt t k = if k = i then some (.str off (bs.set j b)) else hostReadFt s k) ∧
        (bs.length ≤ j → t = s)) ∧
      (∀ n sg off w, s.ft[i]? = some (.int n sg off w) → t = s) ∧
      (s.ft.length ≤ i → t = s)) ∧
    (∀ (i : Nat) (w : EntryWrite),
      let t := hostWriteEt s i w
      let e := hostReadEt s i
      let tooLong := ∃ bs, w = .name bs ∧ s.cfg.nameMax < bs.length
      (i < s.cfg.etMax → ¬ tooLong → t = { s with et := t.et } ∧
        ∀ k, hostReadEt t k = if k = i then
            match w with
            | .name bs => { e with name := bs }
            | .isFile b => { e with isFile := b }
            | .isDir b => { e with isDir := b }
            | .cluster v => { e with cluster := v }
            | .length v => { e with length := v }
          else hostReadEt s k) ∧
      (tooLong → t = s) ∧
      (s.cfg.etMax ≤ i → t = s ∧ e = blankEntry))

/-- R33: the kind, width, sign and offset of a record of `FT` never change: not by a step, not by the host's edits. -/
def Obligations.RecordPlacesAreFixed : Prop :=
  ∀ (s t : State) (i : Nat) (f : FtRecord), s.ft[i]? = some f →
    (step s = .next t → t.ft[i]? = some f) ∧
    (∀ k v, ∃ g, (hostWriteFtValue s k v).ft[i]? = some g ∧ g.place = f.place) ∧
    (∀ k j b, ∃ g, (hostWriteFtByte s k j b).ft[i]? = some g ∧ g.place = f.place)

/-- R37: reset gives every register its reset value whatever the state was, keeps the configuration and leaves the memories open
(they hold what `m` says). -/
def Obligations.ResetRegisters : Prop :=
  ∀ (s : State) (m : Contents),
    resetInput s m = { s with
      state := .idle, dp := 0, err := 0, einfo := 0, bo := 0, utot := 0, rv := 0, rb := 0, ft := [], regL := 0, regR := 0,
      crc := 0, left := 0, right := 0, ck64 := 0, cstored := 0, hdr := 0, dstart := 0, dblen := 0, ctlen := 0, eblen := 0,
      etn := 0, imgMode := .closed, dm := m.dm, cb := m.cb, eb := m.eb, ct := m.ct, db := m.db, et := m.et
      img := (resetInput s m).img }

/-- R300, R301: reset leaves the image as it is, but for the pages that a `WRCHAIN` in progress was to write. (That a reset falls on
a descriptor boundary, the descriptor at `dp` being the one in progress, is the model's choice: log 8.) -/
def Obligations.ResetLeavesImage : Prop :=
  ∀ (s : State) (m : Contents) (a : Nat),
    (s.state = .run → ∀ idx rest cls p, decode (fetchWords s) = .ok (.wrchain idx, rest) → idx.toNat < s.etn.toNat →
      walk s.cfg s.img (readEntry s.et idx.toNat).cluster = .ok cls → s.eblen.toNat ≤ cls.length * s.cfg.clusterSize →
      writesPage s.cfg cls s.eblen.toNat p → ¬ (s.cfg.pageAddr p ≤ a ∧ a < s.cfg.pageAddr p + s.cfg.rawPage)) →
    readByte (resetInput s m).img a = readByte s.img a
end

