-- ==== Sys2Proof/Laws/Store.lean ====
section
/-! SUPPORT. What the sparse memories do: reads after writes, and the canonical form every operation keeps. -/

namespace Sys2Proof.Machine

variable {α : Type}

/-! ## Reading after writing -/

@[simp] theorem Store.read_nil (blank : α) (a : Nat) : Store.read blank [] a = blank := rfl

theorem Store.read_cons (blank : α) (c : Nat × α) (m : Store α) (a : Nat) :
    Store.read blank (c :: m) a = if c.1 = a then c.2 else Store.read blank m a := rfl

theorem Store.read_erase_same (blank : α) (m : Store α) (a : Nat) :
    Store.read blank (Store.erase m a) a = blank := by
  induction m with
  | nil => rfl
  | cons c m ih =>
    by_cases h : c.1 = a
    · simpa [Store.erase, h] using ih
    · simpa [Store.erase, h, Store.read_cons] using ih

theorem Store.read_erase_other (blank : α) (m : Store α) {a b : Nat} (h : b ≠ a) :
    Store.read blank (Store.erase m a) b = Store.read blank m b := by
  induction m with
  | nil => rfl
  | cons c m ih =>
    by_cases hc : c.1 = a
    · have hb : c.1 ≠ b := fun e => h (e ▸ hc)
      simpa [Store.erase, hc, Store.read_cons, hb, Ne.symm h] using ih
    · simp only [Store.erase, ne_eq, decide_not] at ih ⊢
      simp [hc, Store.read_cons, ih]

theorem Store.read_insert_same (blank : α) (m : Store α) (a : Nat) (v : α) :
    Store.read blank (Store.insert m a v) a = v := by
  induction m with
  | nil => simp [Store.insert, Store.read_cons]
  | cons c m ih =>
    unfold Store.insert
    split
    · simp [Store.read_cons]
    · split
      · simp [Store.read_cons]
      · rename_i h; simp [Store.read_cons, h, ih]

theorem Store.read_insert_other (blank : α) (m : Store α) {a b : Nat} (v : α) (h : b ≠ a) :
    Store.read blank (Store.insert m a v) b = Store.read blank m b := by
  induction m with
  | nil => simp [Store.insert, Store.read_cons, Ne.symm h]
  | cons c m ih =>
    unfold Store.insert
    split
    · simp [Store.read_cons, Ne.symm h]
    · split
      · rename_i hc; simp [Store.read_cons, hc, Ne.symm h]
      · simp [Store.read_cons, ih]

/-- A write is read back at its own address and nowhere else. -/
theorem Store.read_write [DecidableEq α] (blank : α) (m : Store α) (a b : Nat) (v : α) :
    Store.read blank (Store.write blank m a v) b = if b = a then v else Store.read blank m b := by
  unfold Store.write
  by_cases hb : b = a
  · subst hb
    split
    · rename_i hv; simp [Store.read_erase_same, hv]
    · simp [Store.read_insert_same]
  · split
    · simp [Store.read_erase_other blank m hb]
    · simp [Store.read_insert_other blank m v hb]

/-- A range write is read back inside the range and nowhere else. -/
theorem Store.read_writeRange [DecidableEq α] (blank : α) (vs : List α) :
    ∀ (m : Store α) (a b : Nat), Store.read blank (Store.writeRange blank m a vs) b =
      if a ≤ b ∧ b < a + vs.length then vs.getD (b - a) blank else Store.read blank m b := by
  induction vs with
  | nil => intro m a b; simp [Store.writeRange]
  | cons v vs ih =>
    intro m a b
    simp only [Store.writeRange, ih, Store.read_write, List.length_cons]
    by_cases h : b = a
    · subst h; simp
    · by_cases h1 : a + 1 ≤ b ∧ b < a + 1 + vs.length
      · have h2 : a ≤ b ∧ b < a + (vs.length + 1) := by omega
        have h3 : b - a = (b - (a + 1)) + 1 := by omega
        simp [h1, h2, h3]
      · have h2 : ¬ (a ≤ b ∧ b < a + (vs.length + 1)) := by omega
        rw [if_neg h1, if_neg h, if_neg h2]

@[simp] theorem Store.length_readRange (blank : α) (m : Store α) (n : Nat) :
    ∀ a, (Store.readRange blank m a n).length = n := by
  induction n with
  | zero => intro a; rfl
  | succ n ih => intro a; simp [Store.readRange, ih]

theorem Store.getElem?_readRange (blank : α) (m : Store α) (n : Nat) :
    ∀ a i, (Store.readRange blank m a n)[i]? = if i < n then some (Store.read blank m (a + i)) else none := by
  induction n with
  | zero => intro a i; simp [Store.readRange]
  | succ n ih =>
    intro a i
    cases i with
    | zero => simp [Store.readRange]
    | succ i => simp [Store.readRange, ih, Nat.add_assoc, Nat.add_comm 1 i]

/-- What a range read holds. -/
theorem Store.getD_readRange (blank d : α) (m : Store α) (n a i : Nat) (h : i < n) :
    (Store.readRange blank m a n).getD i d = Store.read blank m (a + i) := by
  rw [List.getD_eq_getElem?_getD, Store.getElem?_readRange, if_pos h]; rfl

/-- Two range reads are equal when each content is. -/
theorem Store.readRange_congr (blank : α) {m m' : Store α} {a n : Nat}
    (h : ∀ i, i < n → Store.read blank m (a + i) = Store.read blank m' (a + i)) :
    Store.readRange blank m a n = Store.readRange blank m' a n := by
  apply List.ext_getElem?
  intro i
  simp only [Store.getElem?_readRange]
  split
  · rename_i hi; rw [h i hi]
  · rfl

/-! ## The canonical form -/

theorem Store.wf_nil (blank : α) : Store.wf blank ([] : Store α) := by simp [Store.wf]

theorem Store.mem_insert {m : Store α} {a : Nat} {v : α} {x : Nat × α} (h : x ∈ Store.insert m a v) :
    x = (a, v) ∨ x ∈ m := by
  induction m with
  | nil => simpa [Store.insert] using h
  | cons c m ih =>
    unfold Store.insert at h
    split at h
    · simpa using h
    · split at h
      · rcases List.mem_cons.1 h with h | h
        · exact .inl h
        · exact .inr (List.mem_cons_of_mem _ h)
      · rcases List.mem_cons.1 h with h | h
        · exact .inr (by simp [h])
        · rcases ih h with h | h
          · exact .inl h
          · exact .inr (List.mem_cons_of_mem _ h)

theorem Store.insert_rising {m : Store α} (a : Nat) (v : α) (h : m.Pairwise (fun c d => c.1 < d.1)) :
    (Store.insert m a v).Pairwise (fun c d => c.1 < d.1) := by
  induction m with
  | nil => simp [Store.insert]
  | cons c m ih =>
    have ⟨hc, hm⟩ := List.pairwise_cons.1 h
    unfold Store.insert
    split
    · rename_i ha
      refine List.pairwise_cons.2 ⟨fun d hd => ?_, h⟩
      rcases List.mem_cons.1 hd with rfl | hd
      · exact ha
      · exact Nat.lt_trans ha (hc d hd)
    · split
      · rename_i hca
        exact List.pairwise_cons.2 ⟨fun d hd => hca ▸ hc d hd, hm⟩
      · rename_i h1 h2
        refine List.pairwise_cons.2 ⟨fun d hd => ?_, ih hm⟩
        rcases Store.mem_insert hd with rfl | hd
        · show c.1 < a; omega
        · exact hc d hd

/-- A write keeps the canonical form. -/
theorem Store.write_wf [DecidableEq α] {blank : α} {m : Store α} (a : Nat) (v : α) (h : Store.wf blank m) :
    Store.wf blank (Store.write blank m a v) := by
  unfold Store.write
  split
  · exact ⟨h.1.filter _, fun c hc => h.2 c (List.mem_filter.1 hc).1⟩
  · rename_i hv
    refine ⟨Store.insert_rising a v h.1, fun c hc => ?_⟩
    rcases Store.mem_insert hc with rfl | hc
    · exact hv
    · exact h.2 c hc

/-- A range write keeps the canonical form. -/
theorem Store.writeRange_wf [DecidableEq α] {blank : α} (vs : List α) :
    ∀ {m : Store α} (a : Nat), Store.wf blank m → Store.wf blank (Store.writeRange blank m a vs) := by
  induction vs with
  | nil => intro m a h; exact h
  | cons v vs ih => intro m a h; exact ih _ (Store.write_wf a v h)

/-- What a write lists is what it wrote or was listed before. -/
theorem Store.mem_write [DecidableEq α] {blank : α} {m : Store α} {a : Nat} {v : α} {x : Nat × α}
    (h : x ∈ Store.write blank m a v) : x = (a, v) ∨ x ∈ m := by
  unfold Store.write at h
  split at h
  · exact .inr (List.mem_filter.1 h).1
  · exact Store.mem_insert h

/-- What a range write lists lies in the range and is one of the values, or was listed before. -/
theorem Store.mem_writeRange [DecidableEq α] {blank : α} (vs : List α) :
    ∀ {m : Store α} {a : Nat} {x : Nat × α}, x ∈ Store.writeRange blank m a vs →
      (a ≤ x.1 ∧ x.1 < a + vs.length ∧ x.2 ∈ vs) ∨ x ∈ m := by
  induction vs with
  | nil => intro m a x h; exact .inr h
  | cons v vs ih =>
    intro m a x h
    rcases ih h with ⟨h1, h2, h3⟩ | h
    · exact .inl ⟨by omega, by simp only [List.length_cons]; omega, List.mem_cons_of_mem _ h3⟩
    · rcases Store.mem_write h with rfl | h
      · exact .inl ⟨Nat.le_refl _, by simp, by simp⟩
      · exact .inr h

/-- A write below a bound keeps the memory below it. -/
theorem Store.write_below [DecidableEq α] {blank : α} {m : Store α} {a n : Nat} {v : α} (ha : a < n)
    (h : Store.below m n) : Store.below (Store.write blank m a v) n := by
  intro c hc
  rcases Store.mem_write hc with rfl | hc
  · exact ha
  · exact h c hc

/-- A range write below a bound keeps the memory below it. -/
theorem Store.writeRange_below [DecidableEq α] {blank : α} {m : Store α} {a n : Nat} {vs : List α}
    (ha : a + vs.length ≤ n) (h : Store.below m n) : Store.below (Store.writeRange blank m a vs) n := by
  intro c hc
  rcases Store.mem_writeRange vs hc with ⟨_, h2, _⟩ | hc
  · omega
  · exact h c hc

/-- Two canonical memories that read alike everywhere are the same list. -/
theorem Store.ext_of_read (blank : α) : ∀ {m m' : Store α}, Store.wf blank m → Store.wf blank m' →
    (∀ a, Store.read blank m a = Store.read blank m' a) → m = m' := by
  have low : ∀ {m : Store α} {a : Nat}, (∀ c ∈ m, a < c.1) → Store.read blank m a = blank := by
    intro m a h
    induction m with
    | nil => rfl
    | cons c m ih =>
      have := h c (by simp)
      have hc : c.1 ≠ a := by omega
      rw [Store.read_cons, if_neg hc]
      exact ih (fun d hd => h d (List.mem_cons_of_mem _ hd))
  intro m
  induction m with
  | nil =>
    intro m' _ hw' h
    cases m' with
    | nil => rfl
    | cons c m' =>
      have := h c.1
      simp only [Store.read_nil, Store.read_cons, if_true] at this
      exact absurd this.symm (hw'.2 c (by simp))
  | cons c m ih =>
    intro m' hw hw' h
    have hwc := List.pairwise_cons.1 hw.1
    have hm : Store.wf blank m := ⟨hwc.2, fun d hd => hw.2 d (List.mem_cons_of_mem _ hd)⟩
    cases m' with
    | nil =>
      have := h c.1
      simp only [Store.read_nil, Store.read_cons, if_true] at this
      exact absurd this (hw.2 c (by simp))
    | cons d m' =>
      have hwd := List.pairwise_cons.1 hw'.1
      have hm' : Store.wf blank m' := ⟨hwd.2, fun e he => hw'.2 e (List.mem_cons_of_mem _ he)⟩
      have hcd : c.1 = d.1 := by
        rcases Nat.lt_trichotomy c.1 d.1 with hlt | he | hgt
        · exfalso
          have := h c.1
          rw [Store.read_cons, if_pos rfl, low] at this
          · exact hw.2 c (by simp) this
          · intro e he
            rcases List.mem_cons.1 he with rfl | he
            · exact hlt
            · exact Nat.lt_trans hlt (hwd.1 e he)
        · exact he
        · exfalso
          have := h d.1
          rw [Store.read_cons blank d, if_pos rfl, low] at this
          · exact hw'.2 d (by simp) this.symm
          · intro e he
            rcases List.mem_cons.1 he with rfl | he
            · exact hgt
            · exact Nat.lt_trans hgt (hwc.1 e he)
      have hv : c.2 = d.2 := by
        have := h c.1
        rwa [Store.read_cons, if_pos rfl, Store.read_cons, if_pos hcd.symm] at this
      have hc : c = d := Prod.ext hcd hv
      subst hc
      refine congrArg (c :: ·) (ih hm hm' fun a => ?_)
      by_cases ha : c.1 = a
      · subst ha; rw [low hwc.1, low hwd.1]
      · have := h a
        rwa [Store.read_cons, if_neg ha, Store.read_cons, if_neg ha] at this

/-! ## Byte memories -/

theorem readByte_writeByte (m : Memory) (a b : Nat) (v : Byte) :
    readByte (writeByte m a v) b = if b = a then v else readByte m b := Store.read_write _ _ _ _ _

theorem readByte_writeBytes (m : Memory) (a b : Nat) (vs : List Byte) :
    readByte (writeBytes m a vs) b = if a ≤ b ∧ b < a + vs.length then vs.getD (b - a) 0#8 else readByte m b :=
  Store.read_writeRange _ vs m a b

@[simp] theorem length_readBytes (m : Memory) (a n : Nat) : (readBytes m a n).length = n :=
  Store.length_readRange _ _ _ _

theorem getD_readBytes (m : Memory) (d : Byte) (a n i : Nat) (h : i < n) :
    (readBytes m a n).getD i d = readByte m (a + i) := Store.getD_readRange _ _ _ _ _ _ h

theorem getElem?_readBytes (m : Memory) (a n i : Nat) :
    (readBytes m a n)[i]? = if i < n then some (readByte m (a + i)) else none := Store.getElem?_readRange _ _ _ _ _

theorem readBytes_congr {m m' : Memory} {a n : Nat}
    (h : ∀ i, i < n → readByte m (a + i) = readByte m' (a + i)) : readBytes m a n = readBytes m' a n :=
  Store.readRange_congr _ h

theorem writeByte_wf {m : Memory} (a : Nat) (v : Byte) (h : Memory.wf m) : Memory.wf (writeByte m a v) :=
  Store.write_wf a v h

theorem writeBytes_wf {m : Memory} (a : Nat) (vs : List Byte) (h : Memory.wf m) : Memory.wf (writeBytes m a vs) :=
  Store.writeRange_wf vs a h

theorem writeBytes_below {m : Memory} {a n : Nat} {vs : List Byte} (ha : a + vs.length ≤ n) (h : Store.below m n) :
    Store.below (writeBytes m a vs) n := Store.writeRange_below ha h

theorem Memory.ext_of_read {m m' : Memory} (h : Memory.wf m) (h' : Memory.wf m')
    (hr : ∀ a, readByte m a = readByte m' a) : m = m' := Store.ext_of_read _ h h' hr

theorem readEntry_writeEntries (m : Store DirEntry) (i j : Nat) (es : List DirEntry) :
    readEntry (writeEntries m i es) j = if i ≤ j ∧ j < i + es.length then es.getD (j - i) blankEntry else readEntry m j :=
  Store.read_writeRange _ es m i j

theorem readWord_writeWords (m : Store W32) (i j : Nat) (ws : List W32) :
    readWord (writeWords m i ws) j = if i ≤ j ∧ j < i + ws.length then ws.getD (j - i) 0#32 else readWord m j :=
  Store.read_writeRange _ ws m i j

end Sys2Proof.Machine
end

