-- ==== Sys2Proof/Laws/Bits.lean ====
section
/-! SUPPORT. What the bit-position operations do (00_scope.md R12), and the form they keep. -/

namespace Sys2Proof.Machine

/-! ## One bit -/

theorem getLsbD_setBit (x : Byte) (i j : Nat) (b : Bool) (hi : i < 8) (hj : j < 8) :
    (setBit x i b).getLsbD j = if j = i then b else x.getLsbD j := by
  unfold setBit
  cases b
  · by_cases h : j = i
    · subst h; simp [hi]
    · simp [h, hj]; omega
  · by_cases h : j = i
    · subst h; simp [hi]
    · simp [h, hj]; omega

theorem readByte_putBitAt_other (m : Memory) (p a : Nat) (b : Bool) (h : a ≠ p / 8) :
    readByte (putBitAt m p b) a = readByte m a := by
  rw [putBitAt, readByte_writeByte, if_neg h]

/-- One bit written is read back at its own position and nowhere else. -/
theorem bitAt_putBitAt (m : Memory) (p q : Nat) (b : Bool) :
    bitAt (putBitAt m p b) q = if q = p then b else bitAt m q := by
  unfold bitAt putBitAt
  rw [readByte_writeByte]
  by_cases hq : q / 8 = p / 8
  · rw [if_pos hq, getLsbD_setBit _ _ _ _ (by omega) (by omega), hq]
    by_cases h : q = p
    · subst h; simp
    · have : ¬ (7 - q % 8 = 7 - p % 8) := by omega
      simp [h, this]
  · have : q ≠ p := fun e => hq (by rw [e])
    rw [if_neg hq, if_neg this]

/-- Two memories whose bits agree over a byte agree on that byte. -/
theorem readByte_eq_of_bitAt {m m' : Memory} {a : Nat}
    (h : ∀ p, 8 * a ≤ p → p < 8 * a + 8 → bitAt m p = bitAt m' p) : readByte m a = readByte m' a := by
  apply BitVec.eq_of_getLsbD_eq
  intro i hi
  have := h (8 * a + (7 - i)) (by omega) (by omega)
  unfold bitAt at this
  have h1 : (8 * a + (7 - i)) / 8 = a := by omega
  have h2 : 7 - (8 * a + (7 - i)) % 8 = i := by omega
  rwa [h1, h2] at this

theorem bitAt_congr {m m' : Memory} {p : Nat} (h : readByte m (p / 8) = readByte m' (p / 8)) :
    bitAt m p = bitAt m' p := by unfold bitAt; rw [h]

/-! ## A run of bits -/

/-- `PutBits` writes `v[n-1-t]` at position `p+t` and changes no other bit. -/
theorem bitAt_putBits (n : Nat) : ∀ (m : Memory) (p : Nat) (v : W64) (q : Nat),
    bitAt (putBits m p n v) q = if p ≤ q ∧ q < p + n then v.getLsbD (n - 1 - (q - p)) else bitAt m q := by
  induction n with
  | zero =>
    intro m p v q
    rw [if_neg (by omega)]; rfl
  | succ n ih =>
    intro m p v q
    rw [putBits, ih, bitAt_putBitAt]
    by_cases h : q = p
    · subst h
      rw [if_neg (by omega), if_pos rfl, if_pos (by omega)]
      congr 1; omega
    · by_cases h1 : p + 1 ≤ q ∧ q < p + 1 + n
      · rw [if_pos h1, if_pos (by omega)]; congr 1; omega
      · rw [if_neg h1, if_neg h, if_neg (by omega)]

theorem readByte_putBits_other (m : Memory) (p n a : Nat) (v : W64) (h : 8 * a + 8 ≤ p ∨ p + n ≤ 8 * a) :
    readByte (putBits m p n v) a = readByte m a := by
  apply readByte_eq_of_bitAt
  intro q h1 h2
  rw [bitAt_putBits, if_neg (by omega)]

/-- Bytes written as 8-bit groups: bit `7 - t mod 8` of byte `t div 8` at position `p+t`. -/
theorem bitAt_putByteGroups (bs : List Byte) : ∀ (m : Memory) (p q : Nat),
    bitAt (putByteGroups m p bs) q =
      if p ≤ q ∧ q < p + 8 * bs.length then (bs.getD ((q - p) / 8) 0#8).getLsbD (7 - (q - p) % 8) else bitAt m q := by
  induction bs with
  | nil => intro m p q; rw [if_neg (by simp only [List.length_nil]; omega)]; rfl
  | cons b bs ih =>
    intro m p q
    rw [putByteGroups, ih, bitAt_putBits]
    simp only [List.length_cons]
    by_cases h : p + 8 ≤ q ∧ q < p + 8 + 8 * bs.length
    · rw [if_pos h, if_pos (by omega)]
      have h1 : (q - p) / 8 = (q - (p + 8)) / 8 + 1 := by omega
      have h2 : (q - p) % 8 = (q - (p + 8)) % 8 := by omega
      rw [h1, h2, List.getD_cons_succ]
    · rw [if_neg h]
      by_cases h0 : p ≤ q ∧ q < p + 8
      · rw [if_pos h0, if_pos (by omega)]
        have h1 : (q - p) / 8 = 0 := by omega
        have h2 : 8 - 1 - (q - p) = 7 - (q - p) % 8 := by omega
        rw [h1, h2, List.getD_cons_zero]
        simp only [BitVec.truncate_eq_setWidth, BitVec.getLsbD_setWidth]
        have : 7 - (q - p) % 8 < 64 := by omega
        simp [this]
      · rw [if_neg h0, if_neg (by omega)]

theorem readByte_putByteGroups_other (m : Memory) (p a : Nat) (bs : List Byte)
    (h : 8 * a + 8 ≤ p ∨ p + 8 * bs.length ≤ 8 * a) : readByte (putByteGroups m p bs) a = readByte m a := by
  apply readByte_eq_of_bitAt
  intro q h1 h2
  rw [bitAt_putByteGroups, if_neg (by omega)]

/-! ## The canonical form and the bound -/

theorem putBitAt_wf {m : Memory} (p : Nat) (b : Bool) (h : Memory.wf m) : Memory.wf (putBitAt m p b) :=
  writeByte_wf _ _ h

theorem putBits_wf (n : Nat) : ∀ {m : Memory} (p : Nat) (v : W64), Memory.wf m → Memory.wf (putBits m p n v) := by
  induction n with
  | zero => intro m p v h; exact h
  | succ n ih => intro m p v h; exact ih _ _ (putBitAt_wf _ _ h)

theorem putByteGroups_wf (bs : List Byte) : ∀ {m : Memory} (p : Nat), Memory.wf m → Memory.wf (putByteGroups m p bs) := by
  induction bs with
  | nil => intro m p h; exact h
  | cons b bs ih => intro m p h; exact ih _ (putBits_wf _ _ _ h)

theorem putBits_below (n : Nat) : ∀ {m : Memory} {p c : Nat} (v : W64), p + n ≤ 8 * c → Store.below m c →
    Store.below (putBits m p n v) c := by
  induction n with
  | zero => intro m p c v _ h; exact h
  | succ n ih =>
    intro m p c v hp h
    exact ih v (by omega) (Store.write_below (by omega) h)

theorem putByteGroups_below (bs : List Byte) : ∀ {m : Memory} {p c : Nat}, p + 8 * bs.length ≤ 8 * c → Store.below m c →
    Store.below (putByteGroups m p bs) c := by
  induction bs with
  | nil => intro m p c _ h; exact h
  | cons b bs ih =>
    intro m p c hp h
    simp only [List.length_cons] at hp
    exact ih (by omega) (putBits_below 8 _ (by omega) h)

/-! ## Reading -/

theorem bits_lt (n : Nat) : ∀ (m : Memory) (p : Nat), bits m p n < 2 ^ n := by
  induction n with
  | zero => intro m p; simp [bits]
  | succ n ih =>
    intro m p
    have h1 := ih m (p + 1)
    have h2 : (bitAt m p).toNat ≤ 1 := Bool.toNat_le _
    rw [bits, Nat.pow_succ]
    calc (bitAt m p).toNat * 2 ^ n + bits m (p + 1) n < 1 * 2 ^ n + 2 ^ n :=
          Nat.add_lt_add_of_le_of_lt (Nat.mul_le_mul_right _ h2) h1
      _ = 2 ^ n * 2 := by omega

/-- The bits of `Bits(B, p, n)` are those of the buffer, the first being the most significant. -/
theorem testBit_bits (n : Nat) : ∀ (m : Memory) (p i : Nat),
    (bits m p n).testBit i = (decide (i < n) && bitAt m (p + (n - 1 - i))) := by
  induction n with
  | zero => intro m p i; simp [bits]
  | succ n ih =>
    intro m p i
    have hlt := bits_lt n m (p + 1)
    rw [bits, Nat.mul_comm, Nat.testBit_two_pow_mul_add _ hlt]
    by_cases h : i < n
    · rw [if_pos h, ih]
      have h1 : p + 1 + (n - 1 - i) = p + (n + 1 - 1 - i) := by omega
      have h2 : i < n + 1 := by omega
      rw [h1]; simp [h, h2]
    · rw [if_neg h]
      by_cases h' : i = n
      · subst h'; simp only [Nat.sub_self]; cases h0 : bitAt m p <;> simp [h0]
      · have h1 : ¬ i < n + 1 := by omega
        have h2 : i - n ≠ 0 := by omega
        cases bitAt m p
        · simp [h1]
        · simp only [Bool.toNat_true, h1, decide_false, Bool.false_and, Nat.testBit_one_eq_true_iff_self_eq_zero,
            Bool.eq_false_iff, ne_eq]
          exact h2

theorem bits_congr (n : Nat) : ∀ {m m' : Memory} {p : Nat}, (∀ q, p ≤ q → q < p + n → bitAt m q = bitAt m' q) →
    bits m p n = bits m' p n := by
  induction n with
  | zero => intro m m' p _; rfl
  | succ n ih =>
    intro m m' p h
    rw [bits, bits, h p (by omega) (by omega), ih fun q h1 h2 => h q (by omega) (by omega)]

@[simp] theorem length_readByteGroups (m : Memory) (k : Nat) : ∀ p, (readByteGroups m p k).length = k := by
  induction k with
  | zero => intro p; rfl
  | succ k ih => intro p; simp [readByteGroups, ih]

theorem getElem?_readByteGroups (m : Memory) (k : Nat) : ∀ p j,
    (readByteGroups m p k)[j]? = if j < k then some (BitVec.ofNat 8 (extract m (p + 8 * j) 8)) else none := by
  induction k with
  | zero => intro p j; simp [readByteGroups]
  | succ k ih =>
    intro p j
    cases j with
    | zero => simp [readByteGroups]
    | succ j =>
      rw [readByteGroups, List.getElem?_cons_succ, ih]
      have : p + 8 + 8 * j = p + 8 * (j + 1) := by omega
      simp [this]

end Sys2Proof.Machine
end

