-- ==== Sys2Proof/Laws/Config.lean ====
section
/-! SUPPORT. The conditions a configuration carries (00_scope.md R6 to R9), one lemma each. -/

namespace Sys2Proof

theorem Config.conditions (c : Config) :
    c.pTab.length = 18 ∧ c.sTab.length = 1024 ∧ c.tTab.length = 256 ∧ c.halfLen % 8 = 0 ∧ c.pageSize % 128 = 0 ∧
    (c.hasSpare = true → 3 * c.nch ≤ c.spareSize) ∧ 1 ≤ c.ppc ∧ c.nPages * c.rawPage ≤ c.imgLen ∧
    (∀ cl, cl < c.nClusters → c.clusterFirstPage cl + c.ppc ≤ c.nPages) ∧ c.dmWords ≤ 2 ^ 31 ∧
    c.contLen ≤ c.ebCap ∧ c.plen ≤ c.ctCap ∧ c.plen ≤ c.dbCap ∧ c.dbCap < 2 ^ 29 := by
  have h := c.wf
  simp only [ConfigData.ok, Bool.and_eq_true, beq_iff_eq, Bool.or_eq_true, Bool.not_eq_true', decide_eq_true_eq] at h
  obtain ⟨⟨⟨⟨⟨⟨⟨⟨⟨⟨⟨⟨⟨h1, h2⟩, h3⟩, h4⟩, h5⟩, h6⟩, h7⟩, h8⟩, h9⟩, h10⟩, h11⟩, h12⟩, h13⟩, h14⟩ := h
  refine ⟨h1, h2, h3, h4, h5, fun hs => ?_, h7, h8, h9, h10, h11, h12, h13, h14⟩
  rcases h6 with h6 | h6
  · rw [h6] at hs; cases hs
  · exact h6

theorem Config.halfLen_mod (c : Config) : c.halfLen % 8 = 0 := c.conditions.2.2.2.1
theorem Config.pageSize_mod (c : Config) : c.pageSize % 128 = 0 := c.conditions.2.2.2.2.1
theorem Config.spare_room (c : Config) : c.hasSpare = true → 3 * c.nch ≤ c.spareSize := c.conditions.2.2.2.2.2.1
theorem Config.one_le_ppc (c : Config) : 1 ≤ c.ppc := c.conditions.2.2.2.2.2.2.1
theorem Config.pages_fit (c : Config) : c.nPages * c.rawPage ≤ c.imgLen := c.conditions.2.2.2.2.2.2.2.1
theorem Config.cluster_fits (c : Config) {cl : Nat} : cl < c.nClusters → c.clusterFirstPage cl + c.ppc ≤ c.nPages :=
  c.conditions.2.2.2.2.2.2.2.2.1 cl
theorem Config.dmWords_le (c : Config) : c.dmWords ≤ 2 ^ 31 := c.conditions.2.2.2.2.2.2.2.2.2.1
theorem Config.contLen_le (c : Config) : 12 + 2 * c.halfLen ≤ c.ebCap := c.conditions.2.2.2.2.2.2.2.2.2.2.1
theorem Config.plen_le_ctCap (c : Config) : 2 * c.halfLen ≤ c.ctCap := c.conditions.2.2.2.2.2.2.2.2.2.2.2.1
theorem Config.plen_le_dbCap (c : Config) : 2 * c.halfLen ≤ c.dbCap := c.conditions.2.2.2.2.2.2.2.2.2.2.2.2.1
theorem Config.dbCap_lt (c : Config) : c.dbCap < 2 ^ 29 := c.conditions.2.2.2.2.2.2.2.2.2.2.2.2.2

theorem Config.pageSize_eq (c : Config) : c.pageSize = 128 * c.nch := by
  have h := c.pageSize_mod
  unfold ConfigData.nch
  omega

/-- Page `p` of the card lies inside the image. -/
theorem Config.page_in_img (c : Config) {p : Nat} (h : p < c.nPages) : c.pageAddr p + c.rawPage ≤ c.imgLen := by
  have h1 : (p + 1) * c.rawPage ≤ c.nPages * c.rawPage := Nat.mul_le_mul_right _ h
  have h2 := c.pages_fit
  unfold ConfigData.pageAddr
  rw [Nat.succ_mul] at h1
  omega

/-- The raw pages of two different page numbers share no address. -/
theorem Config.pages_disjoint (c : Config) {p q a : Nat} (hp : c.pageAddr p ≤ a ∧ a < c.pageAddr p + c.rawPage)
    (hq : c.pageAddr q ≤ a ∧ a < c.pageAddr q + c.rawPage) : p = q := by
  unfold ConfigData.pageAddr at hp hq
  rcases Nat.lt_trichotomy p q with h | h | h
  · have : (p + 1) * c.rawPage ≤ q * c.rawPage := Nat.mul_le_mul_right _ h
    rw [Nat.succ_mul] at this; omega
  · exact h
  · have : (q + 1) * c.rawPage ≤ p * c.rawPage := Nat.mul_le_mul_right _ h
    rw [Nat.succ_mul] at this; omega

end Sys2Proof
end

