-- ==== Sys2Proof/Laws/Card.lean ====
section
/-! SUPPORT. What the card's operations do: lengths of what is read, and what a page write, a run of page writes and a
chain write leave alone. -/

namespace Sys2Proof.Machine

/-! ## Reading -/

@[simp] theorem length_pageData (c : Config) (img : Memory) (p : Nat) : (pageData c img p).length = c.pageSize := by
  simp [pageData]

@[simp] theorem length_pageSpare (c : Config) (img : Memory) (p : Nat) : (pageSpare c img p).length = c.spareSize := by
  simp [pageSpare]

@[simp] theorem length_pagesData (c : Config) (img : Memory) (n : Nat) :
    ∀ p, (pagesData c img p n).length = n * c.pageSize := by
  induction n with
  | zero => intro p; simp [pagesData]
  | succ n ih => intro p; simp only [pagesData, List.length_append, length_pageData, ih, Nat.succ_mul]; omega

@[simp] theorem length_clusterData (c : Config) (img : Memory) (cl : Nat) :
    (clusterData c img cl).length = c.clusterSize := by
  rw [clusterData, length_pagesData, ConfigData.clusterSize, Nat.mul_comm]

@[simp] theorem length_chainData (c : Config) (img : Memory) (cls : List W32) :
    (chainData c img cls).length = cls.length * c.clusterSize := by
  induction cls with
  | nil => simp [chainData]
  | cons cl cls ih => simp only [chainData, List.length_append, length_clusterData, ih, List.length_cons, Nat.succ_mul]; omega

/-- What `ReadChain` does: it delivers exactly `e.length` bytes of the chain's data, and only where the chain holds them. -/
theorem readChain_ok {c : Config} {img : Memory} {e : DirEntry} {data : List Byte} :
    readChain c img e = .ok data ↔ ∃ cls, walk c img e.cluster = .ok cls ∧
      e.length.toNat ≤ cls.length * c.clusterSize ∧ data = (chainData c img cls).take e.length.toNat := by
  unfold readChain
  constructor
  · intro h
    split at h
    · cases h
    · rename_i cls hw
      split at h
      · cases h
      · rename_i hl
        exact ⟨cls, hw, Nat.le_of_not_lt hl, (Except.ok.inj h).symm⟩
  · rintro ⟨cls, hw, hl, rfl⟩
    rw [hw]
    exact if_neg (Nat.not_lt.2 hl)

theorem length_readChain {c : Config} {img : Memory} {e : DirEntry} {data : List Byte}
    (h : readChain c img e = .ok data) : data.length = e.length.toNat := by
  obtain ⟨cls, _, hl, rfl⟩ := readChain_ok.1 h
  simp [hl]

/-- What `DirList` does. -/
theorem dirList_ok {c : Config} {img : Memory} {e : DirEntry} {es : List DirEntry} :
    dirList c img e = .ok es ↔ ∃ bs, readChain c img e = .ok bs ∧ es = liveEntries c bs := by
  unfold dirList
  constructor
  · intro h
    split at h
    · cases h
    · rename_i bs hb; exact ⟨bs, hb, (Except.ok.inj h).symm⟩
  · rintro ⟨bs, hb, rfl⟩; rw [hb]

theorem dirList_error {c : Config} {img : Memory} {e : DirEntry} {k : BlockFault} :
    dirList c img e = .error k ↔ readChain c img e = .error k := by
  unfold dirList
  split <;> simp_all

/-- R202: a live entry has a name of at most `NAME_MAX` bytes. -/
theorem length_name_le {c : Config} {bs : List Byte} {e : DirEntry} (h : e ∈ liveEntries c bs) :
    e.name.length ≤ c.nameMax := by
  simp only [liveEntries, dirParse, List.mem_map, List.mem_filter] at h
  obtain ⟨d, ⟨⟨d', _, rfl⟩, _⟩, rfl⟩ := h
  simp only [List.length_take]
  omega

/-! ## Codes -/

@[simp] theorem length_eccBytes (c : Config) (ch : List Byte) : (eccBytes c ch).length = 3 := rfl

@[simp] theorem length_eccCodes (c : Config) (d : List Byte) : (eccCodes c d).length = 3 * c.nch := by
  simp [eccCodes, List.length_flatMap, Nat.mul_comm]

theorem length_spareOf (c : Config) (d : List Byte) (h : c.hasSpare = true) : (spareOf c d).length = c.spareSize := by
  have := c.spare_room h
  simp only [spareOf, List.length_append, length_eccCodes, List.length_replicate]
  omega

/-! ## Writing -/

/-- A page write leaves every byte outside its raw page. -/
theorem readByte_writePage_other (c : Config) (img : Memory) (p a : Nat) (part : List Byte) (hl : part.length ≤ c.pageSize)
    (h : ¬ (c.pageAddr p ≤ a ∧ a < c.pageAddr p + c.rawPage)) : readByte (writePage c img p part) a = readByte img a := by
  unfold writePage
  unfold ConfigData.rawPage at h
  dsimp only
  split
  · rename_i hs
    rw [if_pos hs] at h
    rw [readByte_writeBytes, if_neg, readByte_writeBytes, if_neg]
    · omega
    · rw [length_spareOf c _ hs]; omega
  · rename_i hs
    rw [if_neg hs] at h
    rw [readByte_writeBytes, if_neg]
    omega

/-- The data bytes of a page after a page write: the part, then the old bytes. -/
theorem readByte_writePage_data (c : Config) (img : Memory) (p i : Nat) (part : List Byte)
    (hi : i < c.pageSize) : readByte (writePage c img p part) (c.pageAddr p + i) =
      if i < part.length then part.getD i 0#8 else readByte img (c.pageAddr p + i) := by
  have h1 : readByte (writeBytes img (c.pageAddr p) part) (c.pageAddr p + i) =
      if i < part.length then part.getD i 0#8 else readByte img (c.pageAddr p + i) := by
    rw [readByte_writeBytes]
    by_cases h : i < part.length
    · rw [if_pos (by omega), if_pos h, Nat.add_sub_cancel_left]
    · rw [if_neg (by omega), if_neg h]
  unfold writePage
  dsimp only
  split
  · rw [readByte_writeBytes, if_neg (by omega), h1]
  · exact h1

/-- The spare bytes of a page after a page write are those of its data as it then stands (R194, R196). -/
theorem pageSpare_writePage (c : Config) (img : Memory) (p : Nat) (part : List Byte) (hs : c.hasSpare = true) :
    pageSpare c (writePage c img p part) p = spareOf c (pageData c (writePage c img p part) p) := by
  have hd : pageData c (writePage c img p part) p = pageData c (writeBytes img (c.pageAddr p) part) p := by
    apply readBytes_congr
    intro i hi
    rw [readByte_writePage_data c img p i part hi, readByte_writeBytes]
    by_cases h : i < part.length
    · rw [if_pos h, if_pos (by omega), Nat.add_sub_cancel_left]
    · rw [if_neg h, if_neg (by omega)]
  rw [hd]
  have hw : writePage c img p part = writeBytes (writeBytes img (c.pageAddr p) part) (c.pageAddr p + c.pageSize)
      (spareOf c (pageData c (writeBytes img (c.pageAddr p) part) p)) := by
    unfold writePage; exact if_pos hs
  rw [hw]
  have hlen := length_spareOf c (pageData c (writeBytes img (c.pageAddr p) part) p) hs
  apply List.ext_getElem?
  intro i
  rw [pageSpare, getElem?_readBytes]
  by_cases h : i < c.spareSize
  · rw [if_pos h, readByte_writeBytes, if_pos (by omega), Nat.add_sub_cancel_left, List.getD_eq_getElem?_getD,
      List.getElem?_eq_getElem (by omega)]
    rfl
  · rw [if_neg h, List.getElem?_eq_none (by omega)]

/-- A run of page writes leaves every byte outside the pages that receive one. -/
theorem readByte_writePages_other (c : Config) (n : Nat) : ∀ (img : Memory) (p a : Nat) (slice : List Byte),
    (∀ q, q < n → q * c.pageSize < slice.length → ¬ (c.pageAddr (p + q) ≤ a ∧ a < c.pageAddr (p + q) + c.rawPage)) →
    readByte (writePages c n img p slice) a = readByte img a := by
  induction n with
  | zero => intro img p a slice _; rfl
  | succ n ih =>
    intro img p a slice h
    rw [writePages, ih]
    · split
      · rfl
      · rename_i hne
        apply readByte_writePage_other
        · simp only [List.length_take]; omega
        · have hpos : 0 < slice.length := by
            cases slice with
            | nil => simp at hne
            | cons _ _ => simp
          have := h 0 (by omega) (by omega)
          simpa using this
    · intro q hq hlt
      have hlt' : (q + 1) * c.pageSize < slice.length := by
        rw [List.length_drop] at hlt; rw [Nat.succ_mul]; omega
      have := h (q + 1) (by omega) hlt'
      rwa [show p + (q + 1) = p + 1 + q by omega] at this

theorem writePage_wf {c : Config} {img : Memory} (p : Nat) (part : List Byte) (h : Memory.wf img) :
    Memory.wf (writePage c img p part) := by
  unfold writePage
  dsimp only
  split
  · exact writeBytes_wf _ _ (writeBytes_wf _ _ h)
  · exact writeBytes_wf _ _ h

theorem writePages_wf {c : Config} (n : Nat) : ∀ {img : Memory} (p : Nat) (slice : List Byte), Memory.wf img →
    Memory.wf (writePages c n img p slice) := by
  induction n with
  | zero => intro img p slice h; exact h
  | succ n ih =>
    intro img p slice h
    rw [writePages]
    apply ih
    split
    · exact h
    · exact writePage_wf _ _ h

/-- A chain write keeps the canonical form. -/
theorem writeChain_wf {c : Config} (cls : List W32) : ∀ {img : Memory} (data : List Byte), Memory.wf img →
    Memory.wf (writeChain c img cls data) := by
  induction cls with
  | nil => intro img data h; exact h
  | cons cl cls ih => intro img data h; exact ih _ (writePages_wf _ _ _ h)

theorem writePage_below {c : Config} {img : Memory} {p : Nat} {part : List Byte} (hl : part.length ≤ c.pageSize)
    (hp : p < c.nPages) (h : Store.below img c.imgLen) : Store.below (writePage c img p part) c.imgLen := by
  have h1 := c.page_in_img hp
  unfold ConfigData.rawPage at h1
  unfold writePage
  dsimp only
  split
  · rename_i hs
    rw [if_pos hs] at h1
    exact writeBytes_below (by rw [length_spareOf c _ hs]; omega) (writeBytes_below (by omega) h)
  · exact writeBytes_below (by omega) h

theorem writePages_below {c : Config} (n : Nat) : ∀ {img : Memory} {p : Nat} (slice : List Byte), p + n ≤ c.nPages →
    Store.below img c.imgLen → Store.below (writePages c n img p slice) c.imgLen := by
  induction n with
  | zero => intro img p slice _ h; exact h
  | succ n ih =>
    intro img p slice hp h
    rw [writePages]
    apply ih _ (by omega)
    split
    · exact h
    · exact writePage_below (by simp only [List.length_take]; omega) (by omega) h

/-- A write down a chain of clusters of the card stays inside the image. -/
theorem writeChain_below {c : Config} (cls : List W32) : ∀ {img : Memory} (data : List Byte),
    (∀ cl ∈ cls, cl.toNat < c.nClusters) → Store.below img c.imgLen → Store.below (writeChain c img cls data) c.imgLen := by
  induction cls with
  | nil => intro img data _ h; exact h
  | cons cl cls ih =>
    intro img data hc h
    exact ih _ (fun x hx => hc x (List.mem_cons_of_mem _ hx))
      (writePages_below _ _ (c.cluster_fits (hc cl (by simp))) h)

end Sys2Proof.Machine
end

