-- ==== Sys2Proof/Laws/Checksum.lean ====
section
/-! SUPPORT. The checksum's sensitivity (42_checksum.md R171): what makes a table single-bit sensitive, and that TESTCFG's is. -/

namespace Sys2Proof.Machine

/-- The accumulator's high byte after an update is the high byte of the table entry used. -/
theorem crcUpd_high (c : Config) (x : W16) (b : Byte) :
    crcUpd c x b >>> 8 = crcTable c (x.extractLsb' 0 8 ^^^ b).toNat >>> 8 := by
  unfold crcUpd
  generalize crcTable c _ = t
  ext i hi
  simp only [BitVec.getElem_ushiftRight, BitVec.getLsbD_xor, BitVec.getLsbD_ushiftRight]
  rw [BitVec.getLsbD_of_ge x _ (by omega), Bool.false_xor]

/-- The entries of the table differ in their high bytes, pairwise. -/
def HighBytesDiffer (c : Config) : Prop :=
  ∀ i j, i < 256 → j < 256 → crcTable c i >>> 8 = crcTable c j >>> 8 → i = j

/-- Two updates that agree used the same table entry. -/
theorem crcUpd_index {c : Config} (h : HighBytesDiffer c) {x y : W16} {b d : Byte} (he : crcUpd c x b = crcUpd c y d) :
    x.extractLsb' 0 8 ^^^ b = y.extractLsb' 0 8 ^^^ d := by
  have := congrArg (fun v : W16 => v >>> 8) he
  rw [crcUpd_high, crcUpd_high] at this
  exact BitVec.eq_of_toNat_eq (h _ _ (BitVec.isLt _) (BitVec.isLt _) this)

theorem crcUpd_left_inj {c : Config} (h : HighBytesDiffer c) {x y : W16} {b : Byte} (he : crcUpd c x b = crcUpd c y b) :
    x = y := by
  have hi := crcUpd_index h he
  have hlow : x.extractLsb' 0 8 = y.extractLsb' 0 8 := BitVec.xor_left_inj b |>.1 hi
  have hs : x >>> 8 = y >>> 8 := by
    unfold crcUpd at he
    rw [hlow] at he
    exact (BitVec.xor_left_inj _).1 he
  have e : ∀ z : W16, z.toNat = (z >>> 8).toNat * 256 + (z.extractLsb' 0 8).toNat := by
    intro z
    simp only [BitVec.toNat_ushiftRight, BitVec.extractLsb'_toNat, Nat.shiftRight_eq_div_pow]
    omega
  apply BitVec.eq_of_toNat_eq
  rw [e x, e y, hs, hlow]

theorem crcUpd_right_inj {c : Config} (h : HighBytesDiffer c) {x : W16} {b d : Byte} (he : crcUpd c x b = crcUpd c x d) :
    b = d := (BitVec.xor_right_inj _).1 (crcUpd_index h he)

/-- Different accumulators stay different over the same bytes. -/
theorem crcRun_inj {c : Config} (h : HighBytesDiffer c) (bs : List Byte) : ∀ {x y : W16},
    crcRun c x bs = crcRun c y bs → x = y := by
  induction bs with
  | nil => exact fun he => he
  | cons b bs ih => exact fun he => crcUpd_left_inj h (ih he)

/-- One byte changed makes another accumulator. -/
theorem crcRun_set {c : Config} (h : HighBytesDiffer c) (bs : List Byte) : ∀ (x : W16) (k : Nat) (b : Byte), k < bs.length →
    crcRun c x bs = crcRun c x (bs.set k b) → bs.getD k 0#8 = b := by
  induction bs with
  | nil => intro x k b hk; simp at hk
  | cons d bs ih =>
    intro x k b hk he
    cases k with
    | zero => exact crcUpd_right_inj h (crcRun_inj h bs he)
    | succ k => exact ih _ k b (by simpa using hk) he

/-- A table whose entries differ in their high bytes detects every changed byte, so every flipped bit (R171). -/
theorem singleBitSensitive_of_highBytesDiffer {c : Config} (h : HighBytesDiffer c) : SingleBitSensitive c := by
  rintro xs ys ⟨k, i, hk, hi, rfl⟩ he
  have hb := crcRun_set h xs _ k _ hk ((BitVec.xor_left_inj _).1 he)
  have hz : (1#8 <<< i) = 0#8 := by
    have := congrArg (xs.getD k 0#8 ^^^ ·) hb
    simpa [← BitVec.xor_assoc] using this.symm
  have hbit := congrArg (fun v => v.getLsbD i) hz
  simp [hi] at hbit

/-- TESTCFG's table is single-bit sensitive (R171). -/
theorem testcfg_singleBitSensitive : SingleBitSensitive testcfg := by
  refine singleBitSensitive_of_highBytesDiffer fun i j hi hj he => ?_
  have hn : (testcfg.tTab.map (fun t : W16 => t >>> 8)).Nodup := by decide +kernel
  have hl : (testcfg.tTab.map (fun t : W16 => t >>> 8)).length = 256 := by decide +kernel
  have hg : ∀ k, k < 256 → (testcfg.tTab.map (fun t : W16 => t >>> 8))[k]? = some (crcTable testcfg k >>> 8) := by
    intro k hk
    have hk' : k < testcfg.tTab.length := by rw [List.length_map] at hl; omega
    rw [List.getElem?_map, List.getElem?_eq_getElem hk']
    simp [crcTable, List.getD_eq_getElem?_getD, List.getElem?_eq_getElem hk']
  exact (List.getElem?_inj (hl.symm ▸ hi) hn).1 ((hg i hi).trans ((congrArg some he).trans (hg j hj).symm))

end Sys2Proof.Machine
end

