-- ==== Sys2Proof/Laws/Decode.lean ====
section
/-! SUPPORT. The fields of a head word (30_encoding.md R90, R91) and what a row of the opcode map says (R95). -/

namespace Sys2Proof

theorem headOp_headWord (i : Instr) : headOp i.headWord = i.opcode := by
  unfold headOp Instr.headWord
  apply BitVec.eq_of_getLsbD_eq
  intro j hj
  simp only [BitVec.getLsbD_extractLsb', BitVec.getLsbD_append, hj]
  simp [hj]

theorem headRsv_headWord (i : Instr) : headRsv i.headWord = 0#8 := by
  unfold headRsv Instr.headWord
  apply BitVec.eq_of_getLsbD_eq
  intro j hj
  have h1 : ¬ (8 + j < 8) := by omega
  have h2 : 8 + j - 8 < 8 := by omega
  simp only [BitVec.getLsbD_extractLsb', BitVec.getLsbD_append, hj, h1, h2]
  simp

theorem headImm_headWord (i : Instr) : headImm i.headWord = i.imm16 := by
  unfold headImm Instr.headWord
  apply BitVec.eq_of_getLsbD_eq
  intro j hj
  have h1 : ¬ (16 + j < 8) := by omega
  have h2 : ¬ (16 + j - 8 < 8) := by omega
  have h3 : 16 + j - 8 - 8 = j := by omega
  simp only [BitVec.getLsbD_extractLsb', BitVec.getLsbD_append, hj, h1, h2, h3]
  simp

/-- A head word is put together from its three fields. -/
theorem head_of_fields (h : W32) : h = headImm h ++ headRsv h ++ headOp h := by
  unfold headImm headRsv headOp
  apply BitVec.eq_of_getLsbD_eq
  intro j hj
  simp only [BitVec.getLsbD_extractLsb', BitVec.getLsbD_append]
  split
  · simp; omega
  · split
    · have h1 : 8 + (j - 8) = j := by omega
      have h2 : j - 8 < 8 := by omega
      simp [h1, h2]
    · have h1 : 16 + (j - 8 - 8) = j := by omega
      have h2 : j - 8 - 8 < 16 := by omega
      simp [h1, h2]

theorem toNat_headOp (h : W32) : (headOp h).toNat = h.toNat % 256 := by simp [headOp]

theorem toNat_headRsv (h : W32) : (headRsv h).toNat = h.toNat / 256 % 256 := by
  simp [headRsv, Nat.shiftRight_eq_div_pow]

theorem toNat_headImm (h : W32) : (headImm h).toNat = h.toNat / 65536 := by
  have := h.isLt
  simp only [headImm, BitVec.extractLsb'_toNat, Nat.shiftRight_eq_div_pow]
  omega

/-- What a row of the opcode map makes: an instruction with that opcode, no `imm16` (but for `UNPACK`), and the operand
words it was given. -/
theorem shapeOf_row (op : Byte) (sh : Shape) (h : shapeOf op = some sh) :
    match sh with
    | .z i => i.opcode = op ∧ i.imm16 = 0#16 ∧ i.operands = []
    | .w1 mk => ∀ a, (mk a).opcode = op ∧ (mk a).imm16 = 0#16 ∧ (mk a).operands = [a]
    | .w2 mk => ∀ a b, (mk a b).opcode = op ∧ (mk a b).imm16 = 0#16 ∧ (mk a b).operands = [a, b]
    | .v mk => mk = .unpack ∧ op = 0x11#8 := by
  unfold shapeOf opTable at h
  simp only [List.lookup] at h
  repeat' (split at h)
  all_goals first
    | (cases h; rename_i hh; have hh := eq_of_beq hh; subst hh; simp [Instr.opcode, Instr.imm16, Instr.operands])
    | simp at h

end Sys2Proof
end

