-- ==== Sys2Proof/Laws/State.lean ====
section
/-! SUPPORT. One lemma per field per named update of State, true by rfl. -/

namespace Sys2Proof.Machine

/-! `State.raised` -/

@[simp] theorem State.raised_cfg (s : State) (k : BlockFault) : (s.raised k).cfg = s.cfg := rfl
@[simp] theorem State.raised_dp (s : State) (k : BlockFault) : (s.raised k).dp = s.dp := rfl
@[simp] theorem State.raised_state (s : State) (k : BlockFault) : (s.raised k).state = .fault := rfl
@[simp] theorem State.raised_err (s : State) (k : BlockFault) : (s.raised k).err = k.code := rfl
@[simp] theorem State.raised_einfo (s : State) (k : BlockFault) : (s.raised k).einfo = k.info := rfl
@[simp] theorem State.raised_bo (s : State) (k : BlockFault) : (s.raised k).bo = s.bo := rfl
@[simp] theorem State.raised_utot (s : State) (k : BlockFault) : (s.raised k).utot = s.utot := rfl
@[simp] theorem State.raised_rv (s : State) (k : BlockFault) : (s.raised k).rv = s.rv := rfl
@[simp] theorem State.raised_rb (s : State) (k : BlockFault) : (s.raised k).rb = s.rb := rfl
@[simp] theorem State.raised_regL (s : State) (k : BlockFault) : (s.raised k).regL = s.regL := rfl
@[simp] theorem State.raised_regR (s : State) (k : BlockFault) : (s.raised k).regR = s.regR := rfl
@[simp] theorem State.raised_crc (s : State) (k : BlockFault) : (s.raised k).crc = s.crc := rfl
@[simp] theorem State.raised_left (s : State) (k : BlockFault) : (s.raised k).left = s.left := rfl
@[simp] theorem State.raised_right (s : State) (k : BlockFault) : (s.raised k).right = s.right := rfl
@[simp] theorem State.raised_ck64 (s : State) (k : BlockFault) : (s.raised k).ck64 = s.ck64 := rfl
@[simp] theorem State.raised_cstored (s : State) (k : BlockFault) : (s.raised k).cstored = s.cstored := rfl
@[simp] theorem State.raised_hdr (s : State) (k : BlockFault) : (s.raised k).hdr = s.hdr := rfl
@[simp] theorem State.raised_dstart (s : State) (k : BlockFault) : (s.raised k).dstart = s.dstart := rfl
@[simp] theorem State.raised_dblen (s : State) (k : BlockFault) : (s.raised k).dblen = s.dblen := rfl
@[simp] theorem State.raised_ctlen (s : State) (k : BlockFault) : (s.raised k).ctlen = s.ctlen := rfl
@[simp] theorem State.raised_eblen (s : State) (k : BlockFault) : (s.raised k).eblen = s.eblen := rfl
@[simp] theorem State.raised_etn (s : State) (k : BlockFault) : (s.raised k).etn = s.etn := rfl
@[simp] theorem State.raised_imgMode (s : State) (k : BlockFault) : (s.raised k).imgMode = .closed := rfl
@[simp] theorem State.raised_dm (s : State) (k : BlockFault) : (s.raised k).dm = s.dm := rfl
@[simp] theorem State.raised_cb (s : State) (k : BlockFault) : (s.raised k).cb = s.cb := rfl
@[simp] theorem State.raised_eb (s : State) (k : BlockFault) : (s.raised k).eb = s.eb := rfl
@[simp] theorem State.raised_ct (s : State) (k : BlockFault) : (s.raised k).ct = s.ct := rfl
@[simp] theorem State.raised_db (s : State) (k : BlockFault) : (s.raised k).db = s.db := rfl
@[simp] theorem State.raised_ft (s : State) (k : BlockFault) : (s.raised k).ft = s.ft := rfl
@[simp] theorem State.raised_et (s : State) (k : BlockFault) : (s.raised k).et = s.et := rfl
@[simp] theorem State.raised_img (s : State) (k : BlockFault) : (s.raised k).img = s.img := rfl

/-! `State.started` -/

@[simp] theorem State.started_cfg (s : State) (v : W32) : (s.started v).cfg = s.cfg := rfl
@[simp] theorem State.started_dp (s : State) (v : W32) : (s.started v).dp = v := rfl
@[simp] theorem State.started_state (s : State) (v : W32) : (s.started v).state = .run := rfl
@[simp] theorem State.started_err (s : State) (v : W32) : (s.started v).err = 0#8 := rfl
@[simp] theorem State.started_einfo (s : State) (v : W32) : (s.started v).einfo = 0#32 := rfl
@[simp] theorem State.started_bo (s : State) (v : W32) : (s.started v).bo = s.bo := rfl
@[simp] theorem State.started_utot (s : State) (v : W32) : (s.started v).utot = s.utot := rfl
@[simp] theorem State.started_rv (s : State) (v : W32) : (s.started v).rv = s.rv := rfl
@[simp] theorem State.started_rb (s : State) (v : W32) : (s.started v).rb = s.rb := rfl
@[simp] theorem State.started_regL (s : State) (v : W32) : (s.started v).regL = s.regL := rfl
@[simp] theorem State.started_regR (s : State) (v : W32) : (s.started v).regR = s.regR := rfl
@[simp] theorem State.started_crc (s : State) (v : W32) : (s.started v).crc = s.crc := rfl
@[simp] theorem State.started_left (s : State) (v : W32) : (s.started v).left = s.left := rfl
@[simp] theorem State.started_right (s : State) (v : W32) : (s.started v).right = s.right := rfl
@[simp] theorem State.started_ck64 (s : State) (v : W32) : (s.started v).ck64 = s.ck64 := rfl
@[simp] theorem State.started_cstored (s : State) (v : W32) : (s.started v).cstored = s.cstored := rfl
@[simp] theorem State.started_hdr (s : State) (v : W32) : (s.started v).hdr = s.hdr := rfl
@[simp] theorem State.started_dstart (s : State) (v : W32) : (s.started v).dstart = s.dstart := rfl
@[simp] theorem State.started_dblen (s : State) (v : W32) : (s.started v).dblen = s.dblen := rfl
@[simp] theorem State.started_ctlen (s : State) (v : W32) : (s.started v).ctlen = s.ctlen := rfl
@[simp] theorem State.started_eblen (s : State) (v : W32) : (s.started v).eblen = s.eblen := rfl
@[simp] theorem State.started_etn (s : State) (v : W32) : (s.started v).etn = s.etn := rfl
@[simp] theorem State.started_imgMode (s : State) (v : W32) : (s.started v).imgMode = s.imgMode := rfl
@[simp] theorem State.started_dm (s : State) (v : W32) : (s.started v).dm = s.dm := rfl
@[simp] theorem State.started_cb (s : State) (v : W32) : (s.started v).cb = s.cb := rfl
@[simp] theorem State.started_eb (s : State) (v : W32) : (s.started v).eb = s.eb := rfl
@[simp] theorem State.started_ct (s : State) (v : W32) : (s.started v).ct = s.ct := rfl
@[simp] theorem State.started_db (s : State) (v : W32) : (s.started v).db = s.db := rfl
@[simp] theorem State.started_ft (s : State) (v : W32) : (s.started v).ft = s.ft := rfl
@[simp] theorem State.started_et (s : State) (v : W32) : (s.started v).et = s.et := rfl
@[simp] theorem State.started_img (s : State) (v : W32) : (s.started v).img = s.img := rfl

/-! `State.advance` -/

@[simp] theorem State.advance_cfg (s : State) (n : Nat) : (s.advance n).cfg = s.cfg := rfl
@[simp] theorem State.advance_dp (s : State) (n : Nat) : (s.advance n).dp = s.dp + BitVec.ofNat 32 n := rfl
@[simp] theorem State.advance_state (s : State) (n : Nat) : (s.advance n).state = s.state := rfl
@[simp] theorem State.advance_err (s : State) (n : Nat) : (s.advance n).err = s.err := rfl
@[simp] theorem State.advance_einfo (s : State) (n : Nat) : (s.advance n).einfo = s.einfo := rfl
@[simp] theorem State.advance_bo (s : State) (n : Nat) : (s.advance n).bo = s.bo := rfl
@[simp] theorem State.advance_utot (s : State) (n : Nat) : (s.advance n).utot = s.utot := rfl
@[simp] theorem State.advance_rv (s : State) (n : Nat) : (s.advance n).rv = s.rv := rfl
@[simp] theorem State.advance_rb (s : State) (n : Nat) : (s.advance n).rb = s.rb := rfl
@[simp] theorem State.advance_regL (s : State) (n : Nat) : (s.advance n).regL = s.regL := rfl
@[simp] theorem State.advance_regR (s : State) (n : Nat) : (s.advance n).regR = s.regR := rfl
@[simp] theorem State.advance_crc (s : State) (n : Nat) : (s.advance n).crc = s.crc := rfl
@[simp] theorem State.advance_left (s : State) (n : Nat) : (s.advance n).left = s.left := rfl
@[simp] theorem State.advance_right (s : State) (n : Nat) : (s.advance n).right = s.right := rfl
@[simp] theorem State.advance_ck64 (s : State) (n : Nat) : (s.advance n).ck64 = s.ck64 := rfl
@[simp] theorem State.advance_cstored (s : State) (n : Nat) : (s.advance n).cstored = s.cstored := rfl
@[simp] theorem State.advance_hdr (s : State) (n : Nat) : (s.advance n).hdr = s.hdr := rfl
@[simp] theorem State.advance_dstart (s : State) (n : Nat) : (s.advance n).dstart = s.dstart := rfl
@[simp] theorem State.advance_dblen (s : State) (n : Nat) : (s.advance n).dblen = s.dblen := rfl
@[simp] theorem State.advance_ctlen (s : State) (n : Nat) : (s.advance n).ctlen = s.ctlen := rfl
@[simp] theorem State.advance_eblen (s : State) (n : Nat) : (s.advance n).eblen = s.eblen := rfl
@[simp] theorem State.advance_etn (s : State) (n : Nat) : (s.advance n).etn = s.etn := rfl
@[simp] theorem State.advance_imgMode (s : State) (n : Nat) : (s.advance n).imgMode = s.imgMode := rfl
@[simp] theorem State.advance_dm (s : State) (n : Nat) : (s.advance n).dm = s.dm := rfl
@[simp] theorem State.advance_cb (s : State) (n : Nat) : (s.advance n).cb = s.cb := rfl
@[simp] theorem State.advance_eb (s : State) (n : Nat) : (s.advance n).eb = s.eb := rfl
@[simp] theorem State.advance_ct (s : State) (n : Nat) : (s.advance n).ct = s.ct := rfl
@[simp] theorem State.advance_db (s : State) (n : Nat) : (s.advance n).db = s.db := rfl
@[simp] theorem State.advance_ft (s : State) (n : Nat) : (s.advance n).ft = s.ft := rfl
@[simp] theorem State.advance_et (s : State) (n : Nat) : (s.advance n).et = s.et := rfl
@[simp] theorem State.advance_img (s : State) (n : Nat) : (s.advance n).img = s.img := rfl

/-! `State.openImage` -/

@[simp] theorem State.openImage_cfg (s : State) (m : ImgMode) : (s.openImage m).cfg = s.cfg := rfl
@[simp] theorem State.openImage_dp (s : State) (m : ImgMode) : (s.openImage m).dp = s.dp := rfl
@[simp] theorem State.openImage_state (s : State) (m : ImgMode) : (s.openImage m).state = s.state := rfl
@[simp] theorem State.openImage_err (s : State) (m : ImgMode) : (s.openImage m).err = s.err := rfl
@[simp] theorem State.openImage_einfo (s : State) (m : ImgMode) : (s.openImage m).einfo = s.einfo := rfl
@[simp] theorem State.openImage_bo (s : State) (m : ImgMode) : (s.openImage m).bo = s.bo := rfl
@[simp] theorem State.openImage_utot (s : State) (m : ImgMode) : (s.openImage m).utot = s.utot := rfl
@[simp] theorem State.openImage_rv (s : State) (m : ImgMode) : (s.openImage m).rv = s.rv := rfl
@[simp] theorem State.openImage_rb (s : State) (m : ImgMode) : (s.openImage m).rb = s.rb := rfl
@[simp] theorem State.openImage_regL (s : State) (m : ImgMode) : (s.openImage m).regL = s.regL := rfl
@[simp] theorem State.openImage_regR (s : State) (m : ImgMode) : (s.openImage m).regR = s.regR := rfl
@[simp] theorem State.openImage_crc (s : State) (m : ImgMode) : (s.openImage m).crc = s.crc := rfl
@[simp] theorem State.openImage_left (s : State) (m : ImgMode) : (s.openImage m).left = s.left := rfl
@[simp] theorem State.openImage_right (s : State) (m : ImgMode) : (s.openImage m).right = s.right := rfl
@[simp] theorem State.openImage_ck64 (s : State) (m : ImgMode) : (s.openImage m).ck64 = s.ck64 := rfl
@[simp] theorem State.openImage_cstored (s : State) (m : ImgMode) : (s.openImage m).cstored = s.cstored := rfl
@[simp] theorem State.openImage_hdr (s : State) (m : ImgMode) : (s.openImage m).hdr = s.hdr := rfl
@[simp] theorem State.openImage_dstart (s : State) (m : ImgMode) : (s.openImage m).dstart = s.dstart := rfl
@[simp] theorem State.openImage_dblen (s : State) (m : ImgMode) : (s.openImage m).dblen = s.dblen := rfl
@[simp] theorem State.openImage_ctlen (s : State) (m : ImgMode) : (s.openImage m).ctlen = s.ctlen := rfl
@[simp] theorem State.openImage_eblen (s : State) (m : ImgMode) : (s.openImage m).eblen = s.eblen := rfl
@[simp] theorem State.openImage_etn (s : State) (m : ImgMode) : (s.openImage m).etn = s.etn := rfl
@[simp] theorem State.openImage_imgMode (s : State) (m : ImgMode) : (s.openImage m).imgMode = m := rfl
@[simp] theorem State.openImage_dm (s : State) (m : ImgMode) : (s.openImage m).dm = s.dm := rfl
@[simp] theorem State.openImage_cb (s : State) (m : ImgMode) : (s.openImage m).cb = s.cb := rfl
@[simp] theorem State.openImage_eb (s : State) (m : ImgMode) : (s.openImage m).eb = s.eb := rfl
@[simp] theorem State.openImage_ct (s : State) (m : ImgMode) : (s.openImage m).ct = s.ct := rfl
@[simp] theorem State.openImage_db (s : State) (m : ImgMode) : (s.openImage m).db = s.db := rfl
@[simp] theorem State.openImage_ft (s : State) (m : ImgMode) : (s.openImage m).ft = s.ft := rfl
@[simp] theorem State.openImage_et (s : State) (m : ImgMode) : (s.openImage m).et = s.et := rfl
@[simp] theorem State.openImage_img (s : State) (m : ImgMode) : (s.openImage m).img = s.img := rfl

/-! `State.closeImage` -/

@[simp] theorem State.closeImage_cfg (s : State) : s.closeImage.cfg = s.cfg := rfl
@[simp] theorem State.closeImage_dp (s : State) : s.closeImage.dp = s.dp := rfl
@[simp] theorem State.closeImage_state (s : State) : s.closeImage.state = s.state := rfl
@[simp] theorem State.closeImage_err (s : State) : s.closeImage.err = s.err := rfl
@[simp] theorem State.closeImage_einfo (s : State) : s.closeImage.einfo = s.einfo := rfl
@[simp] theorem State.closeImage_bo (s : State) : s.closeImage.bo = s.bo := rfl
@[simp] theorem State.closeImage_utot (s : State) : s.closeImage.utot = s.utot := rfl
@[simp] theorem State.closeImage_rv (s : State) : s.closeImage.rv = s.rv := rfl
@[simp] theorem State.closeImage_rb (s : State) : s.closeImage.rb = s.rb := rfl
@[simp] theorem State.closeImage_regL (s : State) : s.closeImage.regL = s.regL := rfl
@[simp] theorem State.closeImage_regR (s : State) : s.closeImage.regR = s.regR := rfl
@[simp] theorem State.closeImage_crc (s : State) : s.closeImage.crc = s.crc := rfl
@[simp] theorem State.closeImage_left (s : State) : s.closeImage.left = s.left := rfl
@[simp] theorem State.closeImage_right (s : State) : s.closeImage.right = s.right := rfl
@[simp] theorem State.closeImage_ck64 (s : State) : s.closeImage.ck64 = s.ck64 := rfl
@[simp] theorem State.closeImage_cstored (s : State) : s.closeImage.cstored = s.cstored := rfl
@[simp] theorem State.closeImage_hdr (s : State) : s.closeImage.hdr = s.hdr := rfl
@[simp] theorem State.closeImage_dstart (s : State) : s.closeImage.dstart = s.dstart := rfl
@[simp] theorem State.closeImage_dblen (s : State) : s.closeImage.dblen = s.dblen := rfl
@[simp] theorem State.closeImage_ctlen (s : State) : s.closeImage.ctlen = s.ctlen := rfl
@[simp] theorem State.closeImage_eblen (s : State) : s.closeImage.eblen = s.eblen := rfl
@[simp] theorem State.closeImage_etn (s : State) : s.closeImage.etn = s.etn := rfl
@[simp] theorem State.closeImage_imgMode (s : State) : s.closeImage.imgMode = .closed := rfl
@[simp] theorem State.closeImage_dm (s : State) : s.closeImage.dm = s.dm := rfl
@[simp] theorem State.closeImage_cb (s : State) : s.closeImage.cb = s.cb := rfl
@[simp] theorem State.closeImage_eb (s : State) : s.closeImage.eb = s.eb := rfl
@[simp] theorem State.closeImage_ct (s : State) : s.closeImage.ct = s.ct := rfl
@[simp] theorem State.closeImage_db (s : State) : s.closeImage.db = s.db := rfl
@[simp] theorem State.closeImage_ft (s : State) : s.closeImage.ft = s.ft := rfl
@[simp] theorem State.closeImage_et (s : State) : s.closeImage.et = s.et := rfl
@[simp] theorem State.closeImage_img (s : State) : s.closeImage.img = s.img := rfl

/-! `State.withXf` -/

@[simp] theorem State.withXf_cfg (s : State) (x : W16) : (s.withXf x).cfg = s.cfg := rfl
@[simp] theorem State.withXf_dp (s : State) (x : W16) : (s.withXf x).dp = s.dp := rfl
@[simp] theorem State.withXf_state (s : State) (x : W16) : (s.withXf x).state = s.state := rfl
@[simp] theorem State.withXf_err (s : State) (x : W16) : (s.withXf x).err = s.err := rfl
@[simp] theorem State.withXf_einfo (s : State) (x : W16) : (s.withXf x).einfo = s.einfo := rfl
@[simp] theorem State.withXf_bo (s : State) (x : W16) : (s.withXf x).bo = s.bo := rfl
@[simp] theorem State.withXf_utot (s : State) (x : W16) : (s.withXf x).utot = s.utot := rfl
@[simp] theorem State.withXf_rv (s : State) (x : W16) : (s.withXf x).rv = s.rv := rfl
@[simp] theorem State.withXf_rb (s : State) (x : W16) : (s.withXf x).rb = s.rb := rfl
@[simp] theorem State.withXf_regL (s : State) (x : W16) : (s.withXf x).regL = s.regL := rfl
@[simp] theorem State.withXf_regR (s : State) (x : W16) : (s.withXf x).regR = s.regR := rfl
@[simp] theorem State.withXf_crc (s : State) (x : W16) : (s.withXf x).crc = s.crc := rfl
@[simp] theorem State.withXf_left (s : State) (x : W16) : (s.withXf x).left = xfLeft s.cfg x := rfl
@[simp] theorem State.withXf_right (s : State) (x : W16) : (s.withXf x).right = xfRight s.cfg x := rfl
@[simp] theorem State.withXf_ck64 (s : State) (x : W16) : (s.withXf x).ck64 = xfCk s.cfg x := rfl
@[simp] theorem State.withXf_cstored (s : State) (x : W16) : (s.withXf x).cstored = s.cstored := rfl
@[simp] theorem State.withXf_hdr (s : State) (x : W16) : (s.withXf x).hdr = s.hdr := rfl
@[simp] theorem State.withXf_dstart (s : State) (x : W16) : (s.withXf x).dstart = s.dstart := rfl
@[simp] theorem State.withXf_dblen (s : State) (x : W16) : (s.withXf x).dblen = s.dblen := rfl
@[simp] theorem State.withXf_ctlen (s : State) (x : W16) : (s.withXf x).ctlen = s.ctlen := rfl
@[simp] theorem State.withXf_eblen (s : State) (x : W16) : (s.withXf x).eblen = s.eblen := rfl
@[simp] theorem State.withXf_etn (s : State) (x : W16) : (s.withXf x).etn = s.etn := rfl
@[simp] theorem State.withXf_imgMode (s : State) (x : W16) : (s.withXf x).imgMode = s.imgMode := rfl
@[simp] theorem State.withXf_dm (s : State) (x : W16) : (s.withXf x).dm = s.dm := rfl
@[simp] theorem State.withXf_cb (s : State) (x : W16) : (s.withXf x).cb = s.cb := rfl
@[simp] theorem State.withXf_eb (s : State) (x : W16) : (s.withXf x).eb = s.eb := rfl
@[simp] theorem State.withXf_ct (s : State) (x : W16) : (s.withXf x).ct = s.ct := rfl
@[simp] theorem State.withXf_db (s : State) (x : W16) : (s.withXf x).db = s.db := rfl
@[simp] theorem State.withXf_ft (s : State) (x : W16) : (s.withXf x).ft = s.ft := rfl
@[simp] theorem State.withXf_et (s : State) (x : W16) : (s.withXf x).et = s.et := rfl
@[simp] theorem State.withXf_img (s : State) (x : W16) : (s.withXf x).img = s.img := rfl

/-! `State.withEntries` -/

@[simp] theorem State.withEntries_cfg (s : State) (es : List DirEntry) : (s.withEntries es).cfg = s.cfg := rfl
@[simp] theorem State.withEntries_dp (s : State) (es : List DirEntry) : (s.withEntries es).dp = s.dp := rfl
@[simp] theorem State.withEntries_state (s : State) (es : List DirEntry) : (s.withEntries es).state = s.state := rfl
@[simp] theorem State.withEntries_err (s : State) (es : List DirEntry) : (s.withEntries es).err = s.err := rfl
@[simp] theorem State.withEntries_einfo (s : State) (es : List DirEntry) : (s.withEntries es).einfo = s.einfo := rfl
@[simp] theorem State.withEntries_bo (s : State) (es : List DirEntry) : (s.withEntries es).bo = s.bo := rfl
@[simp] theorem State.withEntries_utot (s : State) (es : List DirEntry) : (s.withEntries es).utot = s.utot := rfl
@[simp] theorem State.withEntries_rv (s : State) (es : List DirEntry) : (s.withEntries es).rv = s.rv := rfl
@[simp] theorem State.withEntries_rb (s : State) (es : List DirEntry) : (s.withEntries es).rb = s.rb := rfl
@[simp] theorem State.withEntries_regL (s : State) (es : List DirEntry) : (s.withEntries es).regL = s.regL := rfl
@[simp] theorem State.withEntries_regR (s : State) (es : List DirEntry) : (s.withEntries es).regR = s.regR := rfl
@[simp] theorem State.withEntries_crc (s : State) (es : List DirEntry) : (s.withEntries es).crc = s.crc := rfl
@[simp] theorem State.withEntries_left (s : State) (es : List DirEntry) : (s.withEntries es).left = s.left := rfl
@[simp] theorem State.withEntries_right (s : State) (es : List DirEntry) : (s.withEntries es).right = s.right := rfl
@[simp] theorem State.withEntries_ck64 (s : State) (es : List DirEntry) : (s.withEntries es).ck64 = s.ck64 := rfl
@[simp] theorem State.withEntries_cstored (s : State) (es : List DirEntry) : (s.withEntries es).cstored = s.cstored := rfl
@[simp] theorem State.withEntries_hdr (s : State) (es : List DirEntry) : (s.withEntries es).hdr = s.hdr := rfl
@[simp] theorem State.withEntries_dstart (s : State) (es : List DirEntry) : (s.withEntries es).dstart = s.dstart := rfl
@[simp] theorem State.withEntries_dblen (s : State) (es : List DirEntry) : (s.withEntries es).dblen = s.dblen := rfl
@[simp] theorem State.withEntries_ctlen (s : State) (es : List DirEntry) : (s.withEntries es).ctlen = s.ctlen := rfl
@[simp] theorem State.withEntries_eblen (s : State) (es : List DirEntry) : (s.withEntries es).eblen = s.eblen := rfl
@[simp] theorem State.withEntries_etn (s : State) (es : List DirEntry) : (s.withEntries es).etn = BitVec.ofNat 32 es.length := rfl
@[simp] theorem State.withEntries_imgMode (s : State) (es : List DirEntry) : (s.withEntries es).imgMode = s.imgMode := rfl
@[simp] theorem State.withEntries_dm (s : State) (es : List DirEntry) : (s.withEntries es).dm = s.dm := rfl
@[simp] theorem State.withEntries_cb (s : State) (es : List DirEntry) : (s.withEntries es).cb = s.cb := rfl
@[simp] theorem State.withEntries_eb (s : State) (es : List DirEntry) : (s.withEntries es).eb = s.eb := rfl
@[simp] theorem State.withEntries_ct (s : State) (es : List DirEntry) : (s.withEntries es).ct = s.ct := rfl
@[simp] theorem State.withEntries_db (s : State) (es : List DirEntry) : (s.withEntries es).db = s.db := rfl
@[simp] theorem State.withEntries_ft (s : State) (es : List DirEntry) : (s.withEntries es).ft = s.ft := rfl
@[simp] theorem State.withEntries_et (s : State) (es : List DirEntry) : (s.withEntries es).et = writeEntries s.et 0 es := rfl
@[simp] theorem State.withEntries_img (s : State) (es : List DirEntry) : (s.withEntries es).img = s.img := rfl

end Sys2Proof.Machine
end

