-- ==== Sys2Proof/Laws/Exec.lean ====
section
/-! SUPPORT. What a check, a completion, an instruction and a step can do, said once. -/

namespace Sys2Proof.Machine

theorem require_pos {c : Prop} [Decidable c] (k : BlockFault) (s : State) (r : Result) (h : c) :
    require c k s r = r := if_pos h

theorem require_neg {c : Prop} [Decidable c] (k : BlockFault) (s : State) (r : Result) (h : ¬ c) :
    require c k s r = .next (s.raised k) := if_neg h

theorem require_next {c : Prop} [Decidable c] {k : BlockFault} {s t : State} {r : Result}
    (h : require c k s r = .next t) : (c ∧ r = .next t) ∨ (¬ c ∧ t = s.raised k) := by
  by_cases hc : c
  · exact .inl ⟨hc, by rwa [require_pos _ _ _ hc] at h⟩
  · rw [require_neg _ _ _ hc] at h
    exact .inr ⟨hc, (Host.Outcome.next.inj h).symm⟩

theorem complete_next {i : Instr} {s t : State} : complete i s = .next t ↔ t = s.advance i.size :=
  ⟨fun h => (Host.Outcome.next.inj h).symm, fun h => h ▸ rfl⟩

theorem raise_next {k : BlockFault} {s t : State} : raise k s = .next t ↔ t = s.raised k :=
  ⟨fun h => (Host.Outcome.next.inj h).symm, fun h => h ▸ rfl⟩

/-- Opening the image handle before a fault leaves no trace (R183, R262). -/
@[simp] theorem State.raised_openImage (s : State) (m : ImgMode) (k : BlockFault) :
    (s.openImage m).raised k = s.raised k := rfl

/-- What it is for instruction `i` to complete from `s` to `t`: its checks hold and its effects took place. -/
def Completed (s t : State) : Instr → Prop
  | .endRun => t = { s with state := .done }
  | .rd len => lenBits len ≤ 64 ∧ s.bo.toNat + lenBits len ≤ 8 * s.dblen.toNat ∧
      t = State.advance { s with
        rv := readField s.db s.bo.toNat (lenBits len) (lenSigned len)
        rb := BitVec.ofNat 32 (ceil8 (lenBits len))
        bo := s.bo + BitVec.ofNat 32 (lenBits len) } 2
  | .unpack tb lens => (∀ l ∈ lens, lenBits l ≤ 64) ∧ s.ft.length + lens.length ≤ s.cfg.ftMax ∧
      s.bo.toNat + totalBits lens ≤ 8 * s.dblen.toNat ∧
      t = State.advance { s with
        ft := s.ft ++ unpackRecords s.db s.bo lens
        bo := s.bo + BitVec.ofNat 32 (totalBits lens)
        utot := s.utot + BitVec.ofNat 32 (max (totalByteLen lens) tb.toNat) } (2 + lens.length)
  | .unpacks tb => tb.toNat ≤ s.cfg.strMax ∧ s.ft.length + 1 ≤ s.cfg.ftMax ∧
      s.bo.toNat + 8 * tb.toNat ≤ 8 * s.dblen.toNat ∧
      t = State.advance { s with
        ft := s.ft ++ [FtRecord.str s.bo (readByteGroups s.db s.bo.toNat tb.toNat)]
        bo := s.bo + BitVec.ofNat 32 (8 * tb.toNat)
        utot := s.utot + tb } 2
  | .skip a b => t = State.advance { s with bo := a, utot := s.utot + b } 3
  | .align b => t = State.advance { s with utot := s.utot + b } 2
  | .seek a => t = State.advance { s with bo := a } 2
  | .padchk a n => a.toNat + n.toNat ≤ s.cfg.cbLen ∧ s.bo.toNat + 8 * n.toNat ≤ 8 * s.dblen.toNat ∧
      readByteGroups s.db s.bo.toNat n.toNat = readBytes s.cb a.toNat n.toNat ∧
      t = State.advance { s with bo := s.bo + BitVec.ofNat 32 (8 * n.toNat), utot := s.utot + n } 3
  | .patch idx =>
      (∃ n sg off v, s.ft[idx.toNat]? = some (.int n sg off v) ∧ inRange n sg v = true ∧
        off.toNat + n ≤ 8 * s.dblen.toNat ∧ t = State.advance { s with db := putBits s.db off.toNat n v } 2) ∨
      (∃ off bs, s.ft[idx.toNat]? = some (.str off bs) ∧ off.toNat + 8 * bs.length ≤ 8 * s.dblen.toNat ∧
        t = State.advance { s with db := putByteGroups s.db off.toNat bs } 2)
  | .encw => t = State.advance { s with
      regL := (encrypt s.cfg (s.regL, s.regR)).1, regR := (encrypt s.cfg (s.regL, s.regR)).2 } 1
  | .decw => t = State.advance { s with
      regL := (decrypt s.cfg (s.regL, s.regR)).1, regR := (decrypt s.cfg (s.regL, s.regR)).2 } 1
  | .enc => s.dblen.toNat % 8 = 0 ∧ s.dblen.toNat ≤ s.cfg.ctCap ∧
      t = State.advance { s with
        ct := mapBlocks (encBlock s.cfg) s.db 0 (s.dblen.toNat / 8) s.ct, ctlen := s.dblen } 1
  | .dec => s.ctlen.toNat % 8 = 0 ∧ s.ctlen.toNat ≤ s.cfg.dbCap ∧
      t = State.advance { s with
        db := mapBlocks (decBlock s.cfg) s.ct 0 (s.ctlen.toNat / 8) s.db, dblen := s.ctlen } 1
  | .crcinit => t = State.advance { s with crc := 0xFFFF#16 } 1
  | .crcupd off n => off.toNat + n.toNat ≤ s.ctlen.toNat ∧
      t = State.advance { s with crc := crcRun s.cfg s.crc (readBytes s.ct off.toNat n.toNat) } 3
  | .crcfin => t = State.advance { s with crc := s.crc ^^^ 0xFFFF#16 } 1
  | .ckxf => t = State.advance (s.withXf s.crc) 1
  | .ckgen => t = State.advance { s.withXf (crc16 s.cfg s.ciphertext) with
      crc := crc16 s.cfg s.ciphertext, cstored := xfCk s.cfg (crc16 s.cfg s.ciphertext) } 1
  | .ckvfy => xfCk s.cfg (crc16 s.cfg s.ciphertext) = s.cstored ∧
      t = State.advance { s.withXf (crc16 s.cfg s.ciphertext) with crc := crc16 s.cfg s.ciphertext } 1
  | .fatget cl => cl.toNat < s.cfg.nClusters ∧
      t = State.advance { s with rv := (fatValue s.cfg s.img cl.toNat).zeroExtend 64, imgMode := .closed } 2
  | .rdchain idx => idx.toNat < s.etn.toNat ∧ (readEntry s.et idx.toNat).length.toNat ≤ s.cfg.ebCap ∧
      ∃ data, readChain s.cfg s.img (readEntry s.et idx.toNat) = .ok data ∧
        t = State.advance { s with
          eb := writeBytes s.eb 0 data, eblen := (readEntry s.et idx.toNat).length, imgMode := .closed } 2
  | .wrchain idx => idx.toNat < s.etn.toNat ∧
      ∃ cls, walk s.cfg s.img (readEntry s.et idx.toNat).cluster = .ok cls ∧
        s.eblen.toNat ≤ cls.length * s.cfg.clusterSize ∧
        t = State.advance { s with
          img := writeChain s.cfg s.img cls (readBytes s.eb 0 s.eblen.toNat), imgMode := .closed } 2
  | .eccgen off => off.toNat + 128 ≤ s.eblen.toNat ∧
      t = State.advance { s with
        rv := ((ecc128 s.cfg (readBytes s.eb off.toNat 128)).2.2 ++ (ecc128 s.cfg (readBytes s.eb off.toNat 128)).2.1 ++
          (ecc128 s.cfg (readBytes s.eb off.toNat 128)).1 : BitVec 24).zeroExtend 64
        rb := 3#32 } 2
  | .eccchk p => s.cfg.hasSpare = true ∧ p.toNat < s.cfg.nPages ∧ firstBadChunk s.cfg s.img p.toNat = none ∧
      t = State.advance { s with imgMode := .closed } 2
  | .lsroot => ∃ es, dirList s.cfg s.img (rootEntry s.cfg s.img) = .ok es ∧ es.length ≤ s.cfg.etMax ∧
      t = State.advance (s.withEntries es).closeImage 1
  | .lookup a n => a.toNat + n.toNat ≤ s.cfg.cbLen ∧
      ∃ roots h es, dirList s.cfg s.img (rootEntry s.cfg s.img) = .ok roots ∧
        roots.find? (fun d => decide (d.name = readBytes s.cb a.toNat n.toNat)) = some h ∧
        dirList s.cfg s.img h = .ok es ∧ es.length ≤ s.cfg.etMax ∧ t = State.advance (s.withEntries es).closeImage 3
  | .split => s.eblen.toNat = s.cfg.contLen ∧ (le32 s.eb 0).toNat = 2 * s.cfg.halfLen ∧
      t = State.advance { s with
        hdr := le32 s.eb 0
        ct := writeBytes (writeBytes s.ct 0 (readBytes s.eb s.cfg.offA s.cfg.halfLen)) s.cfg.halfLen
          (readBytes s.eb s.cfg.offB s.cfg.halfLen)
        cstored := le64 s.eb s.cfg.offCk
        ctlen := BitVec.ofNat 32 (2 * s.cfg.halfLen) } 1
  | .join => s.ctlen.toNat = 2 * s.cfg.halfLen ∧
      t = State.advance { s with eb := joinInto s s.eb, eblen := BitVec.ofNat 32 s.cfg.contLen } 1
  | .dstart => 4 ≤ s.dblen.toNat ∧ (dataStart s.db).toNat ≤ s.dblen.toNat ∧
      t = State.advance { s with dstart := dataStart s.db, bo := BitVec.ofNat 32 (8 * (dataStart s.db).toNat) } 1

/-- What an instruction can do: it raises a fault, or it completes. -/
theorem exec_cases (i : Instr) (s t : State) (h : exec i s = .next t) :
    (∃ k, t = s.raised k) ∨ Completed s t i := by
  cases i with
  | endRun => exact .inr (Host.Outcome.next.inj h).symm
  | rd len =>
    rcases require_next h with ⟨h1, h⟩ | ⟨_, h⟩
    · rcases require_next h with ⟨h2, h⟩ | ⟨_, h⟩
      · exact .inr ⟨h1, h2, complete_next.1 h⟩
      · exact .inl ⟨_, h⟩
    · exact .inl ⟨_, h⟩
  | unpack tb lens =>
    rcases require_next h with ⟨h1, h⟩ | ⟨_, h⟩
    · rcases require_next h with ⟨h2, h⟩ | ⟨_, h⟩
      · rcases require_next h with ⟨h3, h⟩ | ⟨_, h⟩
        · exact .inr ⟨by simpa using h1, h2, h3, complete_next.1 h⟩
        · exact .inl ⟨_, h⟩
      · exact .inl ⟨_, h⟩
    · exact .inl ⟨_, h⟩
  | unpacks tb =>
    rcases require_next h with ⟨h1, h⟩ | ⟨_, h⟩
    · rcases require_next h with ⟨h2, h⟩ | ⟨_, h⟩
      · exact .inr ⟨h1.1, h1.2, h2, complete_next.1 h⟩
      · exact .inl ⟨_, h⟩
    · exact .inl ⟨_, h⟩
  | skip a b => exact .inr (complete_next.1 h)
  | align b => exact .inr (complete_next.1 h)
  | seek a => exact .inr (complete_next.1 h)
  | padchk a n =>
    rcases require_next h with ⟨h1, h⟩ | ⟨_, h⟩
    · rcases require_next h with ⟨h2, h⟩ | ⟨_, h⟩
      · rcases require_next h with ⟨h3, h⟩ | ⟨_, h⟩
        · exact .inr ⟨h1, h2, h3, complete_next.1 h⟩
        · exact .inl ⟨_, h⟩
      · exact .inl ⟨_, h⟩
    · exact .inl ⟨_, h⟩
  | patch idx =>
    change execPatch idx s = .next t at h
    unfold execPatch at h
    split at h
    · exact .inl ⟨_, raise_next.1 h⟩
    · rename_i n sg off v hf
      rcases require_next h with ⟨h1, h⟩ | ⟨_, h⟩
      · rcases require_next h with ⟨h2, h⟩ | ⟨_, h⟩
        · exact .inr (.inl ⟨n, sg, off, v, hf, h1, h2, complete_next.1 h⟩)
        · exact .inl ⟨_, h⟩
      · exact .inl ⟨_, h⟩
    · rename_i off bs hf
      rcases require_next h with ⟨h1, h⟩ | ⟨_, h⟩
      · exact .inr (.inr ⟨off, bs, hf, h1, complete_next.1 h⟩)
      · exact .inl ⟨_, h⟩
  | encw => exact .inr (complete_next.1 h)
  | decw => exact .inr (complete_next.1 h)
  | enc =>
    rcases require_next h with ⟨h1, h⟩ | ⟨_, h⟩
    · rcases require_next h with ⟨h2, h⟩ | ⟨_, h⟩
      · exact .inr ⟨h1, h2, complete_next.1 h⟩
      · exact .inl ⟨_, h⟩
    · exact .inl ⟨_, h⟩
  | dec =>
    rcases require_next h with ⟨h1, h⟩ | ⟨_, h⟩
    · rcases require_next h with ⟨h2, h⟩ | ⟨_, h⟩
      · exact .inr ⟨h1, h2, complete_next.1 h⟩
      · exact .inl ⟨_, h⟩
    · exact .inl ⟨_, h⟩
  | crcinit => exact .inr (complete_next.1 h)
  | crcupd off n =>
    rcases require_next h with ⟨h1, h⟩ | ⟨_, h⟩
    · exact .inr ⟨h1, complete_next.1 h⟩
    · exact .inl ⟨_, h⟩
  | crcfin => exact .inr (complete_next.1 h)
  | ckxf => exact .inr (complete_next.1 h)
  | ckgen => exact .inr (complete_next.1 h)
  | ckvfy =>
    rcases require_next h with ⟨h1, h⟩ | ⟨_, h⟩
    · exact .inr ⟨h1, complete_next.1 h⟩
    · exact .inl ⟨_, h⟩
  | fatget cl =>
    rcases require_next h with ⟨h1, h⟩ | ⟨_, h⟩
    · exact .inr ⟨h1, complete_next.1 h⟩
    · exact .inl ⟨_, h⟩
  | rdchain idx =>
    rcases require_next h with ⟨h1, h⟩ | ⟨_, h⟩
    · rcases require_next h with ⟨h2, h⟩ | ⟨_, h⟩
      · dsimp only at h
        split at h
        · exact .inl ⟨_, raise_next.1 h⟩
        · rename_i data hd
          exact .inr ⟨h1, h2, data, hd, complete_next.1 h⟩
      · exact .inl ⟨_, h⟩
    · exact .inl ⟨_, h⟩
  | wrchain idx =>
    rcases require_next h with ⟨h1, h⟩ | ⟨_, h⟩
    · split at h
      · exact .inl ⟨_, raise_next.1 h⟩
      · rename_i cls hw
        rcases require_next h with ⟨h2, h⟩ | ⟨_, h⟩
        · exact .inr ⟨h1, cls, hw, h2, complete_next.1 h⟩
        · exact .inl ⟨_, h⟩
    · exact .inl ⟨_, h⟩
  | eccgen off =>
    rcases require_next h with ⟨h1, h⟩ | ⟨_, h⟩
    · exact .inr ⟨h1, complete_next.1 h⟩
    · exact .inl ⟨_, h⟩
  | eccchk p =>
    rcases require_next h with ⟨h1, h⟩ | ⟨_, h⟩
    · split at h
      · exact .inl ⟨_, raise_next.1 h⟩
      · rename_i hb
        exact .inr ⟨h1.1, h1.2, hb, complete_next.1 h⟩
    · exact .inl ⟨_, h⟩
  | lsroot =>
    change execLsroot s = .next t at h
    unfold execLsroot at h
    dsimp only at h
    split at h
    · exact .inl ⟨_, raise_next.1 h⟩
    · rename_i es hd
      rcases require_next h with ⟨h1, h⟩ | ⟨_, h⟩
      · exact .inr ⟨es, hd, h1, complete_next.1 h⟩
      · exact .inl ⟨_, h⟩
  | lookup a n =>
    rcases require_next h with ⟨h1, h⟩ | ⟨_, h⟩
    · split at h
      · exact .inl ⟨_, raise_next.1 h⟩
      · rename_i roots hr
        split at h
        · exact .inl ⟨_, raise_next.1 h⟩
        · rename_i e he
          split at h
          · exact .inl ⟨_, raise_next.1 h⟩
          · rename_i es hes
            rcases require_next h with ⟨h2, h⟩ | ⟨_, h⟩
            · exact .inr ⟨h1, roots, e, es, hr, he, hes, h2, complete_next.1 h⟩
            · exact .inl ⟨_, h⟩
    · exact .inl ⟨_, h⟩
  | split =>
    rcases require_next h with ⟨h1, h⟩ | ⟨_, h⟩
    · rcases require_next h with ⟨h2, h⟩ | ⟨_, h⟩
      · exact .inr ⟨h1, h2, complete_next.1 h⟩
      · exact .inl ⟨_, h⟩
    · exact .inl ⟨_, h⟩
  | join =>
    rcases require_next h with ⟨h1, h⟩ | ⟨_, h⟩
    · exact .inr ⟨h1, complete_next.1 h⟩
    · exact .inl ⟨_, h⟩
  | dstart =>
    rcases require_next h with ⟨h1, h⟩ | ⟨_, h⟩
    · rcases require_next h with ⟨h2, h⟩ | ⟨_, h⟩
      · exact .inr ⟨h1, h2, complete_next.1 h⟩
      · exact .inl ⟨_, h⟩
    · exact .inl ⟨_, h⟩

/-- What a step can do: nothing outside `RUN`; in `RUN`, a decode fault or what the decoded instruction does. -/
theorem step_cases (s t : State) (h : step s = .next t) :
    (s.state ≠ .run ∧ t = s) ∨
    (s.state = .run ∧ ∃ e, decode (fetchWords s) = .error e ∧ t = s.raised (.illegalDescriptor e.info)) ∨
    (s.state = .run ∧ ∃ i rest, decode (fetchWords s) = .ok (i, rest) ∧ exec i s = .next t) := by
  unfold step at h
  split at h
  · rename_i hs
    split at h
    · rename_i i rest hd
      exact .inr (.inr ⟨hs, i, rest, hd, h⟩)
    · rename_i e hd
      exact .inr (.inl ⟨hs, e, hd, raise_next.1 h⟩)
  all_goals
    rename_i hs
    exact .inl ⟨by simp [hs], (Host.Outcome.next.inj h).symm⟩

/-- The code of a fault is one of 1 to 8 (R260). -/
theorem code_range (k : BlockFault) : 1 ≤ k.code.toNat ∧ k.code.toNat ≤ 8 := by cases k <;> simp [BlockFault.code]

/-- What every completion but `END`'s leaves: the run goes on, `dp` has moved past the instruction, and neither the
configuration nor `DM` nor `CB` has changed. -/
theorem Completed.frame {s t : State} {i : Instr} (h : Completed s t i) (hi : i ≠ .endRun) :
    t.state = s.state ∧ t.dp = s.dp + BitVec.ofNat 32 i.size ∧ t.cfg = s.cfg ∧ t.dm = s.dm ∧ t.cb = s.cb ∧
      t.err = s.err ∧ t.einfo = s.einfo := by
  cases i <;> simp only [Completed] at h
  case endRun => exact absurd rfl hi
  case patch =>
    rcases h with ⟨_, _, _, _, _, _, _, h⟩ | ⟨_, _, _, _, h⟩ <;> subst h <;> exact ⟨rfl, rfl, rfl, rfl, rfl, rfl, rfl⟩
  case lookup => obtain ⟨_, _, _, _, _, _, _, _, h⟩ := h; subst h; exact ⟨rfl, rfl, rfl, rfl, rfl, rfl, rfl⟩
  case unpack | unpacks | padchk | rdchain | eccchk =>
    first
      | (obtain ⟨_, _, _, h⟩ := h; subst h; exact ⟨rfl, rfl, rfl, rfl, rfl, rfl, rfl⟩)
      | (obtain ⟨_, _, _, _, h⟩ := h; subst h; exact ⟨rfl, rfl, rfl, rfl, rfl, rfl, rfl⟩)
  case wrchain => obtain ⟨_, _, _, _, h⟩ := h; subst h; exact ⟨rfl, rfl, rfl, rfl, rfl, rfl, rfl⟩
  case lsroot => obtain ⟨_, _, _, h⟩ := h; subst h; exact ⟨rfl, rfl, rfl, rfl, rfl, rfl, rfl⟩
  all_goals first
    | (subst h; exact ⟨rfl, rfl, rfl, rfl, rfl, rfl, rfl⟩)
    | (obtain ⟨_, h⟩ := h; subst h; exact ⟨rfl, rfl, rfl, rfl, rfl, rfl, rfl⟩)
    | (obtain ⟨_, _, h⟩ := h; subst h; exact ⟨rfl, rfl, rfl, rfl, rfl, rfl, rfl⟩)

end Sys2Proof.Machine
end

