-- ==== Sys2Proof/Laws/File.lean ====
section
/-! SUPPORT. Where the bytes of a file stand in the image (20_memory.md R72; 43_filesystem.md R180, R184), and one comparison
of `ECCCHK` (R200). -/

namespace Sys2Proof.Machine

/-- The default `ClusterFirstPage` of R8 gives no page to two clusters. -/
theorem clustersShareNoPage_of_linear {c : Config} {off : Nat} (h : c.firstPage = .linear off) : ClustersShareNoPage c := by
  have first : ∀ k, c.clusterFirstPage k = (off + k) * c.ppc := fun k => by unfold ConfigData.clusterFirstPage; rw [h]
  have back : ∀ k q, q < c.ppc → (c.clusterFirstPage k + q) / c.ppc = off + k := fun k q hq => by
    rw [first, Nat.mul_comm, Nat.mul_add_div c.one_le_ppc, Nat.div_eq_of_lt hq]; rfl
  intro k k' q q' _ _ hq hq' he
  have := back k q hq
  rw [he, back k' q' hq'] at this
  omega

/-- Byte `i` of the data of `n` pages. -/
theorem getElem?_pagesData (c : Config) (img : Memory) (n : Nat) : ∀ (p i : Nat), i < n * c.pageSize →
    (pagesData c img p n)[i]? = some (readByte img (c.pageAddr (p + i / c.pageSize) + i % c.pageSize)) := by
  induction n with
  | zero => intro p i h; omega
  | succ n ih =>
    intro p i h
    rw [pagesData]
    have hps : 0 < c.pageSize := by
      rcases Nat.eq_zero_or_pos c.pageSize with h0 | h0
      · rw [h0] at h; omega
      · exact h0
    by_cases hi : i < c.pageSize
    · rw [List.getElem?_append_left (by simpa using hi), pageData, getElem?_readBytes, if_pos hi, Nat.div_eq_of_lt hi, Nat.mod_eq_of_lt hi]; rfl
    · have hi := Nat.le_of_not_lt hi
      rw [List.getElem?_append_right (by simpa using hi), length_pageData, ih]
      · rw [Nat.mod_eq_sub_mod hi, Nat.div_eq_sub_div hps hi, show p + ((i - c.pageSize) / c.pageSize + 1) = p + 1 + (i - c.pageSize) / c.pageSize by omega]
      · rw [Nat.succ_mul] at h; omega

/-- Byte `i` of the data of a chain is the byte of the image at `fileByteAddr` (R184). -/
theorem getElem?_chainData (c : Config) (img : Memory) (cls : List W32) : ∀ (i : Nat), i < cls.length * c.clusterSize →
    (chainData c img cls)[i]? = some (readByte img (fileByteAddr c cls i)) := by
  induction cls with
  | nil => intro i h; simp at h
  | cons cl cls ih =>
    intro i h
    have hcs : 0 < c.clusterSize := by
      rcases Nat.eq_zero_or_pos c.clusterSize with h0 | h0
      · rw [h0] at h; simp at h
      · exact h0
    rw [chainData]
    by_cases hi : i < c.clusterSize
    · rw [List.getElem?_append_left (by simpa using hi), clusterData, getElem?_pagesData]
      · unfold fileByteAddr
        rw [Nat.div_eq_of_lt hi, Nat.mod_eq_of_lt hi]; rfl
      · have : c.clusterSize = c.ppc * c.pageSize := Nat.mul_comm _ _
        omega
    · have hi := Nat.le_of_not_lt hi
      rw [List.getElem?_append_right (by simpa using hi), length_clusterData, ih]
      · unfold fileByteAddr
        rw [Nat.mod_eq_sub_mod hi, Nat.div_eq_sub_div hcs hi, List.getD_cons_succ]
        have : i % c.pageSize = (i - c.clusterSize) % c.pageSize := by
          have e : i = (i - c.clusterSize) + c.pageSize * c.ppc := by
            have : c.clusterSize = c.pageSize * c.ppc := rfl
            omega
          conv_lhs => rw [e]
          rw [Nat.add_mul_mod_self_left]
        rw [this]
      · simp only [List.length_cons, Nat.succ_mul] at h; omega

/-- A part of what a range read gives is a range read. -/
theorem readBytes_drop_take (m : Memory) (a n k j : Nat) (h : k + j ≤ n) : ((readBytes m a n).drop k).take j = readBytes m (a + k) j := by
  apply List.ext_getElem?
  intro i
  rw [List.getElem?_take, List.getElem?_drop, getElem?_readBytes, getElem?_readBytes]
  by_cases hi : i < j
  · rw [if_pos hi, if_pos (by omega), if_pos hi, Nat.add_assoc]
  · rw [if_neg hi, if_neg hi]

/-- The comparison of `ECCCHK` for one sub-chunk (R200), in addresses of the image. -/
theorem subChunk_code_iff (c : Config) (img : Memory) (p k : Nat) (hs : c.hasSpare = true) (hk : k < c.nch) :
    (eccBytes c (subChunk (pageData c img p) k) = ((pageSpare c img p).drop (3 * k)).take 3) ↔
    eccBytes c (readBytes img (c.pageAddr p + 128 * k) 128) = readBytes img (c.pageAddr p + c.pageSize + 3 * k) 3 := by
  have h1 := c.pageSize_eq
  have h2 := c.spare_room hs
  unfold subChunk pageData pageSpare
  rw [readBytes_drop_take _ _ _ _ _ (by omega), readBytes_drop_take _ _ _ _ _ (by omega)]

end Sys2Proof.Machine
end

