-- ==== Sys2Proof/Laws/HostPort.lean ====
section
/-! SUPPORT. What a write of the host does, in a run and outside one (45_sequencer.md R245, R248). -/

namespace Sys2Proof.Machine

@[simp] theorem unlessRunning_run {s t : State} (h : s.state = .run) : unlessRunning s t = s := if_pos h

@[simp] theorem unlessRunning_idle {s t : State} (h : s.state ≠ .run) : unlessRunning s t = t := if_neg h

/-- A name that fits and every other field is written; a name that does not fit is discarded (R34). -/
theorem EntryWrite.fits_iff (n : Nat) (w : EntryWrite) : w.fits n = true ↔ ¬ ∃ bs, w = .name bs ∧ n < bs.length := by
  cases w <;> simp [fits]

/-- A field written keeps the bound on names. -/
theorem EntryWrite.name_apply_le {n : Nat} {w : EntryWrite} {e : DirEntry} (hw : w.fits n = true) (he : e.name.length ≤ n) :
    (w.apply e).name.length ≤ n := by
  cases w with
  | name bs => exact of_decide_eq_true hw
  | _ => exact he

theorem hostWriteEt_eq {s : State} {i : Nat} {w : EntryWrite} (h : s.state ≠ .run) (hi : i < s.cfg.etMax)
    (hw : w.fits s.cfg.nameMax = true) :
    hostWriteEt s i w = { s with et := writeEntry s.et i (w.apply (readEntry s.et i)) } := by
  rw [hostWriteEt, unlessRunning_idle h, if_pos ⟨hi, hw⟩]

theorem hostWriteEt_discarded {s : State} {i : Nat} {w : EntryWrite} (h : ¬ (i < s.cfg.etMax ∧ w.fits s.cfg.nameMax = true)) :
    hostWriteEt s i w = s := by
  rw [hostWriteEt, if_neg h]; exact ite_self s

theorem hostWriteFtValue_eq {s : State} {i : Nat} {v : W64} (h : s.state ≠ .run) :
    hostWriteFtValue s i v = { s with ft := s.ft.modify i (FtRecord.withValue v) } := unlessRunning_idle h

theorem hostWriteFtByte_eq {s : State} {i j : Nat} {b : Byte} (h : s.state ≠ .run) :
    hostWriteFtByte s i j b = { s with ft := s.ft.modify i (FtRecord.withByte j b) } := unlessRunning_idle h

end Sys2Proof.Machine
end

