-- ==== Sys2Proof/Laws/PerInstr.lean ====
section
/-! SUPPORT. A fact about every instruction as syntax, one lemma per constructor: an instruction is encoded in as many words
as its size says (30_encoding.md R93). -/

namespace Sys2Proof.Laws

def EncodedSize.Statement (i : Instr) : Prop := (encode i).length = i.size

theorem EncodedSize.endRun : EncodedSize.Statement (.endRun) := rfl

theorem EncodedSize.rd (len : W32) : EncodedSize.Statement (.rd len) := rfl

theorem EncodedSize.unpack (totalBytes : W32) (lens : List W32) : EncodedSize.Statement (.unpack totalBytes lens) := by
  show (totalBytes :: lens).length + 1 = 2 + lens.length
  simp only [List.length_cons]; omega

theorem EncodedSize.unpacks (totalBytes : W32) : EncodedSize.Statement (.unpacks totalBytes) := rfl

theorem EncodedSize.skip (newBo : W32) (totalBytes : W32) : EncodedSize.Statement (.skip newBo totalBytes) := rfl

theorem EncodedSize.align (totalBytes : W32) : EncodedSize.Statement (.align totalBytes) := rfl

theorem EncodedSize.seek (newBo : W32) : EncodedSize.Statement (.seek newBo) := rfl

theorem EncodedSize.padchk (cbAddr : W32) (len : W32) : EncodedSize.Statement (.padchk cbAddr len) := rfl

theorem EncodedSize.patch (ftIdx : W32) : EncodedSize.Statement (.patch ftIdx) := rfl

theorem EncodedSize.encw : EncodedSize.Statement (.encw) := rfl

theorem EncodedSize.decw : EncodedSize.Statement (.decw) := rfl

theorem EncodedSize.enc : EncodedSize.Statement (.enc) := rfl

theorem EncodedSize.dec : EncodedSize.Statement (.dec) := rfl

theorem EncodedSize.crcinit : EncodedSize.Statement (.crcinit) := rfl

theorem EncodedSize.crcupd (off : W32) (len : W32) : EncodedSize.Statement (.crcupd off len) := rfl

theorem EncodedSize.crcfin : EncodedSize.Statement (.crcfin) := rfl

theorem EncodedSize.ckxf : EncodedSize.Statement (.ckxf) := rfl

theorem EncodedSize.ckgen : EncodedSize.Statement (.ckgen) := rfl

theorem EncodedSize.ckvfy : EncodedSize.Statement (.ckvfy) := rfl

theorem EncodedSize.fatget (cluster : W32) : EncodedSize.Statement (.fatget cluster) := rfl

theorem EncodedSize.rdchain (etIdx : W32) : EncodedSize.Statement (.rdchain etIdx) := rfl

theorem EncodedSize.wrchain (etIdx : W32) : EncodedSize.Statement (.wrchain etIdx) := rfl

theorem EncodedSize.eccgen (ebOff : W32) : EncodedSize.Statement (.eccgen ebOff) := rfl

theorem EncodedSize.eccchk (page : W32) : EncodedSize.Statement (.eccchk page) := rfl

theorem EncodedSize.lsroot : EncodedSize.Statement (.lsroot) := rfl

theorem EncodedSize.lookup (cbAddr : W32) (len : W32) : EncodedSize.Statement (.lookup cbAddr len) := rfl

theorem EncodedSize.split : EncodedSize.Statement (.split) := rfl

theorem EncodedSize.join : EncodedSize.Statement (.join) := rfl

theorem EncodedSize.dstart : EncodedSize.Statement (.dstart) := rfl

end Sys2Proof.Laws
end

