-- ==== Sys2Proof/Laws/Words.lean ====
section
/-! SUPPORT. Little-endian words in byte memories (00_scope.md R12) and the block loop of the cipher (41_cipher.md R146). -/

namespace Sys2Proof.Machine

@[simp] theorem length_bytesOf32 (w : W32) : (bytesOf32 w).length = 4 := rfl
@[simp] theorem length_bytesOf64 (w : W64) : (bytesOf64 w).length = 8 := rfl

theorem le32_congr {m m' : Memory} {a : Nat} (h : ∀ i, i < 4 → readByte m (a + i) = readByte m' (a + i)) :
    le32 m a = le32 m' a := by
  have h0 := h 0 (by omega)
  rw [Nat.add_zero] at h0
  unfold le32
  rw [h0, h 1 (by omega), h 2 (by omega), h 3 (by omega)]

/-- The four bytes a word was put together from. -/
theorem bytes_of_append (b0 b1 b2 b3 : Byte) : bytesOf32 (b3 ++ b2 ++ b1 ++ b0 : BitVec 32) = [b0, b1, b2, b3] := by
  unfold bytesOf32
  refine congrArg₂ _ ?_ (congrArg₂ _ ?_ (congrArg₂ _ ?_ (congrArg₂ _ ?_ rfl))) <;>
  · apply BitVec.eq_of_getLsbD_eq
    intro i hi
    simp only [BitVec.getLsbD_extractLsb', hi, decide_true, Bool.true_and, BitVec.getLsbD_append]
    repeat' split
    all_goals first
      | omega
      | rfl
      | (congr 1; omega)

/-- A word is put together from its four bytes. -/
theorem append_of_bytes (w : W32) :
    (w.extractLsb' 24 8 ++ w.extractLsb' 16 8 ++ w.extractLsb' 8 8 ++ w.extractLsb' 0 8 : BitVec 32) = w := by
  apply BitVec.eq_of_getLsbD_eq
  intro i hi
  simp only [BitVec.getLsbD_extractLsb', BitVec.getLsbD_append]
  repeat' split
  · rename_i h; simp only [h, decide_true, Bool.true_and, Nat.zero_add]
  · rename_i h1 h; simp only [h, decide_true, Bool.true_and]; congr 1; omega
  · rename_i h2 h1 h; simp only [h, decide_true, Bool.true_and]; congr 1; omega
  · rename_i h2 h1 h
    have h3 : i - 8 - 8 - 8 < 8 := by omega
    simp only [h3, decide_true, Bool.true_and]; congr 1; omega

theorem bytesOf32_le32 (m : Memory) (a : Nat) :
    bytesOf32 (le32 m a) = [readByte m a, readByte m (a + 1), readByte m (a + 2), readByte m (a + 3)] :=
  bytes_of_append _ _ _ _

theorem readByte_putLe32_other (m : Memory) (a b : Nat) (w : W32) (h : b < a ∨ a + 4 ≤ b) :
    readByte (putLe32 m a w) b = readByte m b := by
  rw [putLe32, readByte_writeBytes, if_neg]
  simp only [length_bytesOf32]; omega

theorem readByte_putLe32 (m : Memory) (a i : Nat) (w : W32) (h : i < 4) :
    readByte (putLe32 m a w) (a + i) = (bytesOf32 w).getD i 0#8 := by
  rw [putLe32, readByte_writeBytes, if_pos (by simp only [length_bytesOf32]; omega), Nat.add_sub_cancel_left]

/-- `PutLE32` makes `LE32` read the word back. -/
theorem le32_putLe32 (m : Memory) (a : Nat) (w : W32) : le32 (putLe32 m a w) a = w := by
  have h0 := readByte_putLe32 m a 0 w (by omega)
  rw [Nat.add_zero] at h0
  unfold le32
  rw [h0, readByte_putLe32 m a 1 w (by omega), readByte_putLe32 m a 2 w (by omega), readByte_putLe32 m a 3 w (by omega)]
  exact append_of_bytes w

theorem le32_putLe32_other (m : Memory) (a b : Nat) (w : W32) (h : b + 4 ≤ a ∨ a + 4 ≤ b) :
    le32 (putLe32 m a w) b = le32 m b :=
  le32_congr fun i hi => readByte_putLe32_other m a (b + i) w (by omega)

theorem putLe64_eq (m : Memory) (a : Nat) (w : W64) :
    putLe64 m a w = putLe32 (putLe32 m a (w.extractLsb' 0 32)) (a + 4) (w.extractLsb' 32 32) := by
  have app : ∀ (xs ys : List Byte) (m : Memory) (a : Nat),
      writeBytes m a (xs ++ ys) = writeBytes (writeBytes m a xs) (a + xs.length) ys := by
    intro xs
    induction xs with
    | nil => intro ys m a; rfl
    | cons x xs ih =>
      intro ys m a
      have := ih ys (writeByte m a x) (a + 1)
      simp only [List.length_cons]
      rw [show a + (xs.length + 1) = a + 1 + xs.length by omega]
      exact this
  unfold putLe64 bytesOf64
  rw [app]; rfl

theorem readByte_putLe64_other (m : Memory) (a b : Nat) (w : W64) (h : b < a ∨ a + 8 ≤ b) :
    readByte (putLe64 m a w) b = readByte m b := by
  rw [putLe64_eq, readByte_putLe32_other _ _ _ _ (by omega), readByte_putLe32_other _ _ _ _ (by omega)]

/-- A 64-bit word is put together from its two halves. -/
theorem append_of_halves (w : W64) : (w.extractLsb' 32 32 ++ w.extractLsb' 0 32 : BitVec 64) = w := by
  apply BitVec.eq_of_getLsbD_eq
  intro i hi
  simp only [BitVec.getLsbD_extractLsb', BitVec.getLsbD_append]
  split
  · rename_i h; simp [h]
  · have h1 : 32 + (i - 32) = i := by omega
    have h2 : i - 32 < 32 := by omega
    simp [h1, h2]

theorem extract_append_lo (x y : W32) : (x ++ y : BitVec 64).extractLsb' 0 32 = y := by
  apply BitVec.eq_of_getLsbD_eq
  intro i hi
  rw [BitVec.getLsbD_extractLsb', Nat.zero_add]
  erw [BitVec.getLsbD_append]
  simp only [hi, decide_true, Bool.true_and, if_true]

theorem extract_append_hi (x y : W32) : (x ++ y : BitVec 64).extractLsb' 32 32 = x := by
  apply BitVec.eq_of_getLsbD_eq
  intro i hi
  have h1 : ¬ (32 + i < 32) := by omega
  have h2 : 32 + i - 32 = i := by omega
  rw [BitVec.getLsbD_extractLsb']
  erw [BitVec.getLsbD_append]
  simp only [hi, h1, h2, decide_true, Bool.true_and, if_false]

/-- `PutLE64` makes `LE64` read the word back. -/
theorem le64_putLe64 (m : Memory) (a : Nat) (w : W64) : le64 (putLe64 m a w) a = w := by
  rw [putLe64_eq]
  unfold le64
  rw [le32_putLe32, le32_putLe32_other _ _ _ _ (by omega), le32_putLe32]
  exact append_of_halves w

theorem le64_congr {m m' : Memory} {a : Nat} (h : ∀ i, i < 8 → readByte m (a + i) = readByte m' (a + i)) :
    le64 m a = le64 m' a := by
  have h0 : le32 m a = le32 m' a := le32_congr fun i hi => h i (by omega)
  have h1 : le32 m (a + 4) = le32 m' (a + 4) :=
    le32_congr fun i hi => by rw [Nat.add_assoc]; exact h (4 + i) (by omega)
  unfold le64
  rw [h0, h1]

theorem putLe32_wf {m : Memory} (a : Nat) (w : W32) (h : Memory.wf m) : Memory.wf (putLe32 m a w) := writeBytes_wf _ _ h
theorem putLe64_wf {m : Memory} (a : Nat) (w : W64) (h : Memory.wf m) : Memory.wf (putLe64 m a w) := writeBytes_wf _ _ h

theorem putLe32_below {m : Memory} {a n : Nat} (w : W32) (ha : a + 4 ≤ n) (h : Store.below m n) :
    Store.below (putLe32 m a w) n := writeBytes_below (by simpa using ha) h
theorem putLe64_below {m : Memory} {a n : Nat} (w : W64) (ha : a + 8 ≤ n) (h : Store.below m n) :
    Store.below (putLe64 m a w) n := writeBytes_below (by simpa using ha) h

/-! ## The block loop -/

/-- The block loop leaves every byte outside its blocks. -/
theorem readByte_mapBlocks_other (f : W32 × W32 → W32 × W32) (src : Memory) (n : Nat) :
    ∀ (k a : Nat) (dst : Memory), a < k ∨ k + 8 * n ≤ a → readByte (mapBlocks f src k n dst) a = readByte dst a := by
  induction n with
  | zero => intro k a dst _; rfl
  | succ n ih =>
    intro k a dst h
    rw [mapBlocks, ih _ _ _ (by omega), readByte_putLe32_other _ _ _ _ (by omega),
      readByte_putLe32_other _ _ _ _ (by omega)]

/-- The block loop leaves in its `j`-th block what the function makes of the `j`-th block of its source. -/
theorem le32_mapBlocks (f : W32 × W32 → W32 × W32) (src : Memory) (n : Nat) :
    ∀ (k j : Nat) (dst : Memory), j < n →
      le32 (mapBlocks f src k n dst) (k + 8 * j) = (f (le32 src (k + 8 * j), le32 src (k + 8 * j + 4))).1 ∧
      le32 (mapBlocks f src k n dst) (k + 8 * j + 4) = (f (le32 src (k + 8 * j), le32 src (k + 8 * j + 4))).2 := by
  induction n with
  | zero => intro k j dst h; omega
  | succ n ih =>
    intro k j dst h
    rw [mapBlocks]
    cases j with
    | zero =>
      simp only [Nat.mul_zero, Nat.add_zero]
      exact ⟨(le32_congr fun i hi => readByte_mapBlocks_other f src n (k + 8) (k + i) _ (by omega)).trans
          ((le32_putLe32_other _ _ _ _ (by omega)).trans (le32_putLe32 _ _ _)),
        (le32_congr fun i hi => readByte_mapBlocks_other f src n (k + 8) (k + 4 + i) _ (by omega)).trans
          (le32_putLe32 _ _ _)⟩
    | succ j =>
      have := ih (k + 8) j (putLe32 (putLe32 dst k (f (le32 src k, le32 src (k + 4))).1) (k + 4)
        (f (le32 src k, le32 src (k + 4))).2) (by omega)
      rw [show k + 8 * (j + 1) = k + 8 + 8 * j by omega]
      exact this

theorem mapBlocks_wf (f : W32 × W32 → W32 × W32) (src : Memory) (n : Nat) :
    ∀ (k : Nat) {dst : Memory}, Memory.wf dst → Memory.wf (mapBlocks f src k n dst) := by
  induction n with
  | zero => intro k dst h; exact h
  | succ n ih => intro k dst h; exact ih _ (putLe32_wf _ _ (putLe32_wf _ _ h))

theorem mapBlocks_below (f : W32 × W32 → W32 × W32) (src : Memory) (n : Nat) :
    ∀ (k : Nat) {dst : Memory} {c : Nat}, k + 8 * n ≤ c → Store.below dst c → Store.below (mapBlocks f src k n dst) c := by
  induction n with
  | zero => intro k dst c _ h; exact h
  | succ n ih =>
    intro k dst c hc h
    exact ih _ (by omega) (putLe32_below _ (by omega) (putLe32_below _ (by omega) h))

end Sys2Proof.Machine
end

