-- ==== Sys2Proof/Tests/Slice0.lean ====
section
/-! SUPPORT. Tests: the words of every constructor, one or two steps of every descriptor against values of
spec/95_test_vectors.md, and a witness for the hypotheses of every statement of Certificates/Slice0/Obligations.lean. -/

namespace Sys2Proof.Tests

-- One kernel evaluation at a time.
set_option Elab.async false

open Sys2Proof Sys2Proof.Machine

/-! ## Well-formedness -/

/-- R90: `cnt` is a field of 16 bits; 65536 lengths do not fit it. -/
theorem test_wellFormed_refuses_long_unpack :
    (Instr.unpack 0#32 (List.replicate 65536 0#32)).wellFormed = false := by
  rw [Instr.wellFormed, List.length_replicate]; rfl

theorem witness_DecodeOfEncode :
    (Instr.unpack 0#32 (List.replicate 65535 0#32)).wellFormed = true := by
  rw [Instr.wellFormed, List.length_replicate]; rfl

/-! ## Decoding: words written out from R90 to R95 -/

/-- Does the decoder read exactly this instruction from these words? -/
def reads (ws : List W32) (i : Instr) : Bool :=
  match decode ws with
  | .ok (j, []) => decide (j = i)
  | .ok (_, _ :: _) => false
  | .error _ => false

/-- Does the decoder reject these words for this reason? -/
def rejects (ws : List W32) (e : DecodeError) : Bool :=
  match decode ws with
  | .ok _ => false
  | .error e' => decide (e' = e)

theorem test_decode_end : reads [0x00000000#32] .endRun = true := by decide
theorem test_decode_rd : reads [0x00000010#32, 0xFFFFFFFA#32] (.rd 0xFFFFFFFA#32) = true := by decide
theorem test_decode_unpack :
    reads [0x00030011#32, 9#32, 4#32, 0xFFFFFFFA#32, 2#32] (.unpack 9#32 [4#32, 0xFFFFFFFA#32, 2#32]) = true := by decide
theorem test_decode_unpacks : reads [0x00000012#32, 3#32] (.unpacks 3#32) = true := by decide
theorem test_decode_skip : reads [0x00000013#32, 0x28#32, 7#32] (.skip 0x28#32 7#32) = true := by decide
theorem test_decode_align : reads [0x00000014#32, 5#32] (.align 5#32) = true := by decide
theorem test_decode_seek : reads [0x00000015#32, 3#32] (.seek 3#32) = true := by decide
theorem test_decode_padchk : reads [0x00000016#32, 0#32, 4#32] (.padchk 0#32 4#32) = true := by decide
theorem test_decode_patch : reads [0x00000017#32, 6#32] (.patch 6#32) = true := by decide
theorem test_decode_encw : reads [0x00000020#32] .encw = true := by decide
theorem test_decode_decw : reads [0x00000021#32] .decw = true := by decide
theorem test_decode_enc : reads [0x00000022#32] .enc = true := by decide
theorem test_decode_dec : reads [0x00000023#32] .dec = true := by decide
theorem test_decode_crcinit : reads [0x00000030#32] .crcinit = true := by decide
theorem test_decode_crcupd : reads [0x00000031#32, 4#32, 5#32] (.crcupd 4#32 5#32) = true := by decide
theorem test_decode_crcfin : reads [0x00000032#32] .crcfin = true := by decide
theorem test_decode_ckxf : reads [0x00000033#32] .ckxf = true := by decide
theorem test_decode_ckgen : reads [0x00000034#32] .ckgen = true := by decide
theorem test_decode_ckvfy : reads [0x00000035#32] .ckvfy = true := by decide
theorem test_decode_fatget : reads [0x00000040#32, 5#32] (.fatget 5#32) = true := by decide
theorem test_decode_rdchain : reads [0x00000041#32, 1#32] (.rdchain 1#32) = true := by decide
theorem test_decode_wrchain : reads [0x00000042#32, 1#32] (.wrchain 1#32) = true := by decide
theorem test_decode_eccgen : reads [0x00000043#32, 128#32] (.eccgen 128#32) = true := by decide
theorem test_decode_eccchk : reads [0x00000044#32, 3#32] (.eccchk 3#32) = true := by decide
theorem test_decode_lsroot : reads [0x00000045#32] .lsroot = true := by decide
theorem test_decode_lookup : reads [0x00000046#32, 8#32, 6#32] (.lookup 8#32 6#32) = true := by decide
theorem test_decode_split : reads [0x00000050#32] .split = true := by decide
theorem test_decode_join : reads [0x00000051#32] .join = true := by decide
theorem test_decode_dstart : reads [0x00000052#32] .dstart = true := by decide

/-- V60. -/
theorem test_decode_rejects :
    rejects [] .noHead && rejects [0x000000FF#32] .unknownOp && rejects [0x00000018#32, 0#32] .unknownOp &&
    rejects [0x00000110#32, 5#32] .reservedField && rejects [0x00010010#32, 5#32] .reservedField &&
    rejects [0x00000010#32] .operandsMissing && rejects [0x00020011#32, 0#32, 4#32] .operandsMissing &&
    rejects [0x00000113#32] .reservedField = true := by decide

/-- R63: bytes of a program, least significant byte of a word first; trailing bytes are dropped. -/
theorem test_decode_bytes :
    wordsOfBytes [0x11#8, 0x00#8, 0x06#8, 0x00#8, 0x08#8, 0#8, 0#8, 0#8, 0xAA#8] = [0x00060011#32, 8#32] := by decide

/-- The host's question on a word of the opcode table, with every operand word 0 and with a whole operand given. -/
theorem test_decodeTableWord :
    decodeTableWord 32 0x13 = some (.skip 0#32 0#32) ∧ decodeTableWord 32 0x00020011 = some (.unpack 0#32 [0#32, 0#32]) ∧
    decodeTableWord 64 0xFFFFFFFB00000010 = some (.rd 0xFFFFFFFB#32) ∧ decodeTableWord 32 0x18 = none := by decide

/-! ## One step on a small state -/

/-- What a test asks of the state an instruction leads to. -/
def leaves (i : Instr) (s : State) (p : State → Bool) : Bool :=
  match exec i s with
  | .next t => p t
  | .fault _ => false
  | .refused _ => false

/-- Did the run end in a fault with this code and information word, `dp` where it was? -/
def faulted (code : Byte) (info : W32) (s t : State) : Bool :=
  decide (t.state = .fault ∧ t.err = code ∧ t.einfo = info ∧ t.dp = s.dp ∧ t.imgMode = .closed)

/-- The reset state in a run. -/
def running : State := { State.reset with state := .run }

/-- A run with these bytes in `DB`. -/
def withDb (bs : List Byte) : State := { running with db := writeBytes [] 0 bs, dblen := BitVec.ofNat 32 bs.length }

/-- A run with these bytes in `CT`. -/
def withCt (bs : List Byte) : State := { running with ct := writeBytes [] 0 bs, ctlen := BitVec.ofNat 32 bs.length }

/-- A run with these bytes in `EB`. -/
def withEb (bs : List Byte) : State := { running with eb := writeBytes [] 0 bs, eblen := BitVec.ofNat 32 bs.length }

/-- V1's buffer. -/
def dbV1 : List Byte := [0xF5#8, 0x80#8, 0x1A#8, 0xBC#8]

/-- V1, row 1. -/
theorem test_rd_signed : leaves (.rd 0xFFFFFFFB#32) (withDb dbV1)
    (fun t => decide (t.rv = 0xFE#64 ∧ t.rb = 1#32 ∧ t.bo = 5#32 ∧ t.dp = 2#32)) = true := by decide +kernel
/-- V1, row 7: the field crosses two byte boundaries. -/
theorem test_rd_crosses_bytes : leaves (.rd 10#32) { withDb dbV1 with bo := 7#32 }
    (fun t => decide (t.rv = 0x300#64 ∧ t.rb = 2#32 ∧ t.bo = 17#32)) = true := by decide +kernel
/-- V7. -/
theorem test_unpack : leaves (.unpack 2#32 [4#32, 4#32, 5#32, 3#32]) (withDb [0x1F#8, 0x23#8])
    (fun t => decide (t.ft = [.int 4 false 0#32 1#64, .int 4 false 4#32 15#64, .int 5 false 8#32 4#64,
      .int 3 false 13#32 3#64] ∧ t.bo = 16#32 ∧ t.utot = 4#32 ∧ t.dp = 6#32)) = true := by decide +kernel
/-- V5: 26 bits do not fit 16. -/
theorem test_unpack_truncated : leaves (.unpack 0#32 [14#32, 4#32, 5#32, 3#32]) (withDb [0x1F#8, 0x23#8])
    (fun t => faulted 3#8 0#32 running t && decide (t.ft = [] ∧ t.utot = 0#32)) = true := by decide +kernel
/-- V9. -/
theorem test_unpacks : leaves (.unpacks 2#32) { withDb (dbV1 ++ [0x41#8, 0x42#8]) with bo := 3#32 }
    (fun t => decide (t.ft = [.str 3#32 [0xAC#8, 0x00#8]] ∧ t.bo = 19#32 ∧ t.utot = 2#32)) = true := by decide +kernel
/-- V9. -/
theorem test_skip : leaves (.skip 40#32 7#32) { running with bo := 19#32, utot := 2#32 }
    (fun t => decide (t.bo = 40#32 ∧ t.utot = 9#32 ∧ t.dp = 3#32)) = true := by decide
/-- V9. -/
theorem test_align : leaves (.align 5#32) { running with bo := 40#32, utot := 9#32 }
    (fun t => decide (t.bo = 40#32 ∧ t.utot = 14#32)) = true := by decide
/-- V9. -/
theorem test_seek : leaves (.seek 3#32) { running with utot := 1#32 }
    (fun t => decide (t.bo = 3#32 ∧ t.utot = 1#32)) = true := by decide
/-- The example of R120. -/
def padState (last : Byte) : State :=
  { withDb [0#8, 0xDE#8, 0xAD#8, 0xBE#8, 0xEF#8] with
    bo := 8#32, cb := writeBytes [] 0 [0xDE#8, 0xAD#8, 0xBE#8, last] }
theorem test_padchk : leaves (.padchk 0#32 4#32) (padState 0xEF#8)
    (fun t => decide (t.bo = 40#32 ∧ t.utot = 4#32 ∧ t.ft = [])) = true := by decide +kernel
theorem test_padchk_mismatch : leaves (.padchk 0#32 4#32) (padState 0xEE#8)
    (fun t => faulted 1#8 3#32 running t && decide (t.bo = 8#32 ∧ t.utot = 0#32)) = true := by decide +kernel
/-- V8: the record of a 5-bit signed field. -/
theorem test_patch_signed : leaves (.patch 0#32) { withDb [0xAA#8, 0x55#8] with ft := [.int 5 true 3#32 0xFE#64] }
    (fun t => decide (readBytes t.db 0 2 = [0xBE#8, 0x55#8])) = true := by decide +kernel
/-- V8: a field over three bytes. -/
theorem test_patch_three_bytes : leaves (.patch 0#32) { withDb [0xFF#8, 0xFF#8, 0xFF#8] with ft := [.int 7 false 6#32 0#64] }
    (fun t => decide (readBytes t.db 0 3 = [0xFC#8, 0x07#8, 0xFF#8])) = true := by decide +kernel
/-- V4. -/
theorem test_inRange : (inRange 5 false 0x1F#64 && inRange 5 true 0x0F#64 && inRange 5 true 0xF0#64 &&
    inRange 12 true 0xF801#64 && inRange 8 true 0x80#64 && inRange 0 true 0#64 && inRange 64 false (-1#64)) = true ∧
    (inRange 5 false 0x20#64 || inRange 5 true 0x10#64 || inRange 5 true 0xEF#64 || inRange 5 true 0x1F0#64 ||
    inRange 12 true 0x0801#64 || inRange 8 true 0x100#64 || inRange 0 false 1#64) = false := by decide +kernel
/-- V22. -/
theorem test_encw : leaves .encw { running with regL := 0x01234567#32, regR := 0x89ABCDEF#32 }
    (fun t => decide (t.regL = 0x5ABCB563#32 ∧ t.regR = 0x574BEB5B#32)) = true := by decide +kernel
/-- V22. -/
theorem test_decw : leaves .decw { running with regL := 0x574BEB5B#32, regR := 0x5ABCB563#32 }
    (fun t => decide (t.regL = 0x89ABCDEF#32 ∧ t.regR = 0x01234567#32)) = true := by decide +kernel
/-- V23: eight zero bytes, and their ciphertext. -/
def ctV23 : List Byte := [0x49#8, 0x18#8, 0x2A#8, 0x4F#8, 0x44#8, 0x78#8, 0xFB#8, 0x5F#8]
theorem test_enc : leaves .enc (withDb (List.replicate 8 0#8))
    (fun t => decide (readBytes t.ct 0 8 = ctV23 ∧ t.ctlen = 8#32)) = true := by decide +kernel
theorem test_dec : leaves .dec (withCt ctV23)
    (fun t => decide (readBytes t.db 0 8 = List.replicate 8 0#8 ∧ t.dblen = 8#32)) = true := by decide +kernel
/-- R161. -/
theorem test_crcinit : leaves .crcinit running (fun t => decide (t.crc = 0xFFFF#16)) = true := by decide
/-- V30: the accumulator after the byte 31H. -/
theorem test_crcupd : leaves (.crcupd 0#32 1#32) { withCt [0x31#8, 0x32#8] with crc := 0xFFFF#16 }
    (fun t => decide (t.crc = 0x2F8D#16 ∧ t.dp = 3#32)) = true := by decide +kernel
/-- V30: the inversion, on the accumulator of the byte 00H. -/
theorem test_crcfin : leaves .crcfin { running with crc := 0x0F87#16 }
    (fun t => decide (t.crc = 0xF078#16)) = true := by decide
/-- V30. -/
theorem test_ckxf : leaves .ckxf { running with crc := 0x906E#16 }
    (fun t => decide (t.left = 0x010591CF#32 ∧ t.right = 0x12529A7E#32 ∧ t.ck64 = 0x12529A7E010591CF#64)) = true := by
  decide +kernel
/-- V30 with `CKGEN`. -/
theorem test_ckgen : leaves .ckgen (withCt [0x01#8])
    (fun t => decide (t.crc = 0xE1F1#16 ∧ t.cstored = 0x1252BBFB0105C1D5#64 ∧ t.ck64 = t.cstored)) = true := by
  decide +kernel
/-- V33: the stored value with one bit changed, and as it should be. -/
theorem test_ckvfy : leaves .ckvfy { withCt [0x01#8] with cstored := 0x1252BBFB0105C1D5#64 }
      (fun t => decide (t.crc = 0xE1F1#16 ∧ t.left = 0x0105C1D5#32 ∧ t.state = .run)) = true ∧
    leaves .ckvfy { withCt [0x01#8] with cstored := 0x9252BBFB0105C1D5#64 }
      (fun t => faulted 1#8 2#32 running t && decide (t.crc = 0#16)) = true := by decide +kernel

/-! ### A card -/

/-- Program C's FAT. -/
def fatC : List Byte :=
  [0xFF#8, 0xFF#8, 0xFF#8, 0xFF#8] ++ [0xFF#8, 0xFF#8, 0xFF#8, 0xFF#8] ++ [5#8, 0#8, 0#8, 0#8] ++
  [0xFF#8, 0xFF#8, 0xFF#8, 0xFF#8] ++ [0xFF#8, 0xFF#8, 0xFF#8, 0xFF#8] ++ [1#8, 0#8, 0#8, 0#8]

/-- A directory record of R10. -/
def dirRecord (flags cluster length : Byte) (lengthHi : Byte) (name : List Byte) : List Byte :=
  [flags, 0#8, 0#8, 0#8, cluster, 0#8, 0#8, 0#8, length, lengthHi, 0#8, 0#8, 0#8, 0#8, 0#8, 0#8] ++ name ++
    List.replicate (16 - name.length) 0#8

def save01 : List Byte := [0x53#8, 0x41#8, 0x56#8, 0x45#8, 0x30#8, 0x31#8]
def mainName : List Byte := [0x6D#8, 0x61#8, 0x69#8, 0x6E#8]

/-- Program C's root records. -/
def rootC : List Byte := dirRecord 5#8 0#8 0x60#8 0#8 [0x2E#8] ++
  dirRecord 4#8 6#8 0x40#8 0#8 [0x4F#8, 0x4C#8, 0x44#8] ++ dirRecord 5#8 3#8 0x60#8 0#8 save01

/-- Program C's sub-directory records. -/
def subC : List Byte := dirRecord 3#8 2#8 0x58#8 2#8 mainName ++ dirRecord 2#8 7#8 0x64#8 0#8 [0x69#8] ++
  dirRecord 3#8 4#8 0x28#8 0#8 [0x68#8]

/-- A card with Program C's FAT and directories, the first bytes of page 4 and bytes 84 to 89 of page 2. -/
def imgC : Memory :=
  writeBytes (writeBytes (writeBytes (writeBytes (writeBytes [] 2112 fatC) 0 rootC) (6 * 132) subC)
    (4 * 132) [0x0F#8, 0x14#8, 0x19#8, 0x1E#8]) (2 * 132 + 84) [5#8, 8#8, 0x0B#8, 0x0E#8, 0x11#8, 0x14#8]

/-- A run on that card with `ET[0]` of Program C after C1, and `SAVE01` in `CB`. -/
def cardC : State := { running with
  img := imgC
  cb := writeBytes [] 0 save01
  et := writeEntries [] 0 [⟨mainName, true, false, 2#32, 600#32⟩]
  etn := 1#32 }

/-- V41. -/
theorem test_fatget : leaves (.fatget 2#32) cardC (fun t => decide (t.rv = 5#64)) = true ∧
    leaves (.fatget 8#32) cardC (fun t => faulted 6#8 6#32 running t) = true := by decide +kernel
/-- Program C, C1, with a file of 260 bytes: bytes 256 on are those of page 10, the first of the chain's second cluster. -/
theorem test_rdchain : leaves (.rdchain 0#32) { cardC with
      img := writeBytes imgC (10 * 132) [0x21#8, 0x2C#8, 0x37#8, 0x42#8]
      et := [(0, ⟨mainName, true, false, 2#32, 260#32⟩)] }
    (fun t => decide (t.eblen = 260#32 ∧ t.imgMode = .closed ∧ readBytes t.eb 0 4 = [0x0F#8, 0x14#8, 0x19#8, 0x1E#8] ∧
      readBytes t.eb 256 4 = [0x21#8, 0x2C#8, 0x37#8, 0x42#8])) = true := by decide +kernel
/-- V42: the FAT entry of cluster 1 leads back to cluster 2. -/
theorem test_rdchain_loop : leaves (.rdchain 0#32) { cardC with img := writeBytes imgC 2116 [2#8, 0#8, 0#8, 0#8] }
    (fun t => faulted 7#8 2#32 running t && decide (t.eblen = 0#32)) = true := by decide +kernel
/-- Program C, C2, with a file of 130 bytes: page 4 is full and page 5 receives two bytes; page 4's spare bytes are the
exclusive-or, the sum and the weighted sum of `F0 EB E6 E1` (R10). -/
def wroteC : State := { cardC with
  eb := writeBytes [] 0 [0xF0#8, 0xEB#8, 0xE6#8, 0xE1#8]
  eblen := 130#32
  img := writeBytes imgC (5 * 132) [0x12#8, 0x18#8, 0x1E#8] }
theorem test_wrchain : leaves (.wrchain 0#32) wroteC (fun t => decide (readBytes t.img 528 4 = [0xF0#8, 0xEB#8, 0xE6#8, 0xE1#8] ∧
    readBytes t.img 656 7 = [0x1C#8, 0xA2#8, 0x5A#8, 0#8, 0#8, 0#8, 0x1E#8] ∧ readBytes t.img 2112 24 = fatC)) = true := by decide +kernel
/-- V42: more bytes than the chain holds. -/
theorem test_wrchain_too_long : leaves (.wrchain 0#32) { cardC with eblen := 769#32 }
    (fun t => faulted 7#8 3#32 running t && decide (t.img = cardC.img)) = true := by decide +kernel
/-- V40: 127 zeros, then 01H. -/
theorem test_eccgen : leaves (.eccgen 0#32) (withEb (List.replicate 127 0#8 ++ [1#8]))
    (fun t => decide (t.rv = 0x7F0101#64 ∧ t.rb = 3#32)) = true := by decide +kernel
/-- V43: a page whose spare bytes are not those of its data. -/
theorem test_eccchk : leaves (.eccchk 4#32) cardC (fun t => faulted 8#8 0#32 running t) = true ∧
    leaves (.eccchk 3#32) cardC (fun t => decide (t.state = .run ∧ t.dp = 2#32)) = true := by decide +kernel
/-- Program C, C0. -/
theorem test_lsroot : leaves .lsroot cardC (fun t => decide (t.etn = 2#32 ∧
    readEntry t.et 0 = ⟨[0x2E#8], false, true, 0#32, 96#32⟩ ∧
    readEntry t.et 1 = ⟨save01, false, true, 3#32, 96#32⟩)) = true := by decide +kernel
/-- Program C, C1. -/
theorem test_lookup : leaves (.lookup 0#32 6#32) { cardC with etn := 0#32 } (fun t => decide (t.etn = 2#32 ∧
    readEntry t.et 0 = ⟨mainName, true, false, 2#32, 600#32⟩ ∧ t.dp = 3#32)) = true := by decide +kernel
/-- V44: no such name. -/
theorem test_lookup_not_found : leaves (.lookup 8#32 4#32) cardC
    (fun t => faulted 2#8 0#32 running t && decide (t.etn = 1#32)) = true := by decide +kernel

/-! ### A container -/

/-- Program A's container. -/
def containerA : List Byte :=
  [0x10#8, 0x00#8, 0x00#8, 0x00#8, 0x52#8, 0xF5#8, 0x86#8, 0x41#8, 0x64#8, 0xFA#8, 0x82#8, 0xD1#8] ++
  [0xD5#8, 0xD9#8, 0x05#8, 0x01#8, 0x7F#8, 0xBF#8, 0x52#8, 0x12#8] ++
  [0x8B#8, 0xA9#8, 0x75#8, 0xFF#8, 0x70#8, 0xDB#8, 0x29#8, 0x5C#8]

/-- Program A. -/
theorem test_split : leaves .split (withEb containerA) (fun t => decide (t.hdr = 16#32 ∧ t.ctlen = 16#32 ∧
    t.cstored = 0x1252BF7F0105D9D5#64 ∧ readBytes t.ct 6 4 = [0x82#8, 0xD1#8, 0x8B#8, 0xA9#8])) = true := by decide +kernel
/-- Program A, variants A2 and A3. -/
theorem test_split_faults :
    leaves .split { withEb containerA with eb := writeByte (withEb containerA).eb 0 0x11#8 }
      (fun t => faulted 1#8 1#32 running t) = true ∧
    leaves .split { withEb containerA with eblen := 27#32 } (fun t => faulted 1#8 4#32 running t) = true := by decide +kernel
/-- R224 on Program A's halves: the checksum stands between them. -/
theorem test_join : leaves .join { withCt (containerA.drop 4 |>.take 8) with
      ct := writeBytes [] 0 ((containerA.drop 4).take 8 ++ containerA.drop 20), ctlen := 16#32
      cstored := 0x1252BF7F0105D9D5#64 }
    (fun t => decide (readBytes t.eb 0 28 = containerA ∧ t.eblen = 28#32)) = true := by decide +kernel
/-- V50, rows 1 and 3. -/
theorem test_dstart :
    leaves .dstart (withDb ([0xF4#8, 0xFF#8, 0xFF#8, 0xFF#8] ++ List.replicate 12 0#8))
      (fun t => decide (t.dstart = 4#32 ∧ t.bo = 32#32)) = true ∧
    leaves .dstart (withDb ([0x01#8, 0#8, 0#8, 0#8] ++ List.replicate 12 0#8))
      (fun t => faulted 3#8 17#32 running t && decide (t.dstart = 0#32)) = true := by decide +kernel
/-- R243. -/
theorem test_end : leaves .endRun { running with dp := 17#32 }
    (fun t => decide (t.state = .done ∧ t.dp = 17#32)) = true := by decide

/-! ### The step and the host -/

/-- The state a step leads to. -/
def stepTo (s : State) (p : State → Bool) : Bool :=
  match step s with
  | .next t => p t
  | .fault _ => false
  | .refused _ => false

/-- The host's question on a word of the opcode table: the first step after reset runs it. -/
theorem test_step_runs_the_word :
    stepTo (State.reset.withFetchWord 64 0x0000000300000015) (fun t => decide (t.bo = 3#32 ∧ t.dp = 2#32)) = true ∧
    stepTo (State.reset.withFetchWord 32 0x00020011) (fun t => decide (t.ft.length = 2 ∧ t.dp = 4#32)) = true ∧
    stepTo (State.reset.withFetchWord 32 0) (fun t => decide (t.state = .done)) = true := by decide +kernel
/-- R97. -/
theorem test_step_illegal : stepTo (State.reset.withFetchWord 32 0x18) (fun t => faulted 5#8 2#32 running t) = true := by
  decide +kernel
/-- R244, R27: START, and a length above its bound. -/
theorem test_host :
    (hostWrite { running with state := .fault, err := 5#8, einfo := 2#32 } 0 7#32).dp = 7#32 ∧
    (hostWrite { running with state := .fault, err := 5#8 } 0 7#32).err = 0#8 ∧
    hostRead (hostWrite State.reset 21 64#32) 21 = 64#32 ∧ hostRead (hostWrite State.reset 21 65#32) 21 = 0#32 ∧
    hostRead running 1 = 1#32 ∧ hostRead { running with bo := 3#32 } 5 = 0#32 := by decide +kernel

/-! ## Witnesses: the hypotheses of each statement are met, clause by clause, at boundary values -/

theorem of_leaves {i : Instr} {s : State} {p : State → Bool} (h : leaves i s p = true) :
    ∃ t, exec i s = .next t ∧ p t = true := by
  unfold leaves at h
  split at h
  · exact ⟨_, by assumption, h⟩
  · cases h
  · cases h

theorem of_stepTo {s : State} {p : State → Bool} (h : stepTo s p = true) : ∃ t, step s = .next t ∧ p t = true := by
  unfold stepTo at h
  split at h
  · exact ⟨_, by assumption, h⟩
  · cases h
  · cases h

/-- A run at word `dp` of `DM`, which holds `w`. -/
def atWord (dp w : W32) : State := { running with dp := dp, dm := writeWord [] dp.toNat w }

/-- Records to fill `FT` with. -/
def records (n : Nat) : List FtRecord := List.replicate n (.int 1 false 0#32 0#64)

theorem witness_EncodeOfDecode : decode [0x10#32, 5#32, 7#32] = .ok (.rd 5#32, [7#32]) := rfl

/-- `DM_WORDS` is 256: `dp = 256`; an unknown opcode; a reserved field; an operand at word 256; the last two words. -/
theorem witness_DecodeChecksInOrder :
    running.state = .run ∧ (atWord 256#32 1#32).cfg.dmWords ≤ (atWord 256#32 1#32).dp.toNat ∧
    (¬ testcfg.dmWords ≤ (255#32).toNat ∧ 0x18 ∉ zOps ++ w1Ops ++ w2Ops ++ vOps) ∧
    (¬ 0x10 ∉ zOps ++ w1Ops ++ w2Ops ++ vOps ∧ (0x00010010#32).toNat / 256 % 256 = 0 ∧ 0x10 ∉ vOps ∧
      (0x00010010#32).toNat / 65536 ≠ 0) ∧
    (readWord (atWord 255#32 0x10#32).dm 255 = 0x10#32 ∧ testcfg.dmWords < 255 + sizeByFormat 0x10#32) ∧
    (readWord (atWord 254#32 0x10#32).dm 254 = 0x10#32 ∧ ¬ testcfg.dmWords < 254 + sizeByFormat 0x10#32) := by
  decide +kernel

theorem witness_StepRunsDecoded :
    (running.state = .run ∧ decode (fetchWords (atWord 254#32 0x10#32)) = .ok (.rd 0#32, [])) ∧ State.reset.state ≠ .run := by
  refine ⟨⟨rfl, ?_⟩, by decide⟩
  rfl

theorem witness_EveryRunEnds : (atWord 255#32 0x10#32).state = .run := rfl

theorem witness_PointerMovesForward : (atWord 254#32 0x10#32).state = .run ∧
    ∃ t, step (atWord 254#32 0x10#32) = .next t ∧ decide (t.state = .run) = true :=
  ⟨rfl, of_stepTo (by decide +kernel)⟩

theorem witness_RunLeavesByEndOrFault : running.state = .run ∧ ∃ t, step running = .next t ∧ decide (t.state = .done) = true :=
  ⟨rfl, of_stepTo (by decide +kernel)⟩

theorem witness_FaultsArePrecise : (atWord 256#32 1#32).state = .run ∧
    ∃ t, step (atWord 256#32 1#32) = .next t ∧ decide (t.state = .fault) = true :=
  ⟨rfl, of_stepTo (by decide +kernel)⟩

/-- Program C's card with one byte in `EB` for a file of one byte, a record in `FT` and two bytes in `DB`. -/
def oneByteC : State := { cardC with
  eb := [(0, 0xF0#8)]
  eblen := 1#32
  et := [(0, ⟨mainName, true, false, 2#32, 1#32⟩)]
  ft := [.int 64 true 0#32 0#64]
  db := [(0, 0x1F#8), (1, 0x23#8)]
  dblen := 2#32 }

/-- The invariant holds in a state with data in most memories. -/
theorem oneByteC_inv : BlockInv oneByteC where
  dblen_le := by decide +kernel
  ctlen_le := by decide +kernel
  eblen_le := by decide +kernel
  etn_le := by decide +kernel
  ft_le := by decide +kernel
  ft_ok := by
    intro f hf
    have : f = .int 64 true 0#32 0#64 := List.mem_singleton.1 hf
    subst this
    exact Nat.le_refl 64
  names_le := by decide +kernel
  img_closed := rfl
  no_fault := fun _ => ⟨rfl, rfl⟩
  fault_code := by decide +kernel
  dm_wf := by decide +kernel
  cb_wf := by decide +kernel
  eb_wf := by decide +kernel
  ct_wf := by decide +kernel
  db_wf := by decide +kernel
  et_wf := by decide +kernel
  img_wf := by decide +kernel
  dm_below := by decide +kernel
  cb_below := by decide +kernel
  eb_below := by decide +kernel
  ct_below := by decide +kernel
  db_below := by decide +kernel
  et_below := by decide +kernel
  img_below := by decide +kernel

theorem witness_StepKeepsInvariant : BlockInv oneByteC ∧ ∃ t, step oneByteC = .next t ∧ decide (t.state = .done) = true :=
  ⟨oneByteC_inv, of_stepTo (by decide +kernel)⟩

/-- Contents that reach the last cell of several memories, and a name of `NAME_MAX` bytes. -/
theorem witness_InvariantAtReset : Contents.ok
    { dm := [(255, 1#32)], cb := [(255, 1#8)], eb := [(1023, 1#8)], ct := [(63, 1#8)], db := [(63, 1#8)]
      et := [(15, ⟨List.replicate 16 1#8, true, false, 0#32, 0#32⟩)], img := [(2143, 1#8)] } testcfg := by
  constructor <;> decide +kernel

theorem witness_HostKeepsInvariant : BlockInv oneByteC ∧ Memory.wf [(2143, 1#8), (9999, 2#8)] :=
  ⟨oneByteC_inv, by decide⟩

theorem witness_ProgramIsNotWritten : ∃ t, step (atWord 254#32 0x10#32) = .next t ∧ decide (t.dp = 256#32) = true :=
  of_stepTo (by decide +kernel)

/-- The first alternative with an `ECCCHK`, the second with a `WRCHAIN` that faults. -/
theorem witness_OnlyWrchainWritesImage : cardC.state = .run ∧
    (∃ t, exec (.eccchk 3#32) cardC = .next t ∧ decide (t.state = .run) = true) ∧
    ∃ t, exec (.wrchain 0#32) { cardC with eblen := 769#32 } = .next t ∧ decide (t.state = .fault) = true :=
  ⟨rfl, of_leaves (by decide +kernel), of_leaves (by decide +kernel)⟩

theorem witness_BufferWriters : ∃ t, exec (.seek 3#32) running = .next t ∧ decide (t.bo = 3#32) = true :=
  of_leaves (by decide)

theorem witness_CursorWritersAndGrowingTable : ∃ t, exec (.align 3#32) running = .next t ∧ decide (t.utot = 3#32) = true :=
  of_leaves (by decide)

/-- Eight bytes of `DB`, a cursor at its start. -/
def db8 : State := withDb (List.replicate 7 0#8 ++ [1#8])

/-- The same with the cursor one bit on. -/
def db8at1 : State := { db8 with bo := 1#32 }

/-- One bit too many for a value, one too many for `DB`; 64 bits, signed and unsigned, up to the last bit of `DB`; no bit. -/
theorem witness_RdResult :
    64 < (65#32).toInt.natAbs ∧
    ((64#32).toInt.natAbs ≤ 64 ∧ 8 * db8at1.dblen.toNat < db8at1.bo.toNat + (64#32).toInt.natAbs) ∧
    ((64#32).toInt.natAbs ≤ 64 ∧ db8.bo.toNat + (64#32).toInt.natAbs ≤ 8 * db8.dblen.toNat) ∧
    ((0xFFFFFFC0#32).toInt.natAbs ≤ 64 ∧ db8.bo.toNat + (0xFFFFFFC0#32).toInt.natAbs ≤ 8 * db8.dblen.toNat) ∧
    ((0#32).toInt.natAbs ≤ 64 ∧ (64#32).toNat + (0#32).toInt.natAbs ≤ 8 * db8.dblen.toNat) := by decide +kernel

/-- A condition on every member of a list, by evaluation. -/
theorem forall_mem_of_all {p : W32 → Prop} [DecidablePred p] {ls : List W32} (h : ls.all (fun l => decide (p l)) = true) :
    ∀ l ∈ ls, p l := fun l hl => of_decide_eq_true (List.all_eq_true.1 h l hl)

/-- `FT` with one place too few and just enough, `DB` with one bit too few and just enough. -/
theorem witness_UnpackResult : let s := { db8 with ft := records 61 }
    let s' := { db8at1 with ft := records 61 }
    let lens := [32#32, 0#32, 0xFFFFFFE0#32]
    (∃ l ∈ [0x80000000#32], 64 < l.toInt.natAbs) ∧ (∀ l ∈ lens, l.toInt.natAbs ≤ 64) ∧
    s.cfg.ftMax < (records 62).length + lens.length ∧ s.ft.length + lens.length ≤ s.cfg.ftMax ∧
    8 * s'.dblen.toNat < s'.bo.toNat + (lens.map (fun l => l.toInt.natAbs)).sum ∧
    s.bo.toNat + (lens.map (fun l => l.toInt.natAbs)).sum ≤ 8 * s.dblen.toNat :=
  ⟨⟨_, List.mem_cons_self, by decide⟩, forall_mem_of_all (by decide), by decide +kernel, by decide +kernel,
    by decide +kernel, by decide +kernel⟩

theorem witness_UnpacksResult : let s := { running with dblen := 64#32, ft := records 63 }
    let s' := { s with bo := 1#32 }
    (s.cfg.strMax < (65#32).toNat ∧ s.cfg.ftMax < (records 64).length + 1) ∧
    ((64#32).toNat ≤ s.cfg.strMax ∧ s.ft.length + 1 ≤ s.cfg.ftMax) ∧
    8 * s'.dblen.toNat < s'.bo.toNat + 8 * (64#32).toNat ∧ s.bo.toNat + 8 * (64#32).toNat ≤ 8 * s.dblen.toNat := by
  decide +kernel

/-- The last four bytes of `CB` and of `DB`, equal and not; one byte past each; no byte, past each and at the end of each (log 15). -/
theorem witness_PadchkResult : let s := { withDb (List.replicate 8 0#8) with bo := 32#32 }
    let s' := { s with cb := [(255, 1#8)] }
    s.cfg.cbLen < (252#32).toNat + (5#32).toNat ∧ s.cfg.cbLen < (257#32).toNat + (0#32).toNat ∧
    ((256#32).toNat + (0#32).toNat ≤ s.cfg.cbLen ∧ 8 * s.dblen.toNat < (65#32).toNat + 8 * (0#32).toNat ∧
      (64#32).toNat + 8 * (0#32).toNat ≤ 8 * s.dblen.toNat) ∧
    ((251#32).toNat + (5#32).toNat ≤ s.cfg.cbLen ∧ 8 * s.dblen.toNat < s.bo.toNat + 8 * (5#32).toNat) ∧
    ((252#32).toNat + (4#32).toNat ≤ s.cfg.cbLen ∧ s.bo.toNat + 8 * (4#32).toNat ≤ 8 * s.dblen.toNat) ∧
    (∀ j, j < (4#32).toNat → bits s.db (s.bo.toNat + 8 * j) 8 = (readByte s.cb ((252#32).toNat + j)).toNat) ∧
    ¬ (∀ j, j < (4#32).toNat → bits s'.db (s'.bo.toNat + 8 * j) 8 = (readByte s'.cb ((252#32).toNat + j)).toNat) := by
  decide +kernel

/-- A record of 64 bits and one of 3 signed bits at the end of `DB`, and a string that ends with `DB`. -/
def patched : State := { db8 with
  ft := [.int 64 false 0#32 (-1#64), .int 3 true 61#32 0xFC#64, .str 40#32 [1#8, 2#8, 3#8]] }

/-- `patched` with records out of range, and past the end of `DB`. -/
def unpatchable : State := { db8 with
  ft := [.int 3 false 62#32 8#64, .int 3 false 62#32 7#64, .str 48#32 [1#8, 2#8, 3#8]] }

theorem witness_PatchResult :
    patched.ft.length ≤ (3#32).toNat ∧
    (unpatchable.ft[(0#32).toNat]? = some (.int 3 false 62#32 8#64) ∧ inRange 3 false 8#64 = false) ∧
    (unpatchable.ft[(1#32).toNat]? = some (.int 3 false 62#32 7#64) ∧ inRange 3 false 7#64 = true ∧
      8 * unpatchable.dblen.toNat < (62#32).toNat + 3) ∧
    (patched.ft[(0#32).toNat]? = some (.int 64 false 0#32 (-1#64)) ∧ inRange 64 false (-1#64) = true ∧
      (0#32).toNat + 64 ≤ 8 * patched.dblen.toNat) ∧
    (patched.ft[(1#32).toNat]? = some (.int 3 true 61#32 0xFC#64) ∧ inRange 3 true 0xFC#64 = true ∧
      (61#32).toNat + 3 ≤ 8 * patched.dblen.toNat) ∧
    (unpatchable.ft[(2#32).toNat]? = some (.str 48#32 [1#8, 2#8, 3#8]) ∧
      8 * unpatchable.dblen.toNat < (48#32).toNat + 8 * [1#8, 2#8, 3#8].length) ∧
    (patched.ft[(2#32).toNat]? = some (.str 40#32 [1#8, 2#8, 3#8]) ∧
      (40#32).toNat + 8 * [1#8, 2#8, 3#8].length ≤ 8 * patched.dblen.toNat) := by decide +kernel

/-- Two buffers that differ, one cursor. -/
theorem witness_FieldPlacesIgnoreContents : Instr.unpack 0#32 [5#32, 0xFFFFFFFB#32] ≠ .dstart ∧
    (withDb [0xFF#8, 0xFF#8]).bo = (withDb [0#8, 0#8]).bo ∧
    (∃ t, exec (.unpack 0#32 [5#32, 0xFFFFFFFB#32]) (withDb [0#8, 0#8]) = .next t ∧ decide (t.state ≠ .fault) = true) ∧
    ∃ t, exec (.unpack 0#32 [5#32, 0xFFFFFFFB#32]) (withDb [0xFF#8, 0xFF#8]) = .next t ∧
      decide (t.state ≠ .fault) = true :=
  ⟨by decide, by decide +kernel, of_leaves (by decide +kernel), of_leaves (by decide +kernel)⟩

theorem witness_ReadIsInRange : 64 ≤ 64 := Nat.le_refl 64

theorem witness_InRangeIsTwosComplement : 64 ≤ 64 ∧ 0 ≤ 64 := ⟨Nat.le_refl 64, Nat.zero_le 64⟩

theorem witness_PatchThenRead :
    (patched.ft[(1#32).toNat]? = some (.int 3 true 61#32 0xFC#64) ∧ 3 ≤ 64 ∧ inRange 3 true 0xFC#64 = true ∧
      (61#32).toNat + 3 ≤ 8 * patched.dblen.toNat ∧
      ∃ t, exec (.patch 1#32) patched = .next t ∧ decide (t.state = .run) = true) ∧
    (patched.ft[(2#32).toNat]? = some (.str 40#32 [1#8, 2#8, 3#8]) ∧
      (40#32).toNat + 8 * [1#8, 2#8, 3#8].length ≤ 8 * patched.dblen.toNat ∧
      ∃ t, exec (.patch 2#32) patched = .next t ∧ decide (t.state = .run) = true) :=
  ⟨⟨by decide +kernel, by decide, by decide +kernel, by decide +kernel, of_leaves (by decide +kernel)⟩,
    by decide +kernel, by decide +kernel, of_leaves (by decide +kernel)⟩

/-- Two records of one byte of `DB` that touch and do not overlap. -/
def twoFields : State := { oneByteC with ft := [.int 3 false 0#32 5#64, .int 5 true 3#32 0xF0#64] }

theorem withFt_inv {s : State} {ft : List FtRecord} (h : BlockInv s) (hl : ft.length ≤ s.cfg.ftMax)
    (ho : ∀ f ∈ ft, f.ok s.cfg) : BlockInv { s with ft := ft } :=
  { h with ft_le := hl, ft_ok := ho, no_fault := h.no_fault, fault_code := h.fault_code }

theorem twoFields_inv : BlockInv twoFields := by
  refine withFt_inv oneByteC_inv (by decide +kernel) fun f hf => ?_
  rcases List.mem_cons.1 hf with rfl | hf
  · show 3 ≤ 64; decide
  · rcases List.mem_singleton.1 hf with rfl
    show 5 ≤ 64; decide

theorem witness_PatchesCommute : BlockInv twoFields ∧ twoFields.state = .run ∧
    twoFields.ft[(0#32).toNat]? = some (.int 3 false 0#32 5#64) ∧
    twoFields.ft[(1#32).toNat]? = some (.int 5 true 3#32 0xF0#64) ∧
    (FtRecord.int 3 false 0#32 5#64).off.toNat + (FtRecord.int 3 false 0#32 5#64).width ≤
      (FtRecord.int 5 true 3#32 0xF0#64).off.toNat ∧
    (match execAll [.patch 0#32, .patch 1#32] twoFields with
      | .next t => decide (t.state = .run)
      | .fault _ => false
      | .refused _ => false) = true :=
  ⟨twoFields_inv, rfl, rfl, rfl, by decide, by decide +kernel⟩

theorem witness_PatchUnedited : BlockInv oneByteC ∧ oneByteC.state = .run ∧
    (∃ t, exec (.unpack 2#32 [4#32, 0xFFFFFFF4#32]) oneByteC = .next t ∧
      decide (t.state = .run ∧ oneByteC.ft.length ≤ (2#32).toNat ∧ (2#32).toNat < t.ft.length) = true) ∧
    (∃ t, exec (.unpacks 2#32) oneByteC = .next t ∧
      decide (t.state = .run ∧ oneByteC.ft.length ≤ (1#32).toNat ∧ (1#32).toNat < t.ft.length) = true) :=
  ⟨oneByteC_inv, rfl, of_leaves (by decide +kernel), of_leaves (by decide +kernel)⟩

/-- A full buffer and an empty one; a length of 12; a length of 72 where the capacities are 64 (which the host cannot write). -/
theorem witness_StreamCipherResults : let s := { running with dblen := 64#32, ctlen := 0#32 }
    (12#32).toNat % 8 ≠ 0 ∧ ((72#32).toNat % 8 = 0 ∧ s.cfg.ctCap < (72#32).toNat ∧ s.cfg.dbCap < (72#32).toNat) ∧
    (s.dblen.toNat % 8 = 0 ∧ s.dblen.toNat ≤ s.cfg.ctCap) ∧ s.ctlen.toNat % 8 = 0 ∧ s.ctlen.toNat ≤ s.cfg.dbCap := by
  decide +kernel

theorem witness_StreamRoundTrip : let s := { running with dblen := 0#32, ctlen := 64#32 }
    s.state = .run ∧ s.dblen.toNat % 8 = 0 ∧ s.dblen.toNat ≤ s.cfg.ctCap ∧ s.dblen.toNat ≤ s.cfg.dbCap ∧
    s.ctlen.toNat % 8 = 0 ∧ s.ctlen.toNat ≤ s.cfg.ctCap ∧ s.ctlen.toNat ≤ s.cfg.dbCap := by decide +kernel

theorem witness_ChecksumPrimitives : let s := ({ running with ctlen := 9#32 } : State)
    (4#32).toNat + (5#32).toNat ≤ s.ctlen.toNat ∧ s.ctlen.toNat < (5#32).toNat + (5#32).toNat := by decide

theorem witness_ChecksumComposites :
    xfCk testcfg (crc16 testcfg (withCt [0x01#8]).ciphertext) = 0x1252BBFB0105C1D5#64 ∧
    xfCk testcfg (crc16 testcfg (withCt [0x01#8]).ciphertext) ≠ (withCt [0x01#8]).cstored := by decide +kernel

/-- The ciphertext `01` with its checksum stored. -/
def checked : State := { withCt [0x01#8] with cstored := 0x1252BBFB0105C1D5#64 }

/-- The highest bit of its one byte flipped. -/
theorem witness_ChecksumLaws : checked.state = .run ∧ SingleBitSensitive checked.cfg ∧
    (∃ t, exec .ckvfy checked = .next t ∧ decide (t.state = .run) = true) ∧
    DifferInOneBit (readBytes checked.ct 0 checked.ctlen.toNat) (readBytes [(0, 0x81#8)] 0 checked.ctlen.toNat) :=
  ⟨rfl, testcfg_singleBitSensitive, of_leaves (by decide +kernel), 0, 7, by decide +kernel⟩

/-- A FAT in which cluster `i` leads to `i + 1`, the last one off the card. -/
def fatUp : Memory := writeBytes [] 2112 ((List.range 8).flatMap (fun i => [BitVec.ofNat 8 (i + 1), 0#8, 0#8, 0#8]))

theorem witness_WalkIsSound : walk testcfg imgC 2#32 = .ok [2#32, 5#32, 1#32] := by decide +kernel

/-- Program C's chain ends after three clusters; a chain leaves the card at once and after all its 8 clusters; one stays on cluster 0
for ever. -/
theorem witness_WalkResult :
    let nextC := fun x : W32 => fatValue testcfg imgC x.toNat
    let next := fun x : W32 => fatValue testcfg fatUp x.toNat
    let loop := fun x : W32 => fatValue testcfg [] x.toNat
    (3 ≤ testcfg.nClusters ∧ (∀ k, k < 3 → nextC^[k] 2#32 ≠ testcfg.chainEnd ∧ (nextC^[k] 2#32).toNat < testcfg.nClusters) ∧
      nextC^[3] 2#32 = testcfg.chainEnd) ∧
    (8#32 ≠ testcfg.chainEnd ∧ testcfg.nClusters ≤ (next^[0] 8#32).toNat) ∧
    (8 ≤ testcfg.nClusters ∧ (∀ k, k < 8 → next^[k] 0#32 ≠ testcfg.chainEnd ∧ (next^[k] 0#32).toNat < testcfg.nClusters) ∧
      next^[8] 0#32 ≠ testcfg.chainEnd ∧ testcfg.nClusters ≤ (next^[8] 0#32).toNat) ∧
    (∀ k, k ≤ testcfg.nClusters → loop^[k] 0#32 ≠ testcfg.chainEnd ∧ (loop^[k] 0#32).toNat < testcfg.nClusters) ∧
    (walk testcfg fatUp 0#32 = .error (.chainError 1) ∧ walk testcfg imgC 2#32 = .ok [2#32, 5#32, 1#32] ∧
      [2#32, 5#32, 1#32].length * testcfg.clusterSize < (769#32).toNat ∧
      (768#32).toNat ≤ [2#32, 5#32, 1#32].length * testcfg.clusterSize) := by
  decide +kernel

/-- A configuration without spare bytes. -/
def noSpare : Config := { toConfigData := { testcfgData with hasSpare := false }, wf := by decide +kernel }

/-- The last cluster, chunk and page and one past each; page 15's codes are right, page 4's first is wrong. -/
theorem witness_FatAndCodeResults :
    let good := fun (p : W32) (k : Nat) => eccBytes testcfg (readBytes imgC (testcfg.pageAddr p.toNat + 128 * k) 128) =
        readBytes imgC (testcfg.pageAddr p.toNat + testcfg.pageSize + 3 * k) 3
    ((7#32).toNat < testcfg.nClusters ∧ testcfg.nClusters ≤ (8#32).toNat) ∧
    ((896#32).toNat + 128 ≤ (1024#32).toNat ∧ (128#32).toNat < (1#32).toNat + 128) ∧
    (noSpare.hasSpare = false ∧ testcfg.nPages ≤ (16#32).toNat) ∧
    (testcfg.hasSpare = true ∧ (15#32).toNat < testcfg.nPages ∧ ∀ k, k < testcfg.nch → good 15#32 k) ∧
    ((4#32).toNat < testcfg.nPages ∧ 0 < testcfg.nch ∧ ¬ good 4#32 0) := by decide +kernel

/-- A file of all the 768 bytes its chain holds. -/
def fullC : State := { cardC with et := [(0, ⟨mainName, true, false, 2#32, 768#32⟩)], eblen := 768#32 }

/-- A full chain; one byte more than it holds and than `EB` holds; a chain off the card. -/
theorem witness_RdchainResult : let e := readEntry fullC.et (0#32).toNat
    let long := fun n : W32 => readEntry [(0, ⟨mainName, true, false, 2#32, n⟩)] (0#32).toNat
    (fullC.etn.toNat ≤ (1#32).toNat ∧ (0#32).toNat < fullC.etn.toNat) ∧
    (fullC.cfg.ebCap < (long 1025#32).length.toNat ∧ e.length.toNat ≤ fullC.cfg.ebCap) ∧
    walk testcfg fatUp 0#32 = .error (.chainError 1) ∧
    walk fullC.cfg fullC.img e.cluster = .ok [2#32, 5#32, 1#32] ∧
    [2#32, 5#32, 1#32].length * fullC.cfg.clusterSize < (long 769#32).length.toNat ∧
    e.length.toNat ≤ [2#32, 5#32, 1#32].length * fullC.cfg.clusterSize := by decide +kernel

theorem witness_WrchainStoresInItsPages :
    (fullC.etn.toNat ≤ (1#32).toNat ∧ (0#32).toNat < fullC.etn.toNat) ∧
    walk testcfg fatUp 0#32 = .error (.chainError 1) ∧
    walk fullC.cfg fullC.img (readEntry fullC.et (0#32).toNat).cluster = .ok [2#32, 5#32, 1#32] ∧
    [2#32, 5#32, 1#32].length * fullC.cfg.clusterSize < (769#32).toNat ∧
    fullC.eblen.toNat ≤ [2#32, 5#32, 1#32].length * fullC.cfg.clusterSize := by decide +kernel

/-- The one byte written, which no later one overwrites; the byte after it, to whose place none goes. -/
theorem witness_WrchainWritesTheFile : ClustersShareNoPage oneByteC.cfg ∧ (0#32).toNat < oneByteC.etn.toNat ∧
    walk oneByteC.cfg oneByteC.img (readEntry oneByteC.et (0#32).toNat).cluster = .ok [2#32, 5#32, 1#32] ∧
    oneByteC.eblen.toNat ≤ [2#32, 5#32, 1#32].length * oneByteC.cfg.clusterSize ∧
    (∃ t, exec (.wrchain 0#32) oneByteC = .next t ∧ decide (t.state = .run) = true) ∧
    (0 < oneByteC.eblen.toNat ∧ ∀ k, k < oneByteC.eblen.toNat → ¬ 0 < k) ∧
    1 < [2#32, 5#32, 1#32].length * oneByteC.cfg.clusterSize ∧
    ∀ k, k < oneByteC.eblen.toNat →
      fileByteAddr oneByteC.cfg [2#32, 5#32, 1#32] k ≠ fileByteAddr oneByteC.cfg [2#32, 5#32, 1#32] 1 :=
  ⟨clustersShareNoPage_of_linear rfl, by decide, by decide +kernel, by decide +kernel, of_leaves (by decide +kernel),
    by decide +kernel, by decide +kernel, by decide +kernel⟩

/-- The page of the one byte written. -/
theorem witness_WrittenPagesPassEccchk : oneByteC.cfg.hasSpare = true ∧ (0#32).toNat < oneByteC.etn.toNat ∧
    walk oneByteC.cfg oneByteC.img (readEntry oneByteC.et (0#32).toNat).cluster = .ok [2#32, 5#32, 1#32] ∧
    oneByteC.eblen.toNat ≤ [2#32, 5#32, 1#32].length * oneByteC.cfg.clusterSize ∧
    (∃ t, exec (.wrchain 0#32) oneByteC = .next t ∧ decide (t.state = .run) = true) ∧
    writesPage oneByteC.cfg [2#32, 5#32, 1#32] oneByteC.eblen.toNat (4#32).toNat :=
  ⟨rfl, by decide, by decide +kernel, by decide +kernel, of_leaves (by decide +kernel), 0, 0, by decide +kernel⟩

theorem witness_WriteThenReadFile : ClustersShareNoPage oneByteC.cfg ∧ oneByteC.state = .run ∧ BlockInv oneByteC ∧
    (readEntry oneByteC.et (0#32).toNat).length = oneByteC.eblen ∧
    ∃ t, exec (.wrchain 0#32) oneByteC = .next t ∧ decide (t.state = .run ∧
      ∀ cl, cl < oneByteC.cfg.nClusters → fatValue oneByteC.cfg t.img cl = fatValue oneByteC.cfg oneByteC.img cl) = true :=
  ⟨clustersShareNoPage_of_linear rfl, rfl, oneByteC_inv, by decide +kernel, of_leaves (by decide +kernel)⟩

/-- The entry the root of Program C's card has for `SAVE01`. -/
def entrySave : DirEntry := ⟨save01, false, true, 3#32, 96#32⟩
/-- The entry it has for itself. -/
def entryDot : DirEntry := ⟨[0x2E#8], false, true, 0#32, 96#32⟩

/-- `cardC` with its configuration's `ET_MAX` at 1: two entries are too many. -/
def smallEt : Config := { toConfigData := { testcfgData with etMax := 1 }, wf := by decide +kernel }

/-- Program C's card with a root whose sub-directory's chain is broken (cluster 3 leads to 9). -/
def brokenSub : Memory := writeBytes imgC (2112 + 12) [9#8, 0#8, 0#8, 0#8]

theorem witness_LsrootResult :
    readChain testcfg [] (rootEntry testcfg []) = .error (.chainError 2) ∧
    (readChain smallEt imgC (rootEntry smallEt imgC) = .ok rootC ∧ smallEt.etMax < (liveEntries smallEt rootC).length) ∧
    (readChain testcfg imgC (rootEntry testcfg imgC) = .ok rootC ∧
      (liveEntries testcfg rootC).length ≤ testcfg.etMax) := by decide +kernel

theorem witness_LookupResult :
    (testcfg.cbLen < (250#32).toNat + (7#32).toNat ∧ (0#32).toNat + (6#32).toNat ≤ testcfg.cbLen) ∧
    readChain testcfg [] (rootEntry testcfg []) = .error (.chainError 2) ∧
    readChain testcfg imgC (rootEntry testcfg imgC) = .ok rootC ∧
    (∀ d ∈ liveEntries testcfg rootC, d.name ≠ readBytes cardC.cb (8#32).toNat (4#32).toNat) ∧
    (liveEntries testcfg rootC = [entryDot] ++ entrySave :: [] ∧
      (∀ d ∈ [entryDot], d.name ≠ readBytes cardC.cb (0#32).toNat (6#32).toNat) ∧
      entrySave.name = readBytes cardC.cb (0#32).toNat (6#32).toNat) ∧
    (readChain testcfg brokenSub (rootEntry testcfg brokenSub) = .ok rootC ∧
      readChain testcfg brokenSub entrySave = .error (.chainError 1)) ∧
    (liveEntries smallEt rootC = [entryDot] ++ entrySave :: [] ∧ readChain smallEt imgC entrySave = .ok subC ∧
      smallEt.etMax < (liveEntries smallEt subC).length) ∧
    (readChain testcfg imgC entrySave = .ok subC ∧ (liveEntries testcfg subC).length ≤ testcfg.etMax) := by decide +kernel

theorem witness_SplitResult : (27#32).toNat ≠ 12 + 2 * testcfg.halfLen ∧
    ((28#32).toNat = 12 + 2 * testcfg.halfLen ∧ (le32 [(0, 0x11#8)] 0).toNat ≠ 2 * testcfg.halfLen) ∧
    (withEb containerA).eblen.toNat = 12 + 2 * (withEb containerA).cfg.halfLen ∧
    (le32 (withEb containerA).eb 0).toNat = 2 * (withEb containerA).cfg.halfLen := by decide +kernel

theorem witness_JoinResult : (8#32).toNat ≠ 2 * testcfg.halfLen ∧ (16#32).toNat = 2 * testcfg.halfLen := by decide

/-- A payload that ends with `DB`; three bytes; a `data_start` one past the end. -/
theorem witness_DstartResult :
    (4 ≤ (withDb [0xF4#8, 0xFF#8, 0xFF#8, 0xFF#8]).dblen.toNat ∧
      (le32 (withDb [0xF4#8, 0xFF#8, 0xFF#8, 0xFF#8]).db 0 + 16#32).toNat ≤
        (withDb [0xF4#8, 0xFF#8, 0xFF#8, 0xFF#8]).dblen.toNat) ∧
    (withDb [0#8, 0#8, 0#8]).dblen.toNat < 4 ∧
    (withDb [0xF5#8, 0xFF#8, 0xFF#8, 0xFF#8]).dblen.toNat <
      (le32 (withDb [0xF5#8, 0xFF#8, 0xFF#8, 0xFF#8]).db 0 + 16#32).toNat := by decide +kernel



theorem witness_JoinAfterSplit : (withEb containerA).state = .run ∧
    (withEb containerA).eblen.toNat = 12 + 2 * (withEb containerA).cfg.halfLen ∧
    (le32 (withEb containerA).eb 0).toNat = 2 * (withEb containerA).cfg.halfLen := by decide +kernel

/-- Program A's container passes `SPLIT` and `CKVFY`. -/
theorem witness_PipelineIdentity : (withEb containerA).state = .run ∧
    (match execAll [.split, .ckvfy] (withEb containerA) with
      | .next t => decide (t.state = .run)
      | .fault _ => false
      | .refused _ => false) = true := by decide +kernel

theorem witness_EndAndStart : State.reset.state ≠ .run ∧ running.state = .run := by decide

theorem witness_HostIsShutOutOfARun : running.state = .run := rfl

/-- A value at the bound of an RW register and one past it. -/
theorem witness_HostRegisterPort : State.reset.state ≠ .run ∧
    (0xFFFF#32).toNat ≤ 0xFFFF ∧ 0xFFFF < (0x10000#32).toNat ∧
    (64#32).toNat ≤ State.reset.cfg.dbCap ∧ State.reset.cfg.dbCap < (65#32).toNat ∧
    (0#32).toNat ≤ State.reset.ft.length ∧ State.reset.ft.length < (1#32).toNat := by decide

/-- The numbers of two like registers are not exchanged, each way. -/
theorem test_register_numbers :
    hostRead { State.reset with left := 1#32, right := 2#32 } 13 = 1#32 ∧
    hostRead { State.reset with left := 1#32, right := 2#32 } 14 = 2#32 ∧
    (hostWrite State.reset 5 7#32).bo = 7#32 ∧ (hostWrite State.reset 6 7#32).utot = 7#32 := by decide

/-- `patched` while the host has it. -/
def edited : State := { patched with state := .done }

/-- The last cell of a space and one past it; a record of each kind, the last byte of a string and one past it, one past `ftn`; the
last record of `ET` and one past it, a name of `NAME_MAX` bytes and one longer. -/
theorem witness_HostMemoryPort : edited.state ≠ .run ∧
    (255 < ByteSpace.cb.cap edited.cfg ∧ ByteSpace.cb.cap edited.cfg ≤ 256) ∧
    (255 < edited.cfg.dmWords ∧ edited.cfg.dmWords ≤ 256) ∧
    edited.ft[1]? = some (.int 3 true 61#32 0xFC#64) ∧
    (edited.ft[2]? = some (.str 40#32 [1#8, 2#8, 3#8]) ∧ 2 < [1#8, 2#8, 3#8].length ∧ [1#8, 2#8, 3#8].length ≤ 3) ∧
    edited.ft.length ≤ 3 ∧ (15 < edited.cfg.etMax ∧ edited.cfg.etMax ≤ 16) ∧
    (¬ edited.cfg.nameMax < (List.replicate 16 0#8).length ∧ edited.cfg.nameMax < (List.replicate 17 0#8).length) := by
  decide +kernel

theorem witness_RecordPlacesAreFixed : oneByteC.ft[0]? = some (.int 64 true 0#32 0#64) ∧
    ∃ t, step oneByteC = .next t ∧ decide (t.state = .done) = true :=
  ⟨rfl, of_stepTo (by decide +kernel)⟩

/-- A `WRCHAIN` of one byte is at `dp`. -/
def writingC : State := { oneByteC with dm := writeWord [] 0 0x42#32 }

/-- It writes page 4, the first of cluster 2, and address 0 is not in it. -/
theorem witness_ResetLeavesImage :
    writingC.state = .run ∧ ∀ idx rest cls p, decode (fetchWords writingC) = .ok (.wrchain idx, rest) →
      idx.toNat < writingC.etn.toNat →
      walk writingC.cfg writingC.img (readEntry writingC.et idx.toNat).cluster = .ok cls →
      writingC.eblen.toNat ≤ cls.length * writingC.cfg.clusterSize →
      writesPage writingC.cfg cls writingC.eblen.toNat p →
      ¬ (writingC.cfg.pageAddr p ≤ 0 ∧ 0 < writingC.cfg.pageAddr p + writingC.cfg.rawPage) := by
  refine ⟨rfl, fun idx rest cls p hd _ hw _ ⟨j, q, _, _, hlt, hp⟩ => ?_⟩
  have hd' : decode (fetchWords writingC) = .ok (.wrchain 0#32, []) := by decide +kernel
  have hi : idx = 0#32 := by rw [hd'] at hd; cases hd; rfl
  subst hi
  have hw' : walk writingC.cfg writingC.img (readEntry writingC.et (0#32).toNat).cluster = .ok [2#32, 5#32, 1#32] := by
    decide +kernel
  have hc : cls = [2#32, 5#32, 1#32] := by rw [hw'] at hw; cases hw; rfl
  have hs : writingC.cfg.clusterSize = 256 ∧ writingC.cfg.pageSize = 128 ∧ writingC.eblen.toNat = 1 := by decide +kernel
  rw [hs.1, hs.2.1, hs.2.2] at hlt
  have hj : j = 0 := by omega
  have hq : q = 0 := by omega
  subst hj hq hc hp
  decide +kernel

end Sys2Proof.Tests
end

section
/-! SUPPORT. What the effects of the descriptors keep (10_state.md R25, R26, R32 to R35), and that every step keeps the invariant of
the block. -/

namespace Sys2Proof.Machine

/-! ## What the effects of a descriptor are bounded by -/

/-- What `Walk` delivers, hop by hop (R182): nothing at the end mark, else a cluster of the card and what the rest of the walk delivers. -/
theorem walkFrom_ok {c : Config} {img : Memory} {left : Nat} {cl : W32} {cls : List W32} (h : walkFrom c img left cl = .ok cls) :
    (cl = c.chainEnd ∧ cls = []) ∨
    (cl ≠ c.chainEnd ∧ cl.toNat < c.nClusters ∧
      ∃ n tl, left = n + 1 ∧ walkFrom c img n (fatValue c img cl.toNat) = .ok tl ∧ cls = cl :: tl) := by
  unfold walkFrom at h
  split at h
  · rename_i hend
    exact .inl ⟨hend, (Except.ok.inj h).symm⟩
  · rename_i hend
    split at h
    · cases h
    · rename_i hlt
      cases left with
      | zero => cases h
      | succ n =>
        dsimp only at h
        split at h
        · rename_i tl htl
          exact .inr ⟨hend, Nat.lt_of_not_le hlt, n, tl, rfl, htl, (Except.ok.inj h).symm⟩
        · cases h

/-- Every cluster a walk delivers is a cluster of the card. -/
theorem walkFrom_mem_lt {c : Config} {img : Memory} (left : Nat) : ∀ {cl : W32} {cls : List W32},
    walkFrom c img left cl = .ok cls → ∀ x ∈ cls, x.toNat < c.nClusters := by
  induction left with
  | zero =>
    intro cl cls h x hx
    obtain ⟨_, rfl⟩ | ⟨_, _, n, _, hn, _⟩ := walkFrom_ok h
    · cases hx
    · cases hn
  | succ n ih =>
    intro cl cls h x hx
    obtain ⟨_, rfl⟩ | ⟨_, hlt, m, tl, hm, htl, rfl⟩ := walkFrom_ok h
    · cases hx
    · cases hm
      rcases List.mem_cons.1 hx with rfl | hx
      · exact hlt
      · exact ih htl x hx

@[simp] theorem length_unpackRecords (m : Memory) (lens : List W32) : ∀ bo, (unpackRecords m bo lens).length = lens.length := by
  induction lens with
  | nil => intro bo; rfl
  | cons l ls ih => intro bo; simp [unpackRecords, ih]

/-- The records of an `UNPACK` whose lengths pass its first check are records `FT` may hold (R33). -/
theorem unpackRecords_ok (c : Config) (m : Memory) (lens : List W32) (h : ∀ l ∈ lens, lenBits l ≤ 64) :
    ∀ bo, ∀ f ∈ unpackRecords m bo lens, f.ok c := by
  induction lens with
  | nil => intro bo f hf; cases hf
  | cons l ls ih =>
    intro bo f hf
    rcases List.mem_cons.1 hf with rfl | hf
    · exact h l (by simp)
    · exact ih (fun x hx => h x (List.mem_cons_of_mem _ hx)) _ f hf

theorem joinInto_wf (s : State) {eb : Memory} (h : Memory.wf eb) : Memory.wf (joinInto s eb) :=
  writeBytes_wf _ _ (putLe64_wf _ _ (writeBytes_wf _ _ (putLe32_wf _ _ h)))

/-- The container `JOIN` puts together fits the entry buffer (R7, R9). -/
theorem joinInto_below (s : State) {eb : Memory} (h : Store.below eb s.cfg.ebCap) : Store.below (joinInto s eb) s.cfg.ebCap := by
  have hcap := s.cfg.contLen_le
  unfold joinInto ConfigData.offA ConfigData.offCk ConfigData.offB
  exact writeBytes_below (by simp only [length_readBytes]; omega) (putLe64_below _ (by omega)
    (writeBytes_below (by simp only [length_readBytes]; omega) (putLe32_below _ (by omega) h)))

/-- A number put into a 32-bit register is at most that number. -/
theorem toNat_ofNat32_le (n : Nat) : (BitVec.ofNat 32 n).toNat ≤ n := by
  rw [BitVec.toNat_ofNat]; exact Nat.mod_le _ _

/-! ## The invariant, update by update -/

namespace BlockInv

variable {s : State}

/-- Taking a fault keeps the invariant (R262). -/
theorem raised (h : BlockInv s) (k : BlockFault) : BlockInv (s.raised k) :=
  { h with img_closed := rfl, no_fault := fun hs => absurd rfl hs, fault_code := fun _ => code_range k }

theorem advance (h : BlockInv s) (n : Nat) : BlockInv (s.advance n) := { h with }

theorem closeImage (h : BlockInv s) : BlockInv s.closeImage := { h with img_closed := rfl }

/-- Records that `FT` may hold, appended within `FT_MAX` (R32, R33). -/
theorem appendFt (h : BlockInv s) {rs : List FtRecord} (hlen : s.ft.length + rs.length ≤ s.cfg.ftMax)
    (hok : ∀ f ∈ rs, f.ok s.cfg) : BlockInv { s with ft := s.ft ++ rs } :=
  { h with
    ft_le := by simpa using hlen
    ft_ok := fun f hf => (List.mem_append.1 hf).elim (h.ft_ok f) (hok f) }

/-- The list of a directory, put into `ET` within `ET_MAX` (R34, R202, R204). -/
theorem withEntries (h : BlockInv s) {img : Memory} {e : DirEntry} {es : List DirEntry} (hes : dirList s.cfg img e = .ok es)
    (hlen : es.length ≤ s.cfg.etMax) : BlockInv (s.withEntries es) :=
  { h with
    etn_le := Nat.le_trans (toNat_ofNat32_le _) hlen
    names_le := by
      obtain ⟨bs, _, rfl⟩ := dirList_ok.1 hes
      intro c hc
      rcases Store.mem_writeRange _ hc with ⟨_, _, hlive⟩ | hold
      · exact length_name_le hlive
      · exact h.names_le c hold
    et_wf := Store.writeRange_wf _ _ h.et_wf
    et_below := Store.writeRange_below (n := s.cfg.etMax) (by omega) h.et_below }

end BlockInv

/-! ## The invariant, descriptor by descriptor -/

/-- A descriptor that completes in a run keeps the invariant. -/
theorem Completed.keeps_inv {s t : State} {i : Instr} (h : Completed s t i) (hrun : s.state = .run) (inv : BlockInv s) :
    BlockInv t := by
  cases i with
  | endRun =>
    cases h
    exact { inv with no_fault := fun _ => inv.no_fault (by simp [hrun]), fault_code := nofun }
  | rd len => obtain ⟨_, _, rfl⟩ := h; exact { inv with }
  | unpack tb lens =>
    obtain ⟨hlens, hroom, _, rfl⟩ := h
    exact { inv.appendFt (by simpa using hroom) (unpackRecords_ok s.cfg s.db lens hlens s.bo) with }
  | unpacks tb =>
    obtain ⟨hmax, hroom, _, rfl⟩ := h
    have hok : ∀ f ∈ [FtRecord.str s.bo (readByteGroups s.db s.bo.toNat tb.toNat)], f.ok s.cfg := by
      simpa [FtRecord.ok] using hmax
    exact { inv.appendFt (by simpa using hroom) hok with }
  | skip a b => cases h; exact { inv with }
  | align b => cases h; exact { inv with }
  | seek a => cases h; exact { inv with }
  | padchk a n => obtain ⟨_, _, _, rfl⟩ := h; exact { inv with }
  | patch idx =>
    have hcap := inv.dblen_le
    obtain ⟨n, sg, off, v, _, _, hspan, rfl⟩ | ⟨off, bs, _, hspan, rfl⟩ := h
    · exact { inv with db_wf := putBits_wf _ _ _ inv.db_wf, db_below := putBits_below (c := s.cfg.dbCap) _ _ (by omega) inv.db_below }
    · exact { inv with db_wf := putByteGroups_wf _ _ inv.db_wf, db_below := putByteGroups_below (c := s.cfg.dbCap) _ (by omega) inv.db_below }
  | encw => cases h; exact { inv with }
  | decw => cases h; exact { inv with }
  | enc =>
    obtain ⟨_, hcap, rfl⟩ := h
    exact { inv with
      ctlen_le := hcap
      ct_wf := mapBlocks_wf _ _ _ _ inv.ct_wf
      ct_below := mapBlocks_below (c := s.cfg.ctCap) _ _ _ _ (by omega) inv.ct_below }
  | dec =>
    obtain ⟨_, hcap, rfl⟩ := h
    exact { inv with
      dblen_le := hcap
      db_wf := mapBlocks_wf _ _ _ _ inv.db_wf
      db_below := mapBlocks_below (c := s.cfg.dbCap) _ _ _ _ (by omega) inv.db_below }
  | crcinit => cases h; exact { inv with }
  | crcupd off n => obtain ⟨_, rfl⟩ := h; exact { inv with }
  | crcfin => cases h; exact { inv with }
  | ckxf => cases h; exact { inv with }
  | ckgen => cases h; exact { inv with }
  | ckvfy => obtain ⟨_, rfl⟩ := h; exact { inv with }
  | fatget cl => obtain ⟨_, rfl⟩ := h; exact { inv with img_closed := rfl }
  | rdchain idx =>
    obtain ⟨_, hcap, data, hdata, rfl⟩ := h
    have hlen := length_readChain hdata
    exact { inv with
      eblen_le := hcap
      img_closed := rfl
      eb_wf := writeBytes_wf _ _ inv.eb_wf
      eb_below := writeBytes_below (n := s.cfg.ebCap) (by omega) inv.eb_below }
  | wrchain idx =>
    obtain ⟨_, cls, hwalk, _, rfl⟩ := h
    exact { inv with
      img_closed := rfl
      img_wf := writeChain_wf _ _ inv.img_wf
      img_below := writeChain_below _ _ (walkFrom_mem_lt _ hwalk) inv.img_below }
  | eccgen off => obtain ⟨_, rfl⟩ := h; exact { inv with }
  | eccchk p => obtain ⟨_, _, _, rfl⟩ := h; exact { inv with img_closed := rfl }
  | lsroot =>
    obtain ⟨es, hes, hlen, rfl⟩ := h
    exact (inv.withEntries hes hlen).closeImage.advance _
  | lookup a n =>
    obtain ⟨_, _, _, es, _, _, hes, hlen, rfl⟩ := h
    exact (inv.withEntries hes hlen).closeImage.advance _
  | split =>
    obtain ⟨_, _, rfl⟩ := h
    have hcap := s.cfg.plen_le_ctCap
    exact { inv with
      ctlen_le := Nat.le_trans (toNat_ofNat32_le _) hcap
      ct_wf := writeBytes_wf _ _ (writeBytes_wf _ _ inv.ct_wf)
      ct_below := by
        refine writeBytes_below (n := s.cfg.ctCap) ?_ (writeBytes_below ?_ inv.ct_below)
        all_goals simp only [length_readBytes]; omega }
  | join =>
    obtain ⟨_, rfl⟩ := h
    exact { inv with
      eblen_le := Nat.le_trans (toNat_ofNat32_le _) s.cfg.contLen_le
      eb_wf := joinInto_wf s inv.eb_wf
      eb_below := joinInto_below s inv.eb_below }
  | dstart => obtain ⟨_, _, rfl⟩ := h; exact { inv with }

/-- Settles O11: a step changes nothing, raises a fault, or completes a descriptor. -/
theorem stepKeepsInvariant : Obligations.StepKeepsInvariant := by
  intro s t inv h
  obtain ⟨_, rfl⟩ | ⟨_, e, _, rfl⟩ | ⟨hrun, i, _, _, hexec⟩ := step_cases s t h
  · exact inv
  · exact inv.raised _
  · obtain ⟨k, rfl⟩ | hdone := exec_cases i s t hexec
    · exact inv.raised k
    · exact hdone.keeps_inv hrun inv

end Sys2Proof.Machine
end

section
/-! SUPPORT. The size of the descriptor at `dp` (30_encoding.md R93, R96), and that `dp` moves past it and stays within `DM`
(10_state.md R29; 45_sequencer.md R250). -/

namespace Sys2Proof

/-! ## The size of what decodes -/

/-- R95: the opcodes of a format. -/
def Shape.opcodes : Shape → List Nat
  | .z _ => Machine.zOps
  | .w1 _ => Machine.w1Ops
  | .w2 _ => Machine.w2Ops
  | .v _ => Machine.vOps

/-- The opcode map and the lists of opcodes by format are the same table (R95). -/
theorem opcode_mem_of_shapeOf {op : Byte} {sh : Shape} (h : shapeOf op = some sh) : op.toNat ∈ sh.opcodes := by
  unfold shapeOf opTable at h
  simp only [List.lookup] at h
  repeat' (split at h)
  all_goals first
    | (cases h; rename_i hop; cases eq_of_beq hop; simp [Shape.opcodes, Machine.zOps, Machine.w1Ops, Machine.w2Ops, Machine.vOps])
    | cases h

theorem w1Ops_disjoint : ∀ n ∈ Machine.w1Ops, n ∉ Machine.zOps := by decide
theorem w2Ops_disjoint : ∀ n ∈ Machine.w2Ops, n ∉ Machine.zOps ∧ n ∉ Machine.w1Ops := by decide
theorem vOps_disjoint : ∀ n ∈ Machine.vOps, n ∉ Machine.zOps ∧ n ∉ Machine.w1Ops ∧ n ∉ Machine.w2Ops := by decide

/-- For a head word of a descriptor, the decoder's size is the size R93 gives the format of its opcode. -/
theorem headSize_eq_sizeByFormat {head : W32} {sh : Shape} (h : shapeOf (headOp head) = some sh) :
    headSize head = Machine.sizeByFormat head := by
  have hop := opcode_mem_of_shapeOf h
  rw [toNat_headOp] at hop
  unfold headSize Machine.sizeByFormat
  rw [h]
  cases sh with
  | z i => simp only [if_pos (show _ ∈ Machine.zOps from hop)]
  | w1 mk =>
    have hz := w1Ops_disjoint _ hop
    simp only [if_neg hz, if_pos (show _ ∈ Machine.w1Ops from hop)]
  | w2 mk =>
    obtain ⟨hz, h1⟩ := w2Ops_disjoint _ hop
    simp only [if_neg hz, if_neg h1, if_pos (show _ ∈ Machine.w2Ops from hop)]
  | v mk =>
    obtain ⟨hz, h1, h2⟩ := vOps_disjoint _ hop
    simp only [if_neg hz, if_neg h1, if_neg h2, toNat_headImm]

/-- An instruction is encoded in as many words as its size says (R93). -/
theorem length_encode (i : Instr) : (encode i).length = i.size := by
  cases i with
  | unpack tb lens => exact Laws.EncodedSize.unpack tb lens
  | _ => rfl

/-- What passes the decoder: a head word with an opcode of R95 and clear reserved bits, whose operand words are there (R96). -/
theorem decode_ok {ws rest : List W32} {i : Instr} (h : decode ws = .ok (i, rest)) :
    ∃ head tl sh, ws = head :: tl ∧ shapeOf (headOp head) = some sh ∧ headRsv head = 0#8 ∧
      (sh.immFree = false → headImm head = 0#16) ∧ takeOperands sh (headImm head).toNat tl = .ok (i, rest) := by
  cases ws with
  | nil => cases h
  | cons head tl =>
    unfold decode at h
    dsimp only at h
    split at h
    · cases h
    · rename_i sh hsh
      split at h
      · cases h
      · rename_i hfields
        simp only [not_or, not_and, ne_eq, not_not] at hfields
        exact ⟨head, tl, sh, rfl, hsh, hfields.1, hfields.2, h⟩

/-- The operand words a format takes (R92): as many as make up the size of the instruction, which is the size of the head word. -/
theorem takeOperands_size {head : W32} {sh : Shape} {tl rest : List W32} {i : Instr} (hsh : shapeOf (headOp head) = some sh)
    (h : takeOperands sh (headImm head).toNat tl = .ok (i, rest)) :
    i.size = headSize head ∧ i.size ≤ tl.length + 1 := by
  have hrow := shapeOf_row _ _ hsh
  unfold headSize
  rw [hsh, ← length_encode]
  cases sh with
  | z j =>
    obtain ⟨_, _, hoperands⟩ := hrow
    cases h
    simp [encode, hoperands]
  | w1 mk =>
    cases tl with
    | nil => cases h
    | cons a tl =>
      obtain ⟨_, _, hoperands⟩ := hrow a
      cases h
      simp [encode, hoperands]
  | w2 mk =>
    match tl, h with
    | a :: b :: tl, h =>
      obtain ⟨_, _, hoperands⟩ := hrow a b
      cases h
      simp [encode, hoperands]
  | v mk =>
    obtain ⟨rfl, _⟩ := hrow
    cases tl with
    | nil => cases h
    | cons a tl =>
      unfold takeOperands at h
      dsimp only at h
      split at h
      · cases h
      · rename_i hcnt
        cases h
        have hlen : (tl.take (headImm head).toNat).length = (headImm head).toNat := by
          rw [List.length_take]; omega
        simp only [encode, Instr.operands, List.length_cons, hlen]
        omega

end Sys2Proof

namespace Sys2Proof.Machine

/-! ## The descriptor at `dp` -/

/-- What the sequencer reads at `dp` begins with the word of `DM` there, which `DM` has (R92, R96). -/
theorem fetchWords_cons {s : State} {head : W32} {tl : List W32} (h : fetchWords s = head :: tl) :
    head = readWord s.dm s.dp.toNat ∧ tl.length + 1 ≤ s.cfg.dmWords - s.dp.toNat := by
  have hlen : (fetchWords s).length = min (s.cfg.dmWords - s.dp.toNat) (headSize (readWord s.dm s.dp.toNat)) :=
    Store.length_readRange _ _ _ _
  have hhead : (fetchWords s)[0]? = if 0 < min (s.cfg.dmWords - s.dp.toNat) (headSize (readWord s.dm s.dp.toNat))
      then some (readWord s.dm s.dp.toNat) else none := Store.getElem?_readRange _ _ _ _ _
  rw [h, List.length_cons] at hlen
  rw [h, if_pos (by omega)] at hhead
  exact ⟨by simpa using hhead, by omega⟩

/-- The descriptor decoded at `dp` has the size R93 gives its head word, and lies within `DM`. -/
theorem size_of_decode_fetchWords {s : State} {i : Instr} {rest : List W32} (h : decode (fetchWords s) = .ok (i, rest)) :
    i.size = sizeByFormat (readWord s.dm s.dp.toNat) ∧ s.dp.toNat + i.size ≤ s.cfg.dmWords := by
  obtain ⟨head, tl, sh, hws, hsh, _, _, htake⟩ := decode_ok h
  obtain ⟨rfl, hroom⟩ := fetchWords_cons hws
  obtain ⟨hsize, hle⟩ := takeOperands_size hsh htake
  exact ⟨hsize.trans (headSize_eq_sizeByFormat hsh), by omega⟩

/-- What a step that stays in `RUN` does: the descriptor decoded at `dp` completes, and it is no `END`. -/
theorem step_completes {s t : State} (hs : s.state = .run) (h : step s = .next t) (ht : t.state = .run) :
    ∃ i rest, decode (fetchWords s) = .ok (i, rest) ∧ i ≠ .endRun ∧ Completed s t i := by
  obtain ⟨hidle, _⟩ | ⟨_, e, _, rfl⟩ | ⟨_, i, rest, hdec, hexec⟩ := step_cases s t h
  · exact absurd hs hidle
  · cases ht
  · obtain ⟨k, rfl⟩ | hdone := exec_cases i s t hexec
    · cases ht
    · refine ⟨i, rest, hdec, ?_, hdone⟩
      rintro rfl
      cases hdone
      cases ht

/-- Settles O8: the completed descriptor advances `dp` by its size, and `DM` is too small for the sum to wrap. -/
theorem pointerMovesForward : Obligations.PointerMovesForward := by
  intro s t hs h ht
  obtain ⟨i, rest, hdec, hend, hdone⟩ := step_completes hs h ht
  obtain ⟨hsize, hroom⟩ := size_of_decode_fetchWords hdec
  obtain ⟨_, hdp, _⟩ := hdone.frame hend
  have hdm := s.cfg.dmWords_le
  have hsum : t.dp.toNat = s.dp.toNat + i.size := by
    rw [hdp, BitVec.toNat_add, BitVec.toNat_ofNat]
    omega
  exact ⟨hsize ▸ hsum, hsum ▸ hroom⟩

end Sys2Proof.Machine
end

section
/-! SUPPORT. Which descriptors write which buffer or table (10_state.md R32), and what fixes the place of a record of `FT` (R33). -/

namespace Sys2Proof.Machine

/-- What a descriptor that completes writes of the buffers and tables (R32). -/
theorem Completed.buffers {s t : State} {i : Instr} (h : Completed s t i) :
    ((∀ x, i ≠ .rdchain x) → i ≠ .join → t.eb = s.eb ∧ t.eblen = s.eblen) ∧
    (i ≠ .split → i ≠ .enc → t.ct = s.ct ∧ t.ctlen = s.ctlen) ∧
    (i ≠ .dec → (∀ x, i ≠ .patch x) → t.db = s.db) ∧
    (i ≠ .lsroot → (∀ a n, i ≠ .lookup a n) → t.et = s.et ∧ t.etn = s.etn) ∧
    ((∀ b ls, i ≠ .unpack b ls) → (∀ b, i ≠ .unpacks b) → t.ft = s.ft) := by
  cases i
  case endRun | skip | align | seek | encw | decw | crcinit | crcfin | ckxf | ckgen => cases h; simp
  case crcupd | ckvfy | fatget | eccgen | join => obtain ⟨_, rfl⟩ := h; simp
  case rd | enc | dec | split | dstart => obtain ⟨_, _, rfl⟩ := h; simp
  case unpack | unpacks | padchk | eccchk => obtain ⟨_, _, _, rfl⟩ := h; simp
  case patch => obtain ⟨_, _, _, _, _, _, _, rfl⟩ | ⟨_, _, _, _, rfl⟩ := h <;> simp
  case rdchain | wrchain => obtain ⟨_, _, _, _, rfl⟩ := h; simp
  case lsroot => obtain ⟨_, _, _, rfl⟩ := h; simp
  case lookup => obtain ⟨_, _, _, _, _, _, _, _, rfl⟩ := h; simp

/-- Settles O16: a fault writes no buffer, a completion only those of its descriptor. -/
theorem bufferWriters : Obligations.BufferWriters := by
  intro i s t h
  obtain ⟨k, rfl⟩ | hdone := exec_cases i s t h
  · simp
  · exact hdone.buffers

/-- No descriptor removes, reorders or changes a record of `FT`: `UNPACK` and `UNPACKS` append, and no other writes the table (R33). -/
theorem exec_ft_append {i : Instr} {s t : State} (h : exec i s = .next t) : ∃ rs, t.ft = s.ft ++ rs := by
  obtain ⟨k, rfl⟩ | hdone := exec_cases i s t h
  · exact ⟨[], by simp⟩
  · obtain ⟨_, _, _, _, hft⟩ := hdone.buffers
    cases i
    case unpack => obtain ⟨_, _, _, rfl⟩ := hdone; exact ⟨_, rfl⟩
    case unpacks => obtain ⟨_, _, _, rfl⟩ := hdone; exact ⟨_, rfl⟩
    all_goals exact ⟨[], by rw [List.append_nil]; exact hft nofun nofun⟩

theorem step_ft_append {s t : State} (h : step s = .next t) : ∃ rs, t.ft = s.ft ++ rs := by
  obtain ⟨_, rfl⟩ | ⟨_, e, _, rfl⟩ | ⟨_, i, _, _, hexec⟩ := step_cases s t h
  · exact ⟨[], by simp⟩
  · exact ⟨[], by simp⟩
  · exact exec_ft_append hexec

@[simp] theorem FtRecord.place_withValue (v : W64) (f : FtRecord) : (f.withValue v).place = f.place := by cases f <;> rfl

@[simp] theorem FtRecord.place_withByte (j : Nat) (b : Byte) (f : FtRecord) : (f.withByte j b).place = f.place := by
  cases f with
  | int => rfl
  | str off bytes => simp [withByte, place]

/-- An edit of one record of a table that keeps its place keeps the place of every record. -/
theorem place_modify {ft : List FtRecord} {i k : Nat} {f : FtRecord} {edit : FtRecord → FtRecord}
    (hedit : ∀ g, (edit g).place = g.place) (hf : ft[i]? = some f) : ∃ g, (ft.modify k edit)[i]? = some g ∧ g.place = f.place := by
  rw [List.getElem?_modify, hf]
  refine ⟨_, rfl, ?_⟩
  split
  · exact hedit f
  · rfl

/-- Settles O58: a step only appends, and an edit of the host keeps the place of the record it edits. -/
theorem recordPlacesAreFixed : Obligations.RecordPlacesAreFixed := by
  intro s t i f hf
  refine ⟨fun h => ?_, fun k v => ?_, fun k j b => ?_⟩
  · obtain ⟨rs, hrs⟩ := step_ft_append h
    rw [hrs]
    rwa [List.getElem?_append_left (List.getElem?_eq_some_iff.1 hf).1]
  · unfold hostWriteFtValue unlessRunning
    split
    · exact ⟨f, hf, rfl⟩
    · exact place_modify (FtRecord.place_withValue v) hf
  · unfold hostWriteFtByte unlessRunning
    split
    · exact ⟨f, hf, rfl⟩
    · exact place_modify (FtRecord.place_withByte j b) hf

end Sys2Proof.Machine
end

section
/-! SUPPORT. The host port, the platform and reset keep the invariant of the block (10_state.md R25 to R27, R33, R34, R37). -/

namespace Sys2Proof.Machine

/-- What a memory reads as is blank or listed. -/
theorem Store.read_eq_blank_or_mem {α : Type} (blank : α) (m : Store α) (a : Nat) :
    Store.read blank m a = blank ∨ ∃ c ∈ m, Store.read blank m a = c.2 := by
  induction m with
  | nil => exact .inl rfl
  | cons c m ih =>
    rw [Store.read_cons]
    split
    · exact .inr ⟨c, by simp, rfl⟩
    · exact ih.imp_right fun ⟨d, hd, he⟩ => ⟨d, List.mem_cons_of_mem _ hd, he⟩

theorem FtRecord.ok_withValue {c : Config} (v : W64) {f : FtRecord} (h : f.ok c) : (f.withValue v).ok c := by
  cases f <;> exact h

theorem FtRecord.ok_withByte {c : Config} (j : Nat) (b : Byte) {f : FtRecord} (h : f.ok c) : (f.withByte j b).ok c := by
  cases f with
  | int => exact h
  | str off bytes => simpa [FtRecord.withByte, FtRecord.ok] using h

/-- R27: a register that is read-only, or is none, takes no write. -/
theorem registerWrite_readOnly {s : State} {v : W32} {n : Nat} (hn : n ∉ [0, 5, 6, 10, 11, 12, 17, 18, 21, 22, 23, 24, 25]) :
    registerWrite s v n = s := by
  unfold registerWrite
  split
  case h_14 => rfl
  all_goals simp at hn

/-! ## The invariant, access by access -/

namespace BlockInv

variable {s : State}

/-- An access that is made or discarded keeps the invariant if, made, it does. -/
theorem ite (h : BlockInv s) {c : Prop} [Decidable c] {t : State} (ht : c → BlockInv t) : BlockInv (if c then t else s) := by
  split
  · exact ht ‹c›
  · exact h

theorem unlessRunning (h : BlockInv s) {t : State} (ht : BlockInv t) : BlockInv (unlessRunning s t) := by
  unfold Machine.unlessRunning
  split
  · exact h
  · exact ht

/-- START clears the status (R244). -/
theorem started (h : BlockInv s) (v : W32) : BlockInv (s.started v) :=
  { h with no_fault := fun _ => ⟨rfl, rfl⟩, fault_code := nofun }

/-- A shorter `FT` (R27, number 24). -/
theorem takeFt (h : BlockInv s) (n : Nat) : BlockInv { s with ft := s.ft.take n } :=
  { h with
    ft_le := Nat.le_trans (List.length_take_le' _ _) h.ft_le
    ft_ok := fun f hf => h.ft_ok f (List.mem_of_mem_take hf) }

/-- A register write keeps the invariant: the lengths are checked against their capacities, and the invariant does not speak of the
cursor, the totals, the cipher halves and the checksum registers (R25 to R27). The cases stand in the order of the numbers. -/
theorem registerWrite (h : BlockInv s) (v : W32) (n : Nat) : BlockInv (registerWrite s v n) := by
  by_cases hn : n ∈ [0, 5, 6, 10, 11, 12, 17, 18, 21, 22, 23, 24, 25]
  · simp only [List.mem_cons, List.not_mem_nil, or_false] at hn
    rcases hn with rfl | rfl | rfl | rfl | rfl | rfl | rfl | rfl | rfl | rfl | rfl | rfl | rfl
    · exact h.started v
    · exact { h with }
    · exact { h with }
    · exact { h with }
    · exact { h with }
    · exact h.ite fun _ => { h with }
    · exact { h with }
    · exact { h with }
    · exact h.ite fun hv => { h with dblen_le := hv }
    · exact h.ite fun hv => { h with ctlen_le := hv }
    · exact h.ite fun hv => { h with eblen_le := hv }
    · exact h.ite fun _ => h.takeFt v.toNat
    · exact h.ite fun hv => { h with etn_le := hv }
  · rw [registerWrite_readOnly hn]
    exact h

/-- A byte written inside a space (R248). -/
theorem putByte (h : BlockInv s) (sp : ByteSpace) {a : Nat} (ha : a < sp.cap s.cfg) (b : Byte) :
    BlockInv (sp.put s (writeByte (sp.mem s) a b)) := by
  cases sp with
  | cb => exact { h with cb_wf := writeByte_wf _ _ h.cb_wf, cb_below := Store.write_below ha h.cb_below }
  | eb => exact { h with eb_wf := writeByte_wf _ _ h.eb_wf, eb_below := Store.write_below ha h.eb_below }
  | ct => exact { h with ct_wf := writeByte_wf _ _ h.ct_wf, ct_below := Store.write_below ha h.ct_below }
  | db => exact { h with db_wf := writeByte_wf _ _ h.db_wf, db_below := Store.write_below ha h.db_below }

theorem putDm (h : BlockInv s) {i : Nat} (hi : i < s.cfg.dmWords) (w : W32) : BlockInv { s with dm := writeWord s.dm i w } :=
  { h with dm_wf := Store.write_wf _ _ h.dm_wf, dm_below := Store.write_below hi h.dm_below }

/-- An edit of a record of `FT` that leaves a record `FT` may hold (R33). -/
theorem modifyFt (h : BlockInv s) (i : Nat) {edit : FtRecord → FtRecord} (hedit : ∀ {f}, f.ok s.cfg → (edit f).ok s.cfg) :
    BlockInv { s with ft := s.ft.modify i edit } :=
  { h with
    ft_le := by simpa using h.ft_le
    ft_ok := fun f hf => by
      obtain ⟨j, hj⟩ := List.mem_iff_getElem?.1 hf
      rw [List.getElem?_modify] at hj
      obtain ⟨g, hg, rfl⟩ := Option.map_eq_some_iff.1 hj
      have hok := h.ft_ok g (List.mem_of_getElem? hg)
      split
      · exact hedit hok
      · exact hok }

/-- A field of a record of `ET` written, a name within `NAME_MAX` (R34). -/
theorem putEntry (h : BlockInv s) {i : Nat} {w : EntryWrite} (hi : i < s.cfg.etMax) (hw : w.fits s.cfg.nameMax = true) :
    BlockInv { s with et := writeEntry s.et i (w.apply (readEntry s.et i)) } :=
  have hname : (readEntry s.et i).name.length ≤ s.cfg.nameMax := by
    obtain hblank | ⟨c, hc, hread⟩ := Store.read_eq_blank_or_mem blankEntry s.et i
    · rw [readEntry, hblank]; exact Nat.zero_le _
    · rw [readEntry, hread]; exact h.names_le c hc
  { h with
    names_le := fun c hc => (Store.mem_write hc).elim
      (fun hnew => hnew ▸ EntryWrite.name_apply_le hw hname) (h.names_le c)
    et_wf := Store.write_wf _ _ h.et_wf
    et_below := Store.write_below hi h.et_below }

theorem putImg (h : BlockInv s) {a : Nat} (ha : a < s.cfg.imgLen) (b : Byte) : BlockInv { s with img := writeByte s.img a b } :=
  { h with img_wf := writeByte_wf _ _ h.img_wf, img_below := Store.write_below ha h.img_below }

/-- Another image attached, cut to `IMG_LEN` (R81, log 12). -/
theorem attachImg (h : BlockInv s) {m : Memory} (hm : Memory.wf m) :
    BlockInv { s with img := m.filter (fun c => decide (c.1 < s.cfg.imgLen)) } :=
  { h with
    img_wf := ⟨hm.1.filter _, fun c hc => hm.2 c (List.mem_of_mem_filter hc)⟩
    img_below := fun c hc => by simpa using List.of_mem_filter hc }

end BlockInv

/-- Settles O13: each access is discarded in a run, and outside one keeps the bounds it is checked against. -/
theorem hostKeepsInvariant : Obligations.HostKeepsInvariant := by
  intro s h
  refine ⟨fun n v => ?_, fun sp a b => ?_, fun i w => ?_, fun i v => ?_, fun i j b => ?_, fun i w => ?_, fun a b => ?_, fun m hm => ?_⟩
  all_goals apply h.unlessRunning
  · exact h.registerWrite v n
  · exact h.ite fun ha => h.putByte sp ha b
  · exact h.ite fun hi => h.putDm hi w
  · exact h.modifyFt i (FtRecord.ok_withValue v)
  · exact h.modifyFt i (FtRecord.ok_withByte j b)
  · exact h.ite fun hw => h.putEntry hw.1 hw.2
  · exact h.ite fun ha => h.putImg ha b
  · exact h.attachImg hm

/-! ## Reset -/

/-- The state after reset, the memories being sound, meets the invariant (R37). -/
theorem blockInv_resetWith {c : Config} {m : Contents} (h : m.ok c) : BlockInv (State.resetWith c m) where
  dblen_le := Nat.zero_le _
  ctlen_le := Nat.zero_le _
  eblen_le := Nat.zero_le _
  etn_le := Nat.zero_le _
  ft_le := Nat.zero_le _
  ft_ok := nofun
  img_closed := rfl
  no_fault := fun _ => ⟨rfl, rfl⟩
  fault_code := nofun
  __ := h

/-- Memories that list nothing are sound for every configuration. -/
theorem Contents.empty_ok (c : Config) : Contents.empty.ok c := by
  constructor <;> simp [Contents.empty, Memory.wf, Store.wf]

/-- Settles O12: the registers are 0 and `FT` is empty, so only the memories are left, whose soundness is assumed or, listing nothing, plain. -/
theorem invariantAtReset : Obligations.InvariantAtReset :=
  ⟨fun _ _ hm => blockInv_resetWith hm, blockInv_resetWith (Contents.empty_ok testcfg)⟩

/-- Settles O59: by the definition of the reset input, field by field. -/
theorem resetRegisters : Obligations.ResetRegisters := by
  intro s m
  rfl

end Sys2Proof.Machine
end

section
/-! SUPPORT. The registers as the host reads and writes them outside a run (10_state.md R21, R26, R27; 45_sequencer.md R245). -/

namespace Sys2Proof.Machine

/-! ## The two halves of a 64-bit register -/

theorem toNat_low_half (w : W64) : (w.extractLsb' 0 32).toNat = w.toNat % 2 ^ 32 := by simp

theorem toNat_high_half (w : W64) : (w.extractLsb' 32 32).toNat = w.toNat / 2 ^ 32 := by
  have := w.isLt
  simp only [BitVec.extractLsb'_toNat, Nat.shiftRight_eq_div_pow]
  omega

/-! ## Reading -/

theorem hostRead_idle {s : State} (h : s.state ≠ .run) (n : Nat) : hostRead s n = registerValue s n :=
  if_neg fun hn => h hn.1

/-- A number of no register, or of the write-only `CTRL`, reads as 0 (R27). -/
theorem registerValue_none (s : State) {n : Nat} (hn : n = 0 ∨ 26 < n) : registerValue s n = 0#32 := by
  unfold registerValue
  split
  case h_27 => rfl
  all_goals omega

/-! ## Writing -/

/-- A register write but START's shows under its own number only (R27). -/
theorem registerValue_registerWrite_other {s : State} {v : W32} {n m : Nat} (hn : n ≠ 0) (hm : m ≠ n) :
    registerValue (registerWrite s v n) m = registerValue s m := by
  unfold registerWrite
  split
  case h_1 => exact absurd rfl hn
  case h_14 => rfl
  case h_6 | h_9 | h_10 | h_11 | h_12 | h_13 =>
    split
    case isFalse => rfl
    unfold registerValue
    split <;> first | rfl | exact absurd rfl hm
  case h_7 | h_8 =>
    unfold registerValue
    split <;> first | rfl | exact absurd rfl hm | exact extract_append_hi _ _ | exact extract_append_lo _ _
  all_goals
    unfold registerValue
    split <;> first | rfl | exact absurd rfl hm

/-- Register `n` takes values up to `bound`: one within it makes the state `after`, in which it is read back under `n` and under no other
number; one above it is discarded. -/
def StoresRegister (s : State) (n bound : Nat) (after : W32 → State) : Prop :=
  ∀ v : W32,
    (v.toNat ≤ bound → hostWrite s n v = after v ∧ hostRead (after v) n = v ∧ ∀ m, m ≠ n → hostRead (after v) m = hostRead s m) ∧
    (bound < v.toNat → hostWrite s n v = s)

section

variable {s : State} {n bound : Nat} {after : W32 → State} (hs : s.state ≠ .run) (hn : n ≠ 0)
  (hstate : ∀ v, (after v).state = s.state)
include hs hn hstate

/-- A register with a bound: what is left to show is what the write stores, and that it is read back. -/
theorem storesRegister_of_bound (hwrite : ∀ v, registerWrite s v n = if v.toNat ≤ bound then after v else s)
    (hread : ∀ v, v.toNat ≤ bound → registerValue (after v) n = v) : StoresRegister s n bound after := by
  intro v
  have hwrite_v : hostWrite s n v = if v.toNat ≤ bound then after v else s := (unlessRunning_idle hs).trans (hwrite v)
  have hafter : (after v).state ≠ .run := hstate v ▸ hs
  refine ⟨fun hv => ⟨?_, ?_, fun m hm => ?_⟩, fun hv => ?_⟩
  · rw [hwrite_v, if_pos hv]
  · rw [hostRead_idle hafter, hread v hv]
  · have hsame := registerValue_registerWrite_other (s := s) (v := v) hn hm
    rw [hwrite v, if_pos hv] at hsame
    rw [hostRead_idle hafter, hostRead_idle hs, hsame]
  · rw [hwrite_v, if_neg (Nat.not_le_of_lt hv)]

/-- A register of 32 bits, or half of one of 64, takes every value. -/
theorem storesRegister_of_every (hwrite : ∀ v, registerWrite s v n = after v) (hread : ∀ v, registerValue (after v) n = v) :
    StoresRegister s n (2 ^ 32 - 1) after :=
  storesRegister_of_bound hs hn hstate
    (fun v => by rw [hwrite v, if_pos (Nat.le_sub_one_of_lt v.isLt)]) fun v _ => hread v

end

/-- A value of at most 16 bits survives the 16-bit register `crc`. -/
theorem zeroExtend_truncate16 {v : W32} (h : v.toNat ≤ 0xFFFF) : (v.truncate 16 : W16).zeroExtend 32 = v := by
  apply BitVec.eq_of_toNat_eq
  simp only [BitVec.truncate_eq_setWidth, BitVec.toNat_setWidth]
  omega

/-- A table cut to a number of records it has shows that number as its length (R33). -/
theorem ftn_take {s : State} {v : W32} (h : v.toNat ≤ s.ft.length) : State.ftn { s with ft := s.ft.take v.toNat } = v := by
  rw [State.ftn, List.length_take, Nat.min_eq_left h, BitVec.ofNat_toNat, BitVec.setWidth_eq]

/-- Settles O56: number by number, what the read gives and what the write stores. -/
theorem hostRegisterPort : Obligations.HostRegisterPort := by
  intro s hs reads stores
  have read : ∀ {n x}, (registerValue s n).toNat = x → reads n x := fun h => (congrArg _ (hostRead_idle hs _)).trans h
  refine ⟨
    -- STATE, ERR, EINFO, DP (R21)
    read ?state, read ?err, read rfl, read rfl,
    -- the cursor and what the field reads report (R22)
    read rfl, read rfl, read (toNat_low_half _), read (toNat_high_half _), read rfl,
    -- the cipher halves and the checksum unit (R23, R24)
    read rfl, read rfl, read ?crc, read rfl, read rfl, read (toNat_low_half _), read (toNat_high_half _),
    read (toNat_low_half _), read (toNat_high_half _),
    -- the container and the valid lengths (R25, R26)
    read rfl, read rfl, read rfl, read rfl, read rfl, read (BitVec.toNat_ofNat _ _), read rfl, read ?imgMode,
    -- no register
    fun n hn => read (congrArg _ (registerValue_none s hn)),
    -- what a write to `bo`, `utot`, `L`, `R`, `crc` and the two halves of `cstored` stores
    storesRegister_of_every hs (by decide) (fun _ => rfl) (fun _ => rfl) (fun _ => rfl),
    storesRegister_of_every hs (by decide) (fun _ => rfl) (fun _ => rfl) (fun _ => rfl),
    storesRegister_of_every hs (by decide) (fun _ => rfl) (fun _ => rfl) (fun _ => rfl),
    storesRegister_of_every hs (by decide) (fun _ => rfl) (fun _ => rfl) (fun _ => rfl),
    storesRegister_of_bound hs (by decide) (fun _ => rfl) (fun _ => rfl) (fun _ => zeroExtend_truncate16),
    storesRegister_of_every hs (by decide) (fun _ => rfl) (fun _ => rfl) (fun _ => extract_append_lo _ _),
    storesRegister_of_every hs (by decide) (fun _ => rfl) (fun _ => rfl) (fun _ => extract_append_hi _ _),
    -- what a write to `dblen`, `ctlen`, `eblen`, `ftn` and `etn` stores
    storesRegister_of_bound hs (by decide) (fun _ => rfl) (fun _ => rfl) (fun _ _ => rfl),
    storesRegister_of_bound hs (by decide) (fun _ => rfl) (fun _ => rfl) (fun _ _ => rfl),
    storesRegister_of_bound hs (by decide) (fun _ => rfl) (fun _ => rfl) (fun _ _ => rfl),
    storesRegister_of_bound hs (by decide) (fun _ => rfl) (fun _ => rfl) (fun _ => ftn_take),
    storesRegister_of_bound hs (by decide) (fun _ => rfl) (fun _ => rfl) (fun _ _ => rfl),
    fun n v hn => (unlessRunning_idle hs).trans (registerWrite_readOnly hn)⟩
  case state => cases h : s.state <;> simp [registerValue, h, RunState.code]
  case err | crc => exact BitVec.toNat_setWidth_of_le (by decide)
  case imgMode => cases h : s.imgMode <;> simp [registerValue, h, ImgMode.code]

end Sys2Proof.Machine
end

section
/-! SUPPORT. The program, its constants and the configuration are read only, and the image has one writer (20_memory.md R79, R82;
43_filesystem.md R195). -/

namespace Sys2Proof.Machine

/-- `END` too leaves `DM`, `CB` and the configuration (R31, R32). -/
theorem Completed.program {s t : State} {i : Instr} (h : Completed s t i) : t.dm = s.dm ∧ t.cb = s.cb ∧ t.cfg = s.cfg := by
  by_cases hend : i = .endRun
  · subst hend
    cases h
    exact ⟨rfl, rfl, rfl⟩
  · obtain ⟨_, _, hcfg, hdm, hcb, _⟩ := h.frame hend
    exact ⟨hdm, hcb, hcfg⟩

/-- Settles O14: a step changes nothing, raises a fault, or completes a descriptor. -/
theorem programIsNotWritten : Obligations.ProgramIsNotWritten := by
  intro s t h
  obtain ⟨_, rfl⟩ | ⟨_, e, _, rfl⟩ | ⟨_, i, _, _, hexec⟩ := step_cases s t h
  · exact ⟨rfl, rfl, rfl⟩
  · simp
  · obtain ⟨k, rfl⟩ | hdone := exec_cases i s t hexec
    · simp
    · exact hdone.program

/-- A descriptor that completes and is no `WRCHAIN` leaves the image (R82). -/
theorem Completed.img {s t : State} {i : Instr} (h : Completed s t i) (hi : ∀ idx, i ≠ .wrchain idx) : t.img = s.img := by
  cases i
  case wrchain idx => exact absurd rfl (hi idx)
  case endRun | skip | align | seek | encw | decw | crcinit | crcfin | ckxf | ckgen => cases h; rfl
  case crcupd | ckvfy | fatget | eccgen | join => obtain ⟨_, rfl⟩ := h; rfl
  case rd | enc | dec | split | dstart => obtain ⟨_, _, rfl⟩ := h; rfl
  case unpack | unpacks | padchk | eccchk | lsroot => obtain ⟨_, _, _, rfl⟩ := h; rfl
  case patch => obtain ⟨_, _, _, _, _, _, _, rfl⟩ | ⟨_, _, _, _, rfl⟩ := h <;> rfl
  case rdchain => obtain ⟨_, _, _, _, rfl⟩ := h; rfl
  case lookup => obtain ⟨_, _, _, _, _, _, _, _, rfl⟩ := h; rfl

/-- No descriptor that completes in a run leaves the block in `FAULT`: `END` leaves it in `DONE`, every other in `RUN` (R240). -/
theorem Completed.not_fault {s t : State} {i : Instr} (h : Completed s t i) (hrun : s.state = .run) : t.state ≠ .fault := by
  by_cases hend : i = .endRun
  · subst hend
    cases h
    exact nofun
  · obtain ⟨hstate, _⟩ := h.frame hend
    rw [hstate, hrun]
    exact nofun

/-- Settles O15: a fault leaves the image, a completion is no fault, and of the completions only that of `WRCHAIN` writes it. -/
theorem onlyWrchainWritesImage : Obligations.OnlyWrchainWritesImage := by
  intro i s t h hrun hcase
  obtain ⟨k, rfl⟩ | hdone := exec_cases i s t h
  · exact s.raised_img k
  · obtain hother | hfault := hcase
    · exact hdone.img hother
    · exact absurd hfault (hdone.not_fault hrun)

end Sys2Proof.Machine
end

section
/-! SUPPORT. Decoding and encoding (30_encoding.md): a well-formed instruction is read back from its words (R90 to R95), nothing else
decodes (R97, R100), and the four checks on the descriptor at `dp` come in the order of R96. -/

namespace Sys2Proof

/-! ## The decoder, check by check -/

/-- R96 check 2. -/
theorem decode_eq_unknownOp {head : W32} (tl : List W32) (h : shapeOf (headOp head) = none) :
    decode (head :: tl) = .error .unknownOp := by
  simp only [decode, h]

/-- R96 check 3. -/
theorem decode_eq_reservedField {head : W32} {sh : Shape} (tl : List W32) (hsh : shapeOf (headOp head) = some sh)
    (h : headRsv head ≠ 0#8 ∨ (sh.immFree = false ∧ headImm head ≠ 0#16)) :
    decode (head :: tl) = .error .reservedField := by
  simp only [decode, hsh, if_pos h]

/-- A head word that passes checks 2 and 3 of R96 leaves check 4 and the operand words to its format (R92). -/
theorem decode_eq_takeOperands {head : W32} {sh : Shape} (tl : List W32) (hsh : shapeOf (headOp head) = some sh)
    (h : ¬ (headRsv head ≠ 0#8 ∨ (sh.immFree = false ∧ headImm head ≠ 0#16))) :
    decode (head :: tl) = takeOperands sh (headImm head).toNat tl := by
  simp only [decode, hsh, if_neg h]

/-- R92: how many operand words a format takes when `imm16` is `cnt`. -/
def Shape.operandCount (cnt : Nat) : Shape → Nat
  | .z _ => 0
  | .w1 _ => 1
  | .w2 _ => 2
  | .v _ => 1 + cnt

theorem headSize_eq_operandCount {head : W32} {sh : Shape} (h : shapeOf (headOp head) = some sh) :
    headSize head = 1 + sh.operandCount (headImm head).toNat := by
  unfold headSize
  rw [h]
  cases sh with
  | v mk => simp only [Shape.operandCount]; omega
  | _ => rfl

/-- R96 check 4 fails exactly where operand words are missing, and nothing else fails while they are read. -/
theorem takeOperands_eq_error_iff {sh : Shape} {cnt : Nat} {ws : List W32} {e : DecodeError} :
    takeOperands sh cnt ws = .error e ↔ e = .operandsMissing ∧ ws.length < sh.operandCount cnt := by
  cases sh with
  | z i => simp [takeOperands, Shape.operandCount]
  | w1 mk => cases ws <;> simp [takeOperands, Shape.operandCount, eq_comm]
  | w2 mk =>
    match ws with
    | [] | [_] | _ :: _ :: _ => simp [takeOperands, Shape.operandCount, eq_comm]
  | v mk =>
    cases ws with
    | nil => simp [takeOperands, Shape.operandCount, eq_comm]
    | cons a rest =>
      by_cases h : rest.length < cnt <;> simp [takeOperands, Shape.operandCount, Nat.add_comm 1 cnt, h, eq_comm]

/-! ## Reading back what is encoded -/

/-- The row of R95 for an instruction's opcode, and what it reads from the operand words of the instruction. Only an `UNPACK` of more
lengths than `imm16` can count is not read back. -/
theorem shapeOf_opcode (i : Instr) : ∃ sh, shapeOf i.opcode = some sh ∧ (sh.immFree = false → i.imm16 = 0#16) ∧
    (i.wellFormed = true → ∀ rest, takeOperands sh i.imm16.toNat (i.operands ++ rest) = .ok (i, rest)) := by
  cases i with
  | unpack totalBytes lens =>
    refine ⟨.v .unpack, rfl, nofun, fun hwf rest => ?_⟩
    have hcnt : (Instr.unpack totalBytes lens).imm16.toNat = lens.length :=
      Nat.mod_eq_of_lt (of_decide_eq_true hwf)
    rw [hcnt]
    simp [takeOperands, Instr.operands]
  | _ => exact ⟨_, rfl, fun _ => rfl, fun _ _ => rfl⟩

/-- Settles O1: the three fields of the head word read back, so the decoder takes the row of the instruction's opcode. -/
theorem decodeOfEncode : Obligations.DecodeOfEncode := by
  intro i rest hwf
  obtain ⟨sh, hsh, himm, htake⟩ := shapeOf_opcode i
  rw [← headOp_headWord] at hsh
  have hfields : ¬ (headRsv i.headWord ≠ 0#8 ∨ (sh.immFree = false ∧ headImm i.headWord ≠ 0#16)) := by
    rw [headRsv_headWord, headImm_headWord]
    rintro (hrsv | ⟨hfree, hne⟩)
    · exact hrsv rfl
    · exact hne (himm hfree)
  calc decode (encode i ++ rest)
      = takeOperands sh (headImm i.headWord).toNat (i.operands ++ rest) := decode_eq_takeOperands _ hsh hfields
    _ = .ok (i, rest) := by rw [headImm_headWord, htake hwf]

theorem decode_of_encode_eq {i : Instr} {ws : List W32} (hwf : i.wellFormed = true) (hws : encode i = ws) :
    decode ws = .ok (i, []) := by
  have h := decodeOfEncode i [] hwf
  rwa [List.append_nil, hws] at h

/-- Settles O3: the words are the encodings of the instructions. -/
theorem sampleWordsDecode : Obligations.SampleWordsDecode :=
  ⟨decode_of_encode_eq rfl rfl, decode_of_encode_eq rfl rfl, decode_of_encode_eq rfl rfl, decode_of_encode_eq rfl rfl,
    decode_of_encode_eq rfl rfl, decode_of_encode_eq rfl rfl, decode_of_encode_eq rfl rfl, decode_of_encode_eq rfl rfl⟩

/-! ## Nothing else decodes -/

/-- The condition of R90 on an instruction is that it is no longer than the longest one (R98). -/
theorem wellFormed_iff_size_le (i : Instr) : i.wellFormed = true ↔ i.size ≤ Machine.maxWords := by
  cases i with
  | unpack totalBytes lens =>
    simp only [Instr.wellFormed, Instr.size, Machine.maxWords, decide_eq_true_eq]
    omega
  | _ => exact ⟨fun _ => by simp [Instr.size, Machine.maxWords], fun _ => rfl⟩

theorem headSize_le_maxWords (head : W32) : headSize head ≤ Machine.maxWords := by
  have := (headImm head).isLt
  unfold headSize Machine.maxWords
  split <;> omega

/-- What a format makes of operand words holds every bit of the head word and all the words taken (R92, R97). -/
theorem takeOperands_ok {head : W32} {sh : Shape} {tl rest : List W32} {i : Instr} (hsh : shapeOf (headOp head) = some sh)
    (himm : sh.immFree = false → headImm head = 0#16) (h : takeOperands sh (headImm head).toNat tl = .ok (i, rest)) :
    i.opcode = headOp head ∧ i.imm16 = headImm head ∧ tl = i.operands ++ rest := by
  have hrow := shapeOf_row _ _ hsh
  cases sh with
  | z j =>
    obtain ⟨hop, himm16, hoperands⟩ := hrow
    cases h
    exact ⟨hop, himm16.trans (himm rfl).symm, by rw [hoperands]; rfl⟩
  | w1 mk =>
    match tl, h with
    | a :: tl, h =>
      obtain ⟨hop, himm16, hoperands⟩ := hrow a
      cases h
      exact ⟨hop, himm16.trans (himm rfl).symm, by rw [hoperands]; rfl⟩
  | w2 mk =>
    match tl, h with
    | a :: b :: tl, h =>
      obtain ⟨hop, himm16, hoperands⟩ := hrow a b
      cases h
      exact ⟨hop, himm16.trans (himm rfl).symm, by rw [hoperands]; rfl⟩
  | v mk =>
    obtain ⟨rfl, hop⟩ := hrow
    cases tl with
    | nil => cases h
    | cons a tl =>
      unfold takeOperands at h
      dsimp only at h
      split at h
      · cases h
      · rename_i hcnt
        cases h
        refine ⟨hop.symm, ?_, by simp [Instr.operands]⟩
        rw [Instr.imm16, List.length_take, Nat.min_eq_left (Nat.le_of_not_lt hcnt), BitVec.ofNat_toNat, BitVec.setWidth_eq]

/-- Settles O2: the fields of the head word are those of the instruction, and its size is that of the head word. -/
theorem encodeOfDecode : Obligations.EncodeOfDecode := by
  intro ws rest i h
  obtain ⟨head, tl, sh, rfl, hsh, hrsv, himm, htake⟩ := decode_ok h
  obtain ⟨hop, himm16, hoperands⟩ := takeOperands_ok hsh himm htake
  obtain ⟨hsize, _⟩ := takeOperands_size hsh htake
  have hhead : head = i.headWord := by rw [Instr.headWord, hop, himm16, ← hrsv]; exact head_of_fields head
  exact ⟨(wellFormed_iff_size_le i).2 (hsize ▸ headSize_le_maxWords head), by rw [hhead, hoperands]; rfl⟩

/-! ## The opcode map and the lists of opcodes by format -/

/-- R95: the opcode map has the opcodes of the four lists and no other. -/
theorem shapeOf_eq_none_iff (op : Byte) :
    shapeOf op = none ↔ op.toNat ∉ Machine.zOps ++ Machine.w1Ops ++ Machine.w2Ops ++ Machine.vOps := by
  constructor
  · have hlisted : ∀ n ∈ Machine.zOps ++ Machine.w1Ops ++ Machine.w2Ops ++ Machine.vOps,
        (shapeOf (BitVec.ofNat 8 n)).isSome = true := by decide
    intro hnone hmem
    have hsome := hlisted _ hmem
    rw [BitVec.ofNat_toNat, BitVec.setWidth_eq, hnone] at hsome
    cases hsome
  · intro hmem
    cases hsh : shapeOf op with
    | none => rfl
    | some sh =>
      have hop := opcode_mem_of_shapeOf hsh
      cases sh <;> simp only [Shape.opcodes] at hop <;> simp [hop] at hmem

/-- R90: `imm16` must be 0 in every format but V. -/
theorem immFree_eq_false_iff {op : Byte} {sh : Shape} (h : shapeOf op = some sh) :
    sh.immFree = false ↔ op.toNat ∉ Machine.vOps := by
  have hop := opcode_mem_of_shapeOf h
  cases sh with
  | z i => exact ⟨fun _ hv => (vOps_disjoint _ hv).1 hop, fun _ => rfl⟩
  | w1 mk => exact ⟨fun _ hv => (vOps_disjoint _ hv).2.1 hop, fun _ => rfl⟩
  | w2 mk => exact ⟨fun _ hv => (vOps_disjoint _ hv).2.2 hop, fun _ => rfl⟩
  | v mk => exact ⟨nofun, fun hv => absurd hop hv⟩

/-- R96 check 3 as the decoder makes it on the fields is the check on the number the head word is. -/
theorem reservedField_iff {head : W32} {sh : Shape} (h : shapeOf (headOp head) = some sh) :
    (headRsv head ≠ 0#8 ∨ (sh.immFree = false ∧ headImm head ≠ 0#16)) ↔
      (head.toNat / 256 % 256 ≠ 0 ∨ (head.toNat % 256 ∉ Machine.vOps ∧ head.toNat / 65536 ≠ 0)) := by
  rw [immFree_eq_false_iff h, toNat_headOp, ← toNat_headRsv, ← toNat_headImm, ← BitVec.toNat_ne_iff_ne (n := 8),
    ← BitVec.toNat_ne_iff_ne (n := 16)]
  rfl

end Sys2Proof

namespace Sys2Proof.Machine

/-! ## The four checks on the descriptor at `dp` -/

theorem step_of_decode_ok {s : State} {i : Instr} {rest : List W32} (hs : s.state = .run)
    (h : decode (fetchWords s) = .ok (i, rest)) : step s = exec i s := by
  simp only [step, hs, h]

theorem step_of_decode_error {s : State} {e : DecodeError} (hs : s.state = .run) (h : decode (fetchWords s) = .error e) :
    step s = .next (s.raised (.illegalDescriptor e.info)) := by
  simp only [step, hs, h, raise]

/-- With `dp` at or past `DM_WORDS` there is no head word to read (R96 check 1). -/
theorem fetchWords_eq_nil {s : State} (h : s.cfg.dmWords ≤ s.dp.toNat) : fetchWords s = [] := by
  rw [fetchWords, Nat.sub_eq_zero_of_le h, Nat.zero_min]
  rfl

/-- With `dp` inside `DM` the head word is read, and of its operand words those that `DM` has (R96 check 4). -/
theorem fetchWords_eq_cons {s : State} (h : s.dp.toNat < s.cfg.dmWords) :
    ∃ tl, fetchWords s = readWord s.dm s.dp.toNat :: tl ∧
      tl.length + 1 = min (s.cfg.dmWords - s.dp.toNat) (headSize (readWord s.dm s.dp.toNat)) := by
  have hlen : (fetchWords s).length = min (s.cfg.dmWords - s.dp.toNat) (headSize (readWord s.dm s.dp.toNat)) :=
    Store.length_readRange _ _ _ _
  have hpos : 1 ≤ headSize (readWord s.dm s.dp.toNat) := by
    unfold headSize
    split <;> omega
  cases hws : fetchWords s with
  | nil => rw [hws, List.length_nil] at hlen; omega
  | cons head tl =>
    obtain ⟨rfl, _⟩ := fetchWords_cons hws
    exact ⟨tl, rfl, by rwa [hws, List.length_cons] at hlen⟩

/-- The words the sequencer reads at `dp` are the words of `DM` there. -/
theorem dmHolds_of_fetchWords {s : State} {ws rest : List W32} (h : fetchWords s = ws ++ rest) : dmHolds s s.dp.toNat ws := by
  intro k hk
  have hread : (fetchWords s)[k]? = if k < _ then some (readWord s.dm (s.dp.toNat + k)) else none :=
    Store.getElem?_readRange _ _ _ _ _
  rw [h, List.getElem?_append_left hk] at hread
  split at hread
  · rw [List.getD_eq_getElem?_getD, hread, Option.getD_some]
  · rw [List.getElem?_eq_none_iff] at hread
    omega

/-- A descriptor the decoder reads at `dp` has the size and the opcode of the head word, and its words are those of `DM`. -/
theorem dmHolds_of_decode {s : State} {i : Instr} {rest : List W32} (h : decode (fetchWords s) = .ok (i, rest)) :
    i.size = sizeByFormat (readWord s.dm s.dp.toNat) ∧ i.opcode.toNat = (readWord s.dm s.dp.toNat).toNat % 256 ∧
      dmHolds s s.dp.toNat (encode i) := by
  obtain ⟨hsize, _⟩ := size_of_decode_fetchWords h
  obtain ⟨_, hws⟩ := encodeOfDecode _ _ _ h
  obtain ⟨hhead, _⟩ := fetchWords_cons hws
  refine ⟨hsize, ?_, dmHolds_of_fetchWords hws⟩
  rw [← hhead, ← toNat_headOp, headOp_headWord]

/-- Settles O4: check by check, what the decoder answers on the words read at `dp`. -/
theorem decodeChecksInOrder : Obligations.DecodeChecksInOrder := by
  intro s hs h op illegal
  by_cases hend : s.cfg.dmWords ≤ s.dp.toNat
  · rw [if_pos hend]
    exact step_of_decode_error hs (e := .noHead) (by rw [fetchWords_eq_nil hend]; rfl)
  rw [if_neg hend]
  obtain ⟨tl, hws, hlen⟩ : ∃ tl, fetchWords s = h :: tl ∧ tl.length + 1 = min (s.cfg.dmWords - s.dp.toNat) (headSize h) :=
    fetchWords_eq_cons (Nat.lt_of_not_le hend)
  have hmap : shapeOf (headOp h) = none ↔ op ∉ zOps ++ w1Ops ++ w2Ops ++ vOps := by
    rw [shapeOf_eq_none_iff, toNat_headOp]
  cases hsh : shapeOf (headOp h) with
  | none =>
    rw [if_pos (hmap.1 hsh)]
    exact step_of_decode_error hs (by rw [hws]; exact decode_eq_unknownOp tl hsh)
  | some sh =>
    rw [if_neg fun hnone => nomatch hsh.symm.trans (hmap.2 hnone)]
    by_cases hfield : h.toNat / 256 % 256 ≠ 0 ∨ (op ∉ vOps ∧ h.toNat / 65536 ≠ 0)
    · rw [if_pos hfield]
      exact step_of_decode_error hs (by rw [hws]; exact decode_eq_reservedField tl hsh ((reservedField_iff hsh).2 hfield))
    rw [if_neg hfield]
    have hdec : decode (fetchWords s) = takeOperands sh (headImm h).toNat tl := by
      rw [hws]; exact decode_eq_takeOperands tl hsh (mt (reservedField_iff hsh).1 hfield)
    have hroom : s.cfg.dmWords < s.dp.toNat + sizeByFormat h ↔ tl.length < sh.operandCount (headImm h).toNat := by
      have hsize := headSize_eq_operandCount hsh
      rw [← headSize_eq_sizeByFormat hsh]
      omega
    by_cases hmissing : s.cfg.dmWords < s.dp.toNat + sizeByFormat h
    · rw [if_pos hmissing]
      exact step_of_decode_error hs (hdec.trans (takeOperands_eq_error_iff.2 ⟨rfl, hroom.1 hmissing⟩))
    · rw [if_neg hmissing]
      cases htake : takeOperands sh (headImm h).toNat tl with
      | error e => exact absurd (hroom.2 (takeOperands_eq_error_iff.1 htake).2) hmissing
      | ok r =>
        obtain ⟨i, rest⟩ := r
        have hok := hdec.trans htake
        obtain ⟨hsize, hop, hwords⟩ := dmHolds_of_decode hok
        exact ⟨i, hsize, hop, hwords, step_of_decode_ok hs hok⟩

end Sys2Proof.Machine
end

section
/-! SUPPORT. What the reads of a bit field give (40_bitfield.md R110, R111) and which values are in range for it (R126). -/

namespace Sys2Proof.Machine

/-! ## The extraction loop -/

/-- A run of bits is read in two parts, the first being the more significant. -/
theorem bits_add (m : Memory) (a b : Nat) : ∀ p, bits m p (a + b) = bits m p a * 2 ^ b + bits m (p + a) b := by
  induction a with
  | zero => intro p; simp [bits]
  | succ a ih =>
    intro p
    rw [Nat.add_right_comm a 1 b, bits, bits, ih, Nat.add_right_comm p 1 a, Nat.add_assoc p a 1]
    ring

/-- The number a run of bits reads as is fixed by its bits. -/
theorem bits_eq_of_bitAt {m : Memory} {p n x : Nat} (hx : x < 2 ^ n)
    (h : ∀ i, i < n → bitAt m (p + (n - 1 - i)) = x.testBit i) : bits m p n = x := by
  apply Nat.eq_of_testBit_eq
  intro i
  rw [testBit_bits]
  by_cases hi : i < n
  · simp [hi, h i hi]
  · have hbig : x < 2 ^ i := Nat.lt_of_lt_of_le hx (Nat.pow_le_pow_right (by decide) (Nat.le_of_not_lt hi))
    simp [hi, Nat.testBit_lt_two_pow hbig]

/-- What one turn of the loop of R110 takes from a byte are the bits at the turn's position. -/
theorem bits_within_byte (m : Memory) {o k : Nat} (h : o % 8 + k ≤ 8) :
    (readByte m (o / 8)).toNat >>> (8 - o % 8 - k) % 2 ^ k = bits m o k := by
  refine (bits_eq_of_bitAt (Nat.mod_lt _ (Nat.two_pow_pos k)) fun i hi => ?_).symm
  have hbyte : (o + (k - 1 - i)) / 8 = o / 8 := by omega
  have hbit : 7 - (o + (k - 1 - i)) % 8 = 8 - o % 8 - k + i := by omega
  rw [Nat.testBit_mod_two_pow, Nat.testBit_shiftRight, bitAt, hbyte, hbit]
  simp [hi, BitVec.getLsbD]

/-- The loop of R110 puts the bits it still has to read below the value it has. -/
theorem extractLoop_eq (m : Memory) (fuel : Nat) : ∀ o rem v, rem ≤ fuel →
    extractLoop m fuel o rem v = v * 2 ^ rem + bits m o rem := by
  induction fuel with
  | zero =>
    intro o rem v h
    obtain rfl : rem = 0 := by omega
    simp [extractLoop, bits]
  | succ fuel ih =>
    intro o rem v h
    rw [extractLoop]
    split
    · next hrem => simp [hrem, bits]
    · next hrem =>
      dsimp only
      generalize hk : min (8 - o % 8) rem = k
      rw [ih _ _ _ (by omega), bits_within_byte m (by omega), ← Nat.shiftLeft_add_eq_or_of_lt (bits_lt k m o), Nat.shiftLeft_eq]
      have hsplit := bits_add m k (rem - k) o
      have hpow : 2 ^ rem = 2 ^ k * 2 ^ (rem - k) := by rw [← Nat.pow_add]; congr 1; omega
      rw [Nat.add_sub_cancel' (by omega)] at hsplit
      rw [hsplit, hpow]
      ring

@[simp] theorem extract_eq_bits (m : Memory) (p n : Nat) : extract m p n = bits m p n := by
  simp [extract, extractLoop_eq m n p n 0 (Nat.le_refl n)]

/-- Settles O19: the loop starts with nothing read and a turn for every bit. -/
theorem extractIsBits : Obligations.ExtractIsBits := extract_eq_bits

/-! ## The value of a field -/

/-- R111 on the bits read: a signed field with its top bit set is filled with ones up to the next whole byte. -/
def byteRounded (n : Nat) (signed : Bool) (b : Nat) : Nat :=
  if signed = true ∧ 0 < n ∧ b.testBit (n - 1) = true then b + (2 ^ (8 * ceil8 n) - 2 ^ n) else b

theorem fieldNat_eq (m : Memory) (p n : Nat) (signed : Bool) : fieldNat m p n signed = byteRounded n signed (bits m p n) := rfl

theorem le_eight_mul_ceil8 (n : Nat) : n ≤ 8 * ceil8 n := by unfold ceil8; omega

theorem eight_mul_ceil8_le {n : Nat} (h : n ≤ 64) : 8 * ceil8 n ≤ 64 := by unfold ceil8; omega

theorem two_pow_le_ceil8 {k n : Nat} (h : k ≤ n) : 2 ^ k ≤ 2 ^ (8 * ceil8 n) :=
  Nat.pow_le_pow_right (by decide) (Nat.le_trans h (le_eight_mul_ceil8 n))

/-- The next whole byte above `n` bits holds a whole number of runs of `n` bits. -/
theorem two_pow_ceil8 (n : Nat) : 2 ^ (8 * ceil8 n) = 2 ^ n * 2 ^ (8 * ceil8 n - n) := by
  rw [← Nat.pow_add, Nat.add_sub_cancel' (le_eight_mul_ceil8 n)]

/-- The ones a signed field is filled with stand above its own bits. -/
theorem fill_eq (n : Nat) : 2 ^ (8 * ceil8 n) - 2 ^ n = 2 ^ n * (2 ^ (8 * ceil8 n - n) - 1) := by
  rw [two_pow_ceil8, Nat.mul_sub_one]

theorem byteRounded_mod {n b : Nat} (signed : Bool) (hb : b < 2 ^ n) : byteRounded n signed b % 2 ^ n = b := by
  unfold byteRounded
  split
  · rw [fill_eq, Nat.add_mul_mod_self_left, Nat.mod_eq_of_lt hb]
  · exact Nat.mod_eq_of_lt hb

theorem byteRounded_lt {n b : Nat} (signed : Bool) (hb : b < 2 ^ n) : byteRounded n signed b < 2 ^ (8 * ceil8 n) := by
  have hle := two_pow_le_ceil8 (Nat.le_refl n)
  unfold byteRounded
  split <;> omega

theorem byteRounded_lt_64 {n b : Nat} (signed : Bool) (hn : n ≤ 64) (hb : b < 2 ^ n) : byteRounded n signed b < 2 ^ 64 :=
  Nat.lt_of_lt_of_le (byteRounded_lt signed hb) (Nat.pow_le_pow_right (by decide) (eight_mul_ceil8_le hn))

theorem getLsbD_mask64 (n i : Nat) : (mask64 n).getLsbD i = (decide (i < 64) && decide (i < n)) := by
  simp [mask64, BitVec.getLsbD_ofNat, Nat.testBit_two_pow_sub_one]

/-- The sign extension of R111 is `byteRounded`. -/
theorem signExtendToByte_eq {n b : Nat} (signed : Bool) (hb : b < 2 ^ n) (hn : n ≤ 64) :
    signExtendToByte n signed (BitVec.ofNat 64 b) = BitVec.ofNat 64 (byteRounded n signed b) := by
  have htop : 0 < n → (BitVec.ofNat 64 b).getLsbD (n - 1) = b.testBit (n - 1) := fun hpos => by
    have : n - 1 < 64 := by omega
    rw [BitVec.getLsbD_ofNat]
    simp [this]
  have hcond : (signed = true ∧ 0 < n ∧ (BitVec.ofNat 64 b).getLsbD (n - 1) = true) ↔
      (signed = true ∧ 0 < n ∧ b.testBit (n - 1) = true) := by
    refine and_congr_right fun _ => and_congr_right fun hpos => ?_
    rw [htop hpos]
  unfold signExtendToByte byteRounded
  simp only [hcond]
  split
  · apply BitVec.eq_of_getLsbD_eq
    intro i hi
    have hw := le_eight_mul_ceil8 n
    rw [fill_eq, Nat.add_comm, BitVec.getLsbD_ofNat, Nat.testBit_two_pow_mul_add _ hb, Nat.testBit_two_pow_sub_one]
    simp only [BitVec.getLsbD_and, BitVec.getLsbD_or, BitVec.getLsbD_not, getLsbD_mask64, BitVec.getLsbD_ofNat, hi]
    by_cases hin : i < n
    · have : i < 8 * ceil8 n := by omega
      simp [hin, this]
    · have hbig : b < 2 ^ i := Nat.lt_of_lt_of_le hb (Nat.pow_le_pow_right (by decide) (by omega))
      have : i - n < 8 * ceil8 n - n ↔ i < 8 * ceil8 n := by omega
      simp [hin, this]
  · rfl

/-- R111: what `ReadField` gives, on naturals. -/
theorem readField_eq (m : Memory) (p : Nat) {n : Nat} (signed : Bool) (hn : n ≤ 64) :
    readField m p n signed = BitVec.ofNat 64 (fieldNat m p n signed) := by
  rw [readField, extract_eq_bits, signExtendToByte_eq signed (bits_lt n m p) hn, fieldNat_eq]

theorem toNat_readField (m : Memory) (p : Nat) {n : Nat} (signed : Bool) (hn : n ≤ 64) :
    (readField m p n signed).toNat = byteRounded n signed (bits m p n) := by
  rw [readField_eq m p signed hn, BitVec.toNat_ofNat, fieldNat_eq, Nat.mod_eq_of_lt (byteRounded_lt_64 signed hn (bits_lt n m p))]

/-- The low bits of what a read of a field gives are the bits of the buffer. -/
theorem getLsbD_readField (m : Memory) (p : Nat) {n i : Nat} (signed : Bool) (hn : n ≤ 64) (hi : i < n) :
    (readField m p n signed).getLsbD i = bitAt m (p + (n - 1 - i)) := by
  have hlow : (readField m p n signed).toNat % 2 ^ n = bits m p n := by
    rw [toNat_readField m p signed hn, byteRounded_mod signed (bits_lt n m p)]
  have hbit := congrArg (Nat.testBit · i) hlow
  simpa [Nat.testBit_mod_two_pow, testBit_bits, hi, BitVec.getLsbD] using hbit

/-- A field reads alike in two buffers that agree on its bits. -/
theorem readField_congr {m m' : Memory} {p n : Nat} (signed : Bool) (h : ∀ q, p ≤ q → q < p + n → bitAt m q = bitAt m' q) :
    readField m p n signed = readField m' p n signed := by
  simp only [readField, extract_eq_bits, bits_congr n h]

/-! ## The range of a field -/

/-- The top bit of a number of `k + 1` bits, as a comparison. -/
theorem testBit_top {k b : Nat} (hb : b < 2 ^ (k + 1)) : b.testBit k = true ↔ 2 ^ k ≤ b := by
  rw [Nat.pow_succ] at hb
  have hdiv : b / 2 ^ k < 2 := Nat.div_lt_of_lt_mul hb
  rw [Nat.testBit_eq_decide_div_mod_eq, decide_eq_true_eq, Nat.mod_eq_of_lt hdiv, ← Nat.one_le_div_iff (Nat.two_pow_pos k)]
  omega

/-- The sign extension of a signed field of `k + 1` bits, as a comparison. -/
theorem byteRounded_succ {k b : Nat} (hb : b < 2 ^ (k + 1)) :
    byteRounded (k + 1) true b = if 2 ^ k ≤ b then b + (2 ^ (8 * ceil8 (k + 1)) - 2 ^ (k + 1)) else b := by
  simp [byteRounded, testBit_top hb]

theorem div_eq_pred_iff {v b c : Nat} (hb : 0 < b) (hc : 0 < c) : v / b = c - 1 ↔ b * c - b ≤ v ∧ v < b * c := by
  obtain ⟨d, rfl⟩ : ∃ d, c = d + 1 := ⟨c - 1, by omega⟩
  rw [Nat.add_sub_cancel, Nat.div_eq_iff hb, Nat.mul_comm d b, Nat.mul_succ]
  omega

/-- R126 for a signed field of `k + 1` bits: an interval at either end of the byte-rounded width. -/
theorem inRange_succ_iff (k : Nat) (v : W64) :
    inRange (k + 1) true v = true ↔
      v.toNat < 2 ^ k ∨ 2 ^ (8 * ceil8 (k + 1)) - 2 ^ k ≤ v.toNat ∧ v.toNat < 2 ^ (8 * ceil8 (k + 1)) := by
  have hw : k ≤ 8 * ceil8 (k + 1) := Nat.le_of_succ_le (le_eight_mul_ceil8 (k + 1))
  have hpow : 2 ^ (8 * ceil8 (k + 1)) = 2 ^ k * 2 ^ (8 * ceil8 (k + 1) - k) := by
    rw [← Nat.pow_add, Nat.add_sub_cancel' hw]
  have hlow : v.toNat / 2 ^ k = 0 ↔ v.toNat < 2 ^ k := by simp [Nat.div_eq_zero_iff]
  have hhigh := div_eq_pred_iff (v := v.toNat) (Nat.two_pow_pos k) (Nat.two_pow_pos (8 * ceil8 (k + 1) - k))
  have hle := two_pow_le_ceil8 (Nat.le_add_right k 1)
  rw [← hpow] at hhigh
  simp only [inRange, Bool.true_eq_false, if_false, Nat.succ_ne_zero, Nat.add_sub_cancel, Bool.and_eq_true, Bool.or_eq_true,
    decide_eq_true_eq, hlow, hhigh]
  omega

/-- The values in range are those that their own low bits read as. -/
theorem inRange_iff_byteRounded (n : Nat) (signed : Bool) (v : W64) :
    inRange n signed v = true ↔ byteRounded n signed (v.toNat % 2 ^ n) = v.toNat := by
  match signed, n with
  | false, n => simp [inRange, byteRounded, Nat.mod_eq_iff_lt]
  | true, 0 => simp [inRange, byteRounded, Nat.mod_one, BitVec.toNat_eq, eq_comm]
  | true, k + 1 =>
    have hmod : v.toNat % 2 ^ (k + 1) < 2 ^ (k + 1) := Nat.mod_lt _ (Nat.two_pow_pos _)
    have hfill := fill_eq (k + 1)
    have hle := two_pow_le_ceil8 (Nat.le_refl (k + 1))
    have hpow := Nat.pow_succ 2 k
    rw [inRange_succ_iff, byteRounded_succ hmod]
    constructor
    · rintro (hlow | ⟨hge, hlt⟩)
      · rw [Nat.mod_eq_of_lt (by omega), if_neg (by omega)]
      · obtain ⟨r, hr⟩ : ∃ r, v.toNat = r + 2 ^ (k + 1) * (2 ^ (8 * ceil8 (k + 1) - (k + 1)) - 1) :=
          ⟨v.toNat - (2 ^ (8 * ceil8 (k + 1)) - 2 ^ (k + 1)), by omega⟩
        rw [hr, Nat.add_mul_mod_self_left, Nat.mod_eq_of_lt (by omega), if_pos (by omega), hfill]
    · intro h
      split at h <;> omega

/-- Settles O26: what is read is the sign extension of its own low bits. -/
theorem readIsInRange : Obligations.ReadIsInRange := by
  intro m p n sg hn
  rw [inRange_iff_byteRounded, toNat_readField m p sg hn, byteRounded_mod sg (bits_lt n m p)]

/-- The two intervals of R126 are the integers from `-P` to `P - 1`, taken modulo `W`. -/
theorem mem_intervals_iff_exists_emod {P W v : Nat} (h : P ≤ W) :
    v < P ∨ W - P ≤ v ∧ v < W ↔ ∃ x : Int, (-(P : Int) ≤ x ∧ x < P) ∧ (v : Int) = x % W := by
  constructor
  · rintro (hlow | ⟨hge, hlt⟩)
    · exact ⟨v, by omega, (Int.emod_eq_of_lt (by omega) (by omega)).symm⟩
    · refine ⟨v - W, by omega, ?_⟩
      rw [Int.sub_emod_right, Int.emod_eq_of_lt (by omega) (by omega)]
  · rintro ⟨x, ⟨hge, hlt⟩, hv⟩
    by_cases hx : 0 ≤ x
    · rw [Int.emod_eq_of_lt hx (by omega)] at hv
      omega
    · rw [← Int.add_emod_right, Int.emod_eq_of_lt (by omega) (by omega)] at hv
      omega

/-- Settles O27: the low interval of R126 holds the integers from 0 on, the high one the negative ones. -/
theorem inRangeIsTwosComplement : Obligations.InRangeIsTwosComplement := by
  intro n v _
  refine ⟨by simp [inRange], ?_⟩
  cases n with
  | zero =>
    have hzero : inRange 0 true v = true ↔ v.toNat = 0 := by simp [inRange, BitVec.toNat_eq]
    simp [hzero]
  | succ k =>
    have hintervals := mem_intervals_iff_exists_emod (v := v.toNat) (two_pow_le_ceil8 (Nat.le_add_right k 1))
    push_cast at hintervals
    rw [inRange_succ_iff, hintervals]
    simp [ceil8]

end Sys2Proof.Machine
end

section
/-! SUPPORT. What `PATCH` does with a record of `FT` (40_bitfield.md R125 to R129), and that runs of descriptors go on state by
state. -/

namespace Sys2Proof.Machine

/-! ## A record stored in a buffer -/

/-- R125: may the record's value be written? A `Str` record always may. -/
def FtRecord.fits : FtRecord → Bool
  | .int n signed _ value => inRange n signed value
  | .str _ _ => true

/-- R125: the buffer with the record's value at the record's own span. -/
def FtRecord.storeIn (m : Memory) : FtRecord → Memory
  | .int n _ off value => putBits m off.toNat n value
  | .str off bytes => putByteGroups m off.toNat bytes

/-- R125: bit `k` of the record's value in the order of `DB`. -/
def FtRecord.bit (k : Nat) : FtRecord → Bool
  | .int n _ _ value => value.getLsbD (n - 1 - k)
  | .str _ bytes => (bytes.getD (k / 8) 0#8).getLsbD (7 - k % 8)

theorem FtRecord.bitAt_storeIn (f : FtRecord) (m : Memory) (q : Nat) :
    bitAt (f.storeIn m) q = if f.off.toNat ≤ q ∧ q < f.off.toNat + f.width then f.bit (q - f.off.toNat) else bitAt m q := by
  cases f with
  | int n signed off value => exact bitAt_putBits n m off.toNat value q
  | str off bytes => exact bitAt_putByteGroups bytes m off.toNat q

theorem FtRecord.bitAt_storeIn_other {f : FtRecord} {q : Nat} (m : Memory) (h : ¬ (f.off.toNat ≤ q ∧ q < f.off.toNat + f.width)) :
    bitAt (f.storeIn m) q = bitAt m q := by
  rw [f.bitAt_storeIn, if_neg h]

theorem FtRecord.readByte_storeIn_other (f : FtRecord) (m : Memory) {a : Nat}
    (h : 8 * a + 8 ≤ f.off.toNat ∨ f.off.toNat + f.width ≤ 8 * a) : readByte (f.storeIn m) a = readByte m a :=
  readByte_eq_of_bitAt fun _ _ _ => bitAt_storeIn_other m (by omega)

theorem FtRecord.storeIn_wf (f : FtRecord) {m : Memory} (h : Memory.wf m) : Memory.wf (f.storeIn m) := by
  cases f with
  | int n signed off value => exact putBits_wf n off.toNat value h
  | str off bytes => exact putByteGroups_wf bytes off.toNat h

/-- Two canonical buffers with the same bits are the same. -/
theorem Memory.ext_of_bitAt {m m' : Memory} (h : Memory.wf m) (h' : Memory.wf m') (hb : ∀ q, bitAt m q = bitAt m' q) : m = m' :=
  Memory.ext_of_read h h' fun _ => readByte_eq_of_bitAt fun q _ _ => hb q

/-- Records whose spans do not overlap are stored in either order (R127). -/
theorem FtRecord.storeIn_comm {f g : FtRecord} {m : Memory} (hm : Memory.wf m)
    (h : f.off.toNat + f.width ≤ g.off.toNat ∨ g.off.toNat + g.width ≤ f.off.toNat) :
    g.storeIn (f.storeIn m) = f.storeIn (g.storeIn m) := by
  refine Memory.ext_of_bitAt (g.storeIn_wf (f.storeIn_wf hm)) (f.storeIn_wf (g.storeIn_wf hm)) fun q => ?_
  by_cases hf : f.off.toNat ≤ q ∧ q < f.off.toNat + f.width
  · rw [bitAt_storeIn_other _ (by omega), f.bitAt_storeIn, f.bitAt_storeIn, if_pos hf, if_pos hf]
  · rw [bitAt_storeIn_other (f := f) _ hf, g.bitAt_storeIn, g.bitAt_storeIn, bitAt_storeIn_other _ hf]

/-- A record whose bits are those of its span is stored without effect. -/
theorem FtRecord.storeIn_eq_self {f : FtRecord} {m : Memory} (hm : Memory.wf m)
    (h : ∀ k, k < f.width → f.bit k = bitAt m (f.off.toNat + k)) : f.storeIn m = m := by
  refine Memory.ext_of_bitAt (f.storeIn_wf hm) hm fun q => ?_
  rw [f.bitAt_storeIn]
  split
  · rw [h _ (by omega), Nat.add_sub_cancel' (by omega)]
  · rfl

/-! ## The descriptor -/

/-- What a `PATCH` of the record `f` leaves (R125). -/
def State.patched (s : State) (f : FtRecord) : State := { s.past 2 with db := f.storeIn s.db }

@[simp] theorem State.patched_state (s : State) (f : FtRecord) : (s.patched f).state = s.state := rfl
@[simp] theorem State.patched_dblen (s : State) (f : FtRecord) : (s.patched f).dblen = s.dblen := rfl
@[simp] theorem State.patched_ft (s : State) (f : FtRecord) : (s.patched f).ft = s.ft := rfl

/-- The checks of R125, the same for both kinds of record. -/
theorem exec_patch {idx : W32} {s : State} {f : FtRecord} (hf : s.ft[idx.toNat]? = some f) :
    exec (.patch idx) s =
      (require (f.fits = true) (.valueOutOfRange idx) s <|
      require (f.off.toNat + f.width ≤ 8 * s.dblen.toNat) (.truncated f.off) s <|
      complete (.patch idx) { s with db := f.storeIn s.db }) := by
  change execPatch idx s = _
  unfold execPatch
  rw [hf]
  cases f with
  | int n signed off value => rfl
  | str off bytes => exact (require_pos _ s _ rfl).symm

theorem exec_patch_no_record {idx : W32} {s : State} (h : s.ft.length ≤ idx.toNat) : exec (.patch idx) s = s.faulted 6 3 := by
  change execPatch idx s = _
  unfold execPatch
  rw [List.getElem?_eq_none h]
  rfl

section
variable {idx : W32} {s : State} {f : FtRecord} (hf : s.ft[idx.toNat]? = some f)
include hf

theorem exec_patch_unfit (hfits : f.fits = false) : exec (.patch idx) s = s.faulted 4 idx := by
  rw [exec_patch hf, require_neg _ _ _ (by simp [hfits])]
  rfl

theorem exec_patch_truncated (hfits : f.fits = true) (hspan : 8 * s.dblen.toNat < f.off.toNat + f.width) :
    exec (.patch idx) s = s.faulted 3 f.off := by
  rw [exec_patch hf, require_pos _ _ _ hfits, require_neg _ _ _ (by omega)]
  rfl

theorem exec_patch_completes (hfits : f.fits = true) (hspan : f.off.toNat + f.width ≤ 8 * s.dblen.toNat) :
    exec (.patch idx) s = .next (s.patched f) := by
  rw [exec_patch hf, require_pos _ _ _ hfits, require_pos _ _ _ hspan]
  rfl

/-- A `PATCH` that ends in no fault has passed its checks. -/
theorem patch_checks {t : State} (h : exec (.patch idx) s = .next t) (ht : t.state ≠ .fault) :
    f.fits = true ∧ f.off.toNat + f.width ≤ 8 * s.dblen.toNat := by
  rw [exec_patch hf] at h
  obtain ⟨hfits, h⟩ | ⟨_, rfl⟩ := require_next h
  · obtain ⟨hspan, _⟩ | ⟨_, rfl⟩ := require_next h
    · exact ⟨hfits, hspan⟩
    · exact absurd rfl ht
  · exact absurd rfl ht

/-- What a `PATCH` that passes its checks stores: the record's bits at its span, and nothing outside it (R67, R125). -/
theorem exec_patch_stores (hfits : f.fits = true) (hspan : f.off.toNat + f.width ≤ 8 * s.dblen.toNat) :
    ∃ db, exec (.patch idx) s = .next { s.past 2 with db := db } ∧
      (∀ p, bitAt db p = if f.off.toNat ≤ p ∧ p < f.off.toNat + f.width then f.bit (p - f.off.toNat) else bitAt s.db p) ∧
      (∀ a, 8 * a + 8 ≤ f.off.toNat ∨ f.off.toNat + f.width ≤ 8 * a → readByte db a = readByte s.db a) :=
  ⟨f.storeIn s.db, exec_patch_completes hf hfits hspan, f.bitAt_storeIn s.db, fun _ => f.readByte_storeIn_other s.db⟩

end

/-- Settles O25: the two kinds of record differ in their check and in the bits they store. -/
theorem patchResult : Obligations.PatchResult := by
  intro idx s stores
  refine ⟨exec_patch_no_record, fun n sg off v hf => ⟨?_, ?_, ?_⟩, fun off bs hf => ⟨?_, ?_⟩⟩
  · exact exec_patch_unfit hf
  · exact exec_patch_truncated hf
  · exact exec_patch_stores hf
  · exact exec_patch_truncated hf rfl
  · exact exec_patch_stores hf rfl

/-! ## Reading after a `PATCH` -/

theorem bits_putBits_same (m : Memory) (p n : Nat) (v : W64) : bits (putBits m p n v) p n = v.toNat % 2 ^ n := by
  refine bits_eq_of_bitAt (Nat.mod_lt _ (Nat.two_pow_pos n)) fun i hi => ?_
  have hbit : n - 1 - (p + (n - 1 - i) - p) = i := by omega
  rw [bitAt_putBits, if_pos (by omega), hbit, Nat.testBit_mod_two_pow]
  simp [hi, BitVec.getLsbD]

theorem bits_putByteGroups_same (m : Memory) (p : Nat) (bs : List Byte) {j : Nat} (hj : j < bs.length) :
    bits (putByteGroups m p bs) (p + 8 * j) 8 = (bs.getD j 0#8).toNat := by
  refine bits_eq_of_bitAt (bs.getD j 0#8).isLt fun i hi => ?_
  have hgroup : (p + 8 * j + (8 - 1 - i) - p) / 8 = j := by omega
  have hbit : 7 - (p + 8 * j + (8 - 1 - i) - p) % 8 = i := by omega
  rw [bitAt_putByteGroups, if_pos (by omega), hgroup, hbit, BitVec.getLsbD]

/-- A field of an in-range value reads as that value once it is written (R129 (c)). -/
theorem readField_putBits_same (m : Memory) (p : Nat) {n : Nat} {signed : Bool} {v : W64} (hn : n ≤ 64)
    (h : inRange n signed v = true) : readField (putBits m p n v) p n signed = v := by
  apply BitVec.eq_of_toNat_eq
  rw [toNat_readField _ _ _ hn, bits_putBits_same, (inRange_iff_byteRounded n signed v).1 h]

theorem FtRecord.readField_storeIn_other (f : FtRecord) (m : Memory) {p n : Nat} (signed : Bool)
    (h : p + n ≤ f.off.toNat ∨ f.off.toNat + f.width ≤ p) : readField (f.storeIn m) p n signed = readField m p n signed :=
  readField_congr signed fun _ _ _ => bitAt_storeIn_other m (by omega)

/-- Settles O28: reading after writing, at the record's span and beside it. -/
theorem patchThenRead : Obligations.PatchThenRead := by
  intro idx off s t h othersKept
  refine ⟨fun n sg v hf hn hfits hspan => ?_, fun bs hf hspan => ?_⟩
  · cases h.symm.trans (exec_patch_completes hf hfits hspan)
    exact ⟨readField_putBits_same s.db off.toNat hn hfits,
      fun _ _ sg' => (FtRecord.int n sg off v).readField_storeIn_other s.db sg'⟩
  · cases h.symm.trans (exec_patch_completes hf rfl hspan)
    exact ⟨fun _ => bits_putByteGroups_same s.db off.toNat bs,
      fun _ _ sg' => (FtRecord.str off bs).readField_storeIn_other s.db sg'⟩

/-! ## Descriptors that go on -/

theorem completed_of_not_fault {i : Instr} {s t : State} (h : exec i s = .next t) (ht : t.state ≠ .fault) : Completed s t i := by
  obtain ⟨k, rfl⟩ | hdone := exec_cases i s t h
  · exact absurd rfl ht
  · exact hdone

theorem execAll_cons_of_run {i : Instr} {is : List Instr} {s u : State} (h : exec i s = .next u) (hu : u.state = .run) :
    execAll (i :: is) s = execAll is u := by
  rw [execAll, h]
  exact if_pos hu

/-- Descriptors that leave the block in a run have each left it in one. -/
theorem execAll_cons_run {i : Instr} {is : List Instr} {s t : State} (h : execAll (i :: is) s = .next t) (ht : t.state = .run) :
    ∃ u, exec i s = .next u ∧ u.state = .run ∧ execAll is u = .next t := by
  rw [execAll] at h
  split at h
  · next u hexec =>
    split at h
    · next hu => exact ⟨u, hexec, hu, h⟩
    · next hu => cases h; exact absurd ht hu
  · cases h
  · cases h

/-! ## Two patches -/

theorem State.patched_comm {s : State} {f g : FtRecord} (hdb : Memory.wf s.db)
    (h : f.off.toNat + f.width ≤ g.off.toNat ∨ g.off.toNat + g.width ≤ f.off.toNat) :
    (s.patched g).patched f = (s.patched f).patched g := by
  unfold patched
  simp only [FtRecord.storeIn_comm hdb h]

/-- Settles O29: neither patch changes what the checks of the other ask, and the two stores commute. -/
theorem patchesCommute : Obligations.PatchesCommute := by
  intro i j f g s t inv hrun hf hg hdisjoint h ht
  obtain ⟨u, hi, hu, h⟩ := execAll_cons_run h ht
  obtain ⟨t', hj, ht', h⟩ := execAll_cons_run h ht
  cases h
  obtain ⟨hffits, hfspan⟩ := patch_checks hf hi (by simp [hu])
  cases hi.symm.trans (exec_patch_completes hf hffits hfspan)
  have hgu : (s.patched f).ft[j.toNat]? = some g := by simpa using hg
  have hfu : (s.patched g).ft[i.toNat]? = some f := by simpa using hf
  obtain ⟨hgfits, hgspan⟩ := patch_checks hgu hj (by simp [ht])
  cases hj.symm.trans (exec_patch_completes hgu hgfits hgspan)
  rw [State.patched_dblen] at hgspan
  calc execAll [.patch j, .patch i] s
      = execAll [.patch i] (s.patched g) := execAll_cons_of_run (exec_patch_completes hg hgfits hgspan) (by simpa using hrun)
    _ = execAll [] ((s.patched g).patched f) := execAll_cons_of_run (exec_patch_completes hfu hffits hfspan) (by simpa using hrun)
    _ = .next ((s.patched f).patched g) := by rw [execAll, State.patched_comm inv.db_wf hdisjoint]

/-! ## A record just read -/

/-- The record is what its own span holds, and the span ends at `bound`: a `PATCH` of it changes nothing (R129 (b)). -/
def FtRecord.Unedited (m : Memory) (bound : Nat) (f : FtRecord) : Prop :=
  f.fits = true ∧ f.off.toNat + f.width ≤ bound ∧ f.storeIn m = m

theorem exec_patch_unedited {idx : W32} {s : State} {f : FtRecord} (hf : s.ft[idx.toNat]? = some f)
    (h : f.Unedited s.db (8 * s.dblen.toNat)) : exec (.patch idx) s = .next (s.past 2) := by
  obtain ⟨hfits, hspan, hstore⟩ := h
  rw [exec_patch_completes hf hfits hspan, State.patched, hstore]

theorem unedited_int {m : Memory} {off : W32} {n bound : Nat} (signed : Bool) (hm : Memory.wf m) (hn : n ≤ 64)
    (hspan : off.toNat + n ≤ bound) : (FtRecord.int n signed off (readField m off.toNat n signed)).Unedited m bound := by
  refine ⟨readIsInRange m off.toNat n signed hn, hspan, FtRecord.storeIn_eq_self hm fun k (hk : k < n) => ?_⟩
  have hplace : n - 1 - (n - 1 - k) = k := by omega
  exact (getLsbD_readField m off.toNat signed hn (by omega)).trans (by rw [hplace]; rfl)

theorem getD_readByteGroups (m : Memory) (p : Nat) {j k : Nat} (hj : j < k) :
    (readByteGroups m p k).getD j 0#8 = BitVec.ofNat 8 (bits m (p + 8 * j) 8) := by
  rw [List.getD_eq_getElem?_getD, getElem?_readByteGroups, if_pos hj, extract_eq_bits]
  rfl

theorem unedited_str {m : Memory} {off : W32} {k bound : Nat} (hm : Memory.wf m) (hspan : off.toNat + 8 * k ≤ bound) :
    (FtRecord.str off (readByteGroups m off.toNat k)).Unedited m bound := by
  have hwidth : (FtRecord.str off (readByteGroups m off.toNat k)).width = 8 * k := by simp [FtRecord.width]
  refine ⟨rfl, by rwa [hwidth], FtRecord.storeIn_eq_self hm fun q hq => ?_⟩
  rw [hwidth] at hq
  have hbit : 7 - q % 8 < 8 := by omega
  have hplace : off.toNat + 8 * (q / 8) + (8 - 1 - (7 - q % 8)) = off.toNat + q := by omega
  rw [FtRecord.bit, getD_readByteGroups m _ (by omega), BitVec.getLsbD_ofNat, testBit_bits, hplace]
  simp [hbit, FtRecord.off]

/-- The records of an `UNPACK` that passes its checks are what the buffer holds at their spans. -/
theorem unpackRecords_unedited {m : Memory} {bound : Nat} (hm : Memory.wf m) (lens : List W32) :
    ∀ bo : W32, (∀ l ∈ lens, lenBits l ≤ 64) → bo.toNat + totalBits lens ≤ bound →
      ∀ f ∈ unpackRecords m bo lens, f.Unedited m bound := by
  induction lens with
  | nil => intro bo _ _ f hf; cases hf
  | cons l ls ih =>
    intro bo hlens hspan f hf
    rw [List.forall_mem_cons] at hlens
    rw [totalBits, List.map_cons, List.sum_cons] at hspan
    rcases List.mem_cons.1 hf with rfl | hf
    · exact unedited_int _ hm hlens.1 (by omega)
    · refine ih _ hlens.2 ?_ f hf
      rw [BitVec.toNat_add, BitVec.toNat_ofNat, totalBits]
      omega

/-- What stands in a table past its old end is one of the elements appended. -/
theorem mem_of_getElem?_append {α : Type} {xs ys : List α} {i : Nat} {y : α} (h : (xs ++ ys)[i]? = some y) (hi : xs.length ≤ i) :
    y ∈ ys := by
  rw [List.getElem?_append_right hi] at h
  exact List.mem_of_getElem? h

/-- Settles O30: the records appended are what `DB` holds at their spans, and `UNPACK` and `UNPACKS` leave `DB`. -/
theorem patchUnedited : Obligations.PatchUnedited := by
  intro i idx s t hi inv _ h ht hge hlt
  obtain ⟨f, hf⟩ : ∃ f, t.ft[idx.toNat]? = some f := ⟨_, List.getElem?_eq_getElem hlt⟩
  have hdone := completed_of_not_fault h (by simp [ht])
  obtain ⟨tb, lens, rfl⟩ | ⟨tb, rfl⟩ := hi
  · obtain ⟨hlens, _, hspan, rfl⟩ := hdone
    exact exec_patch_unedited hf (unpackRecords_unedited inv.db_wf lens s.bo hlens hspan f (mem_of_getElem?_append hf hge))
  · obtain ⟨_, _, hspan, rfl⟩ := hdone
    cases List.mem_singleton.1 (mem_of_getElem?_append hf hge)
    exact exec_patch_unedited hf (unedited_str inv.db_wf hspan)

end Sys2Proof.Machine
end

section
/-! SUPPORT. What the other descriptors of the bit-field unit deliver, and their checks in order (40_bitfield.md R112 to R120). -/

namespace Sys2Proof.Machine

/-! ## The checks, arm by arm -/

theorem exec_rd (len : W32) (s : State) : exec (.rd len) s =
    (require (lenBits len ≤ 64) (.badOperand 1) s <|
    require (s.bo.toNat + lenBits len ≤ 8 * s.dblen.toNat) (.truncated s.bo) s <|
    complete (.rd len) { s with
      rv := readField s.db s.bo.toNat (lenBits len) (lenSigned len)
      rb := BitVec.ofNat 32 (ceil8 (lenBits len))
      bo := s.bo + BitVec.ofNat 32 (lenBits len) }) := rfl

theorem exec_unpack (tb : W32) (lens : List W32) (s : State) : exec (.unpack tb lens) s =
    (require (lens.all (fun l => decide (lenBits l ≤ 64)) = true) (.badOperand 1) s <|
    require (s.ft.length + lens.length ≤ s.cfg.ftMax) (.badOperand 8) s <|
    require (s.bo.toNat + totalBits lens ≤ 8 * s.dblen.toNat) (.truncated s.bo) s <|
    complete (.unpack tb lens) { s with
      ft := s.ft ++ unpackRecords s.db s.bo lens
      bo := s.bo + BitVec.ofNat 32 (totalBits lens)
      utot := s.utot + BitVec.ofNat 32 (max (totalByteLen lens) tb.toNat) }) := rfl

theorem exec_unpacks (tb : W32) (s : State) : exec (.unpacks tb) s =
    (require (tb.toNat ≤ s.cfg.strMax ∧ s.ft.length + 1 ≤ s.cfg.ftMax) (.badOperand 8) s <|
    require (s.bo.toNat + 8 * tb.toNat ≤ 8 * s.dblen.toNat) (.truncated s.bo) s <|
    complete (.unpacks tb) { s with
      ft := s.ft ++ [FtRecord.str s.bo (readByteGroups s.db s.bo.toNat tb.toNat)]
      bo := s.bo + BitVec.ofNat 32 (8 * tb.toNat)
      utot := s.utot + tb }) := rfl

theorem exec_padchk (a n : W32) (s : State) : exec (.padchk a n) s =
    (require (a.toNat + n.toNat ≤ s.cfg.cbLen) (.badOperand 2) s <|
    require (s.bo.toNat + 8 * n.toNat ≤ 8 * s.dblen.toNat) (.truncated s.bo) s <|
    require (readByteGroups s.db s.bo.toNat n.toNat = readBytes s.cb a.toNat n.toNat) (.formatMismatch 3) s <|
    complete (.padchk a n) { s with bo := s.bo + BitVec.ofNat 32 (8 * n.toNat), utot := s.utot + n }) := rfl

/-! ## `RD` -/

/-- Settles O20: check by check; the value is `fieldNat` because the width has passed the first. -/
theorem rdResult : Obligations.RdResult := by
  intro len s n
  refine ⟨fun (hlong : 64 < lenBits len) => ?_,
    fun (hn : lenBits len ≤ 64) (htrunc : 8 * s.dblen.toNat < s.bo.toNat + lenBits len) => ?_,
    fun (hn : lenBits len ≤ 64) (hspan : s.bo.toNat + lenBits len ≤ 8 * s.dblen.toNat) => ?_⟩
  · rw [exec_rd, require_neg _ _ _ (Nat.not_le_of_lt hlong)]
    rfl
  · rw [exec_rd, require_pos _ _ _ hn, require_neg _ _ _ (Nat.not_le_of_lt htrunc)]
    rfl
  · rw [exec_rd, require_pos _ _ _ hn, require_pos _ _ _ hspan, readField_eq _ _ _ hn]
    rfl

/-! ## `UNPACK` -/

/-- Record `j` of an `UNPACK` has the `j`-th length, and stands past the bits of the lengths before it. -/
theorem getElem?_unpackRecords {m : Memory} {l : W32} (lens : List W32) : ∀ (bo : W32) (j : Nat), lens[j]? = some l →
    (unpackRecords m bo lens)[j]? =
      some (.int (lenBits l) (lenSigned l) (bo + BitVec.ofNat 32 (totalBits (lens.take j)))
        (readField m (bo + BitVec.ofNat 32 (totalBits (lens.take j))).toNat (lenBits l) (lenSigned l))) := by
  induction lens with
  | nil => intro bo j h; simp at h
  | cons l' ls ih =>
    intro bo j h
    cases j with
    | zero =>
      obtain rfl : l' = l := by simpa using h
      simp [unpackRecords, totalBits]
    | succ j =>
      have hoff : bo + BitVec.ofNat 32 (lenBits l') + BitVec.ofNat 32 (totalBits (ls.take j)) =
          bo + BitVec.ofNat 32 (totalBits ((l' :: ls).take (j + 1))) := by
        simp [totalBits, BitVec.ofNat_add, BitVec.add_assoc]
      rw [← hoff]
      exact ih _ j (by simpa using h)

/-- Settles O21: check by check; the records are those of `unpackRecords`. -/
theorem unpackResult : Obligations.UnpackResult := by
  intro tb lens s width
  have hwidths : lens.all (fun l => decide (lenBits l ≤ 64)) = true ↔ ∀ l ∈ lens, width l ≤ 64 := by
    simp only [List.all_eq_true, decide_eq_true_eq]
    rfl
  refine ⟨fun ⟨l, hl, hlong⟩ => ?_, fun hw hroom => ?_,
    fun hw hroom (htrunc : 8 * s.dblen.toNat < s.bo.toNat + totalBits lens) => ?_,
    fun hw hroom (hspan : s.bo.toNat + totalBits lens ≤ 8 * s.dblen.toNat) => ?_⟩
  · rw [exec_unpack, require_neg _ _ _ fun hall => Nat.not_le_of_lt hlong (hwidths.1 hall l hl)]
    rfl
  · rw [exec_unpack, require_pos _ _ _ (hwidths.2 hw), require_neg _ _ _ (Nat.not_le_of_lt hroom)]
    rfl
  · rw [exec_unpack, require_pos _ _ _ (hwidths.2 hw), require_pos _ _ _ hroom, require_neg _ _ _ (Nat.not_le_of_lt htrunc)]
    rfl
  · refine ⟨unpackRecords s.db s.bo lens, ?_, length_unpackRecords s.db lens s.bo, fun j l hl => ?_⟩
    · rw [exec_unpack, require_pos _ _ _ (hwidths.2 hw), require_pos _ _ _ hroom, require_pos _ _ _ hspan]
      rfl
    · have hl64 : lenBits l ≤ 64 := hw l (List.mem_of_getElem? hl)
      rw [getElem?_unpackRecords lens s.bo j hl, readField_eq _ _ _ hl64]
      rfl

/-! ## `UNPACKS` -/

/-- Settles O22: check by check; the bytes are those of `readByteGroups`. -/
theorem unpacksResult : Obligations.UnpacksResult := by
  intro tb s
  refine ⟨fun hroom => ?_, fun hmax hroom htrunc => ?_, fun hmax hroom hspan => ?_⟩
  · rw [exec_unpacks, require_neg _ _ _ (by omega)]
    rfl
  · rw [exec_unpacks, require_pos _ _ _ ⟨hmax, hroom⟩, require_neg _ _ _ (Nat.not_le_of_lt htrunc)]
    rfl
  · refine ⟨readByteGroups s.db s.bo.toNat tb.toNat, ?_, length_readByteGroups s.db tb.toNat s.bo.toNat, fun j hj => ?_⟩
    · rw [exec_unpacks, require_pos _ _ _ ⟨hmax, hroom⟩, require_pos _ _ _ hspan]
      rfl
    · exact getD_readByteGroups s.db s.bo.toNat hj

/-! ## `SKIP`, `ALIGN`, `SEEK` -/

/-- Settles O23: none of the three makes a check, so each is its completion. -/
theorem cursorMoves : Obligations.CursorMoves := fun _ _ _ => ⟨rfl, rfl, rfl⟩

/-! ## `PADCHK` -/

/-- The comparison of R120, group by group. -/
theorem readByteGroups_eq_readBytes_iff (m m' : Memory) (p a n : Nat) :
    readByteGroups m p n = readBytes m' a n ↔ ∀ j, j < n → bits m (p + 8 * j) 8 = (readByte m' (a + j)).toNat := by
  have hgroup : ∀ j, BitVec.ofNat 8 (bits m (p + 8 * j) 8) = readByte m' (a + j) ↔
      bits m (p + 8 * j) 8 = (readByte m' (a + j)).toNat := fun j => by
    rw [← BitVec.toNat_inj, BitVec.toNat_ofNat, Nat.mod_eq_of_lt (bits_lt 8 m (p + 8 * j))]
  rw [List.ext_getElem?_iff]
  refine forall_congr' fun j => ?_
  rw [getElem?_readByteGroups, getElem?_readBytes, extract_eq_bits, ← hgroup]
  by_cases hj : j < n <;> simp [hj]

/-- Settles O24: check by check. -/
theorem padchkResult : Obligations.PadchkResult := by
  intro a n s same
  have hsame : readByteGroups s.db s.bo.toNat n.toNat = readBytes s.cb a.toNat n.toNat ↔ same :=
    readByteGroups_eq_readBytes_iff s.db s.cb s.bo.toNat a.toNat n.toNat
  refine ⟨fun hplace => ?_, fun hplace htrunc => ?_, fun hplace hspan hdiffer => ?_, fun hplace hspan heq => ?_⟩
  · rw [exec_padchk, require_neg _ _ _ (Nat.not_le_of_lt hplace)]
    rfl
  · rw [exec_padchk, require_pos _ _ _ hplace, require_neg _ _ _ (Nat.not_le_of_lt htrunc)]
    rfl
  · rw [exec_padchk, require_pos _ _ _ hplace, require_pos _ _ _ hspan, require_neg _ _ _ (mt hsame.1 hdiffer)]
    rfl
  · rw [exec_padchk, require_pos _ _ _ hplace, require_pos _ _ _ hspan, require_pos _ _ _ (hsame.2 heq)]
    rfl

end Sys2Proof.Machine
end

section
/-! SUPPORT. What the schema alone fixes (40_bitfield.md R121): the cursor a descriptor leaves, and the places of the records it
appends to `FT`. -/

namespace Sys2Proof.Machine

/-- R112 to R120: where a descriptor other than `DSTART` leaves the cursor it found at `bo`. -/
def cursorAfter (bo : W32) : Instr → W32
  | .rd len => bo + BitVec.ofNat 32 (lenBits len)
  | .unpack _ lens => bo + BitVec.ofNat 32 (totalBits lens)
  | .unpacks tb => bo + BitVec.ofNat 32 (8 * tb.toNat)
  | .padchk _ n => bo + BitVec.ofNat 32 (8 * n.toNat)
  | .skip newBo _ => newBo
  | .seek newBo => newBo
  | _ => bo

theorem Completed.bo_eq {s t : State} {i : Instr} (h : Completed s t i) (hi : i ≠ .dstart) : t.bo = cursorAfter s.bo i := by
  cases i
  case dstart => exact absurd rfl hi
  case endRun | skip | align | seek | encw | decw | crcinit | crcfin | ckxf | ckgen => cases h; rfl
  case crcupd | ckvfy | fatget | eccgen | join => obtain ⟨_, rfl⟩ := h; rfl
  case rd | enc | dec | split => obtain ⟨_, _, rfl⟩ := h; rfl
  case unpack | unpacks | padchk | eccchk | lsroot => obtain ⟨_, _, _, rfl⟩ := h; rfl
  case patch => obtain ⟨_, _, _, _, _, _, _, rfl⟩ | ⟨_, _, _, _, rfl⟩ := h <;> rfl
  case rdchain | wrchain => obtain ⟨_, _, _, _, rfl⟩ := h; rfl
  case lookup => obtain ⟨_, _, _, _, _, _, _, _, rfl⟩ := h; rfl

/-- Settles O17: a fault writes neither, and a completion leaves the cursor where `cursorAfter` says. -/
theorem cursorWritersAndGrowingTable : Obligations.CursorWritersAndGrowingTable := by
  intro i s t h
  refine ⟨exec_ft_append h, fun hrd hunpack hunpacks hpadchk hskip hseek hdstart => ?_⟩
  obtain ⟨k, rfl⟩ | hdone := exec_cases i s t h
  · rfl
  · rw [hdone.bo_eq hdstart]
    cases i
    case rd len => exact absurd rfl (hrd len)
    case unpack tb lens => exact absurd rfl (hunpack tb lens)
    case unpacks tb => exact absurd rfl (hunpacks tb)
    case padchk a n => exact absurd rfl (hpadchk a n)
    case skip a b => exact absurd rfl (hskip a b)
    case seek a => exact absurd rfl (hseek a)
    all_goals rfl

/-- R114: the places of the records of an `UNPACK` that starts at cursor `bo`. -/
def unpackPlaces (bo : W32) : List W32 → List (Nat × Bool × W32 × Option Nat)
  | [] => []
  | l :: ls => (lenBits l, lenSigned l, bo, none) :: unpackPlaces (bo + BitVec.ofNat 32 (lenBits l)) ls

theorem map_place_unpackRecords (m : Memory) (lens : List W32) : ∀ bo,
    (unpackRecords m bo lens).map FtRecord.place = unpackPlaces bo lens := by
  induction lens with
  | nil => intro bo; rfl
  | cons l ls ih => intro bo; rw [unpackRecords, List.map_cons, ih]; rfl

/-- The places of the records a descriptor that found the cursor at `bo` appends to `FT` (R114, R116). -/
def appendedPlaces (bo : W32) : Instr → List (Nat × Bool × W32 × Option Nat)
  | .unpack _ lens => unpackPlaces bo lens
  | .unpacks tb => [(8 * tb.toNat, false, bo, some tb.toNat)]
  | _ => []

theorem Completed.appended_places {s t : State} {i : Instr} (h : Completed s t i) :
    (t.ft.drop s.ft.length).map FtRecord.place = appendedPlaces s.bo i := by
  obtain ⟨_, _, _, _, hft⟩ := h.buffers
  cases i
  case unpack tb lens =>
    obtain ⟨_, _, _, rfl⟩ := h
    simp [appendedPlaces, map_place_unpackRecords]
  case unpacks tb =>
    obtain ⟨_, _, _, rfl⟩ := h
    simp [appendedPlaces, FtRecord.place]
  all_goals
    rw [hft nofun nofun, List.drop_length]
    rfl

/-- Settles O18: `appendedPlaces` and `cursorAfter` take nothing from the state but its cursor. -/
theorem fieldPlacesIgnoreContents : Obligations.FieldPlacesIgnoreContents := by
  intro i s s' t t' hi hbo h ht h' ht'
  have hdone := completed_of_not_fault h ht
  have hdone' := completed_of_not_fault h' ht'
  rw [hdone.appended_places, hdone'.appended_places, hdone.bo_eq hi, hdone'.bo_eq hi, hbo]
  exact ⟨rfl, rfl⟩

end Sys2Proof.Machine
end

section
/-! SUPPORT. The cipher unit (41_cipher.md): `F` and the iterations in the spec's own form (R141 to R143), why the two functions
invert each other whatever `P` and `S` hold (R150), and what the stream descriptors leave in their buffers (R146, R147). -/

namespace Sys2Proof.Machine

/-! ## The iterations -/

/-- R141: the bytes of `x` by division. -/
theorem feistelF_eq (c : Config) (x : W32) : feistelF c x =
    sbox c (768 + x.toNat % 256) +
      (sbox c (512 + x.toNat / 256 % 256) ^^^ (sbox c (256 + x.toNat / 65536 % 256) + sbox c (x.toNat / 16777216))) := by
  have hx := x.isLt
  have hbyte : ∀ i, (x.extractLsb' i 8).toNat = x.toNat / 2 ^ i % 256 := fun i => by
    rw [BitVec.extractLsb'_toNat, Nat.shiftRight_eq_div_pow]
  have hlow : x.toNat / 2 ^ 0 % 256 = x.toNat % 256 := by omega
  have hhigh : x.toNat / 2 ^ 24 % 256 = x.toNat / 16777216 := by omega
  rw [feistelF, hbyte, hbyte, hbyte, hbyte, hlow, hhigh]
  rfl

/-- R142, R143: an iteration that is neither the first nor the last, with the subkeys `P[i]` and `P[j]`. -/
def innerIter (c : Config) (i j : Nat) (y : W32 × W32) : W32 × W32 :=
  let l := y.1 ^^^ subkey c i ^^^ feistelF c y.2
  (l, y.2 ^^^ subkey c j ^^^ feistelF c l)

theorem encIter_of_inner (c : Config) (y : W32 × W32) {i : Nat} (h0 : i ≠ 0) (h16 : i ≠ 16) :
    encIter c y i = innerIter c i (i + 1) y := by
  simp [encIter, innerIter, h0, h16]

theorem decIter_of_inner (c : Config) (y : W32 × W32) {i : Nat} (h17 : i ≠ 17) (h1 : i ≠ 1) :
    decIter c y i = innerIter c i (i - 1) y := by
  simp [decIter, innerIter, h17, h1]

theorem encrypt_eq (c : Config) (x : W32 × W32) :
    encrypt c x = encIter c ([2, 4, 6, 8, 10, 12, 14].foldl (fun y i => innerIter c i (i + 1) y) (encIter c x 0)) 16 := by
  have hinner : [2, 4, 6, 8, 10, 12, 14].foldl (encIter c) (encIter c x 0) =
      [2, 4, 6, 8, 10, 12, 14].foldl (fun y i => innerIter c i (i + 1) y) (encIter c x 0) :=
    List.foldl_ext _ _ _ fun y i hi => encIter_of_inner c y (by rintro rfl; simp at hi) (by rintro rfl; simp at hi)
  rw [← hinner]
  rfl

theorem decrypt_eq (c : Config) (x : W32 × W32) :
    decrypt c x = decIter c ([15, 13, 11, 9, 7, 5, 3].foldl (fun y i => innerIter c i (i - 1) y) (decIter c x 17)) 1 := by
  have hinner : [15, 13, 11, 9, 7, 5, 3].foldl (decIter c) (decIter c x 17) =
      [15, 13, 11, 9, 7, 5, 3].foldl (fun y i => innerIter c i (i - 1) y) (decIter c x 17) :=
    List.foldl_ext _ _ _ fun y i hi => decIter_of_inner c y (by rintro rfl; simp at hi) (by rintro rfl; simp at hi)
  rw [← hinner]
  rfl

/-- Settles O31: the first and the last iteration leave out one `F` each, the others are the same in both functions. -/
theorem encwDecwResult : Obligations.EncwDecwResult := by
  intro s P S F enc dec
  have hF : F = feistelF s.cfg := funext fun x => (feistelF_eq s.cfg x).symm
  clear_value F
  subst hF
  have henc : ∀ x, encrypt s.cfg x = enc x := encrypt_eq s.cfg
  have hdec : ∀ x, decrypt s.cfg x = dec x := decrypt_eq s.cfg
  refine ⟨?_, ?_, fun x => ⟨henc x, hdec x⟩⟩
  · rw [← henc]
    rfl
  · rw [← hdec]
    rfl

/-! ## `Decrypt` inverts `Encrypt` -/

/-- R142, R143: one word updated from the other; the first and the last update of a run are plain, without `F`. -/
def halfRound (c : Config) (i : Nat) (plain : Prop) [Decidable plain] (a b : W32) : W32 :=
  if plain then a ^^^ subkey c i else a ^^^ subkey c i ^^^ feistelF c b

/-- An update is its own inverse, whatever `P` and `F` are: the value it XORs onto a word does not depend on that word. -/
theorem halfRound_halfRound (c : Config) (i : Nat) (plain : Prop) [Decidable plain] (a b : W32) :
    halfRound c i plain (halfRound c i plain a b) b = a := by
  have hcancel : ∀ z : W32, a ^^^ z ^^^ z = a := fun z => by rw [BitVec.xor_assoc, BitVec.xor_self, BitVec.xor_zero]
  unfold halfRound
  by_cases h : plain
  · rw [if_pos h, if_pos h, hcancel]
  · rw [if_neg h, if_neg h, BitVec.xor_assoc a, BitVec.xor_assoc (a ^^^ _), hcancel]

/-- The first word updated from the second by `u`, then the second from the new first by `v`. -/
def crossUpdate (u v : W32 → W32 → W32) (y : W32 × W32) : W32 × W32 :=
  let l := u y.1 y.2
  (l, v y.2 l)

theorem crossUpdate_crossUpdate_swap {u v : W32 → W32 → W32} (hu : ∀ a b, u (u a b) b = a) (hv : ∀ a b, v (v a b) b = a)
    (y : W32 × W32) : crossUpdate v u (crossUpdate u v y).swap = y.swap := by
  simp only [crossUpdate, Prod.swap, hu, hv]

theorem encIter_eq_crossUpdate (c : Config) (x : W32 × W32) (i : Nat) :
    encIter c x i = crossUpdate (halfRound c i (i = 0)) (halfRound c (i + 1) (i = 16)) x := rfl

/-- Iteration `i + 1` of `Decrypt` makes the updates of iteration `i` of `Encrypt` in the other order. -/
theorem decIter_eq_crossUpdate (c : Config) (x : W32 × W32) (i : Nat) :
    decIter c x (i + 1) = crossUpdate (halfRound c (i + 1) (i = 16)) (halfRound c i (i = 0)) x := by
  simp [decIter, crossUpdate, halfRound]

theorem decIter_encIter_swap (c : Config) (x : W32 × W32) (i : Nat) : decIter c (encIter c x i).swap (i + 1) = x.swap := by
  rw [decIter_eq_crossUpdate, encIter_eq_crossUpdate]
  exact crossUpdate_crossUpdate_swap (halfRound_halfRound c _ _) (halfRound_halfRound c _ _) x

theorem encIter_decIter_swap (c : Config) (x : W32 × W32) (i : Nat) : encIter c (decIter c x (i + 1)).swap i = x.swap := by
  rw [decIter_eq_crossUpdate, encIter_eq_crossUpdate]
  exact crossUpdate_crossUpdate_swap (halfRound_halfRound c _ _) (halfRound_halfRound c _ _) x

/-- Updates that are taken back one by one, on the exchanged words, are taken back as a whole in the reverse order. -/
theorem foldl_reverse_foldl_swap {α ι : Type} {f g : α × α → ι → α × α} (h : ∀ x i, g (f x i).swap i = x.swap)
    (is : List ι) : ∀ x, is.reverse.foldl g (is.foldl f x).swap = x.swap := by
  induction is with
  | nil => intro x; rfl
  | cons i is ih =>
    intro x
    rw [List.foldl_cons, List.reverse_cons, List.foldl_append, ih]
    exact h x i

/-- R150 (a). -/
theorem decrypt_encrypt_swap (c : Config) (x : W32 × W32) : decrypt c (encrypt c x).swap = x.swap :=
  foldl_reverse_foldl_swap (g := fun y i => decIter c y (i + 1)) (decIter_encIter_swap c) [0, 2, 4, 6, 8, 10, 12, 14, 16] x

theorem encrypt_decrypt_swap (c : Config) (x : W32 × W32) : encrypt c (decrypt c x).swap = x.swap :=
  foldl_reverse_foldl_swap (f := fun y i => decIter c y (i + 1)) (encIter_decIter_swap c) [16, 14, 12, 10, 8, 6, 4, 2, 0] x

theorem decBlock_encBlock (c : Config) (x : W32 × W32) : decBlock c (encBlock c x) = x := by
  rw [decBlock, encBlock, decrypt_encrypt_swap, Prod.swap_swap]

theorem encBlock_decBlock (c : Config) (x : W32 × W32) : encBlock c (decBlock c x) = x := by
  rw [encBlock, decBlock, encrypt_decrypt_swap, Prod.swap_swap]

/-- Settles O32: iteration by iteration, in the reverse order. -/
theorem cipherInverts : Obligations.CipherInverts := fun c x =>
  ⟨decrypt_encrypt_swap c x, decBlock_encBlock c x, encBlock_decBlock c x⟩

/-! ## The checks of `ENC` and `DEC` -/

/-- The state a completed `ENC` leaves (R146). -/
def State.encrypted (s : State) : State :=
  { s.past 1 with ct := mapBlocks (encBlock s.cfg) s.db 0 (s.dblen.toNat / 8) s.ct, ctlen := s.dblen }

/-- The state a completed `DEC` leaves (R147). -/
def State.decrypted (s : State) : State :=
  { s.past 1 with db := mapBlocks (decBlock s.cfg) s.ct 0 (s.ctlen.toNat / 8) s.db, dblen := s.ctlen }

theorem exec_enc (s : State) : exec .enc s =
    (require (s.dblen.toNat % 8 = 0) (.badOperand 4) s <|
    require (s.dblen.toNat ≤ s.cfg.ctCap) (.badOperand 8) s <|
    .next s.encrypted) := rfl

theorem exec_dec (s : State) : exec .dec s =
    (require (s.ctlen.toNat % 8 = 0) (.badOperand 4) s <|
    require (s.ctlen.toNat ≤ s.cfg.dbCap) (.badOperand 8) s <|
    .next s.decrypted) := rfl

theorem exec_enc_completes {s : State} (hblocks : s.dblen.toNat % 8 = 0) (hroom : s.dblen.toNat ≤ s.cfg.ctCap) :
    exec .enc s = .next s.encrypted := by
  rw [exec_enc, require_pos _ _ _ hblocks, require_pos _ _ _ hroom]

theorem exec_dec_completes {s : State} (hblocks : s.ctlen.toNat % 8 = 0) (hroom : s.ctlen.toNat ≤ s.cfg.dbCap) :
    exec .dec s = .next s.decrypted := by
  rw [exec_dec, require_pos _ _ _ hblocks, require_pos _ _ _ hroom]

/-! ## What the block loop leaves -/

/-- R146, R147 with the word swap of R149: `f` is the function before the swap. -/
theorem mapBlocks_swap (f : W32 × W32 → W32 × W32) (src dst : Memory) {len : Nat} (h : len % 8 = 0) :
    (∀ k, 8 * k < len →
      let y := f (le32 src (8 * k), le32 src (8 * k + 4))
      le32 (mapBlocks (fun x => (f x).swap) src 0 (len / 8) dst) (8 * k) = y.2 ∧
      le32 (mapBlocks (fun x => (f x).swap) src 0 (len / 8) dst) (8 * k + 4) = y.1) ∧
    ∀ a, len ≤ a → readByte (mapBlocks (fun x => (f x).swap) src 0 (len / 8) dst) a = readByte dst a := by
  refine ⟨fun k hk => ?_, fun a ha => readByte_mapBlocks_other _ _ _ _ _ _ (by omega)⟩
  have hwords := le32_mapBlocks (fun x => (f x).swap) src (len / 8) 0 k dst (by omega)
  rw [Nat.zero_add] at hwords
  exact hwords

/-- Settles O33: check by check; the bytes are those the block loop leaves. -/
theorem streamCipherResults : Obligations.StreamCipherResults := by
  intro s
  refine ⟨fun hodd => ?_, fun hblocks hlong => ?_, fun hblocks hroom => ?_,
    fun hodd => ?_, fun hblocks hlong => ?_, fun hblocks hroom => ?_⟩
  · rw [exec_enc, require_neg _ _ _ hodd]
    rfl
  · rw [exec_enc, require_pos _ _ _ hblocks, require_neg _ _ _ (Nat.not_le_of_lt hlong)]
    rfl
  · exact ⟨_, exec_enc_completes hblocks hroom, mapBlocks_swap (encrypt s.cfg) s.db s.ct hblocks⟩
  · rw [exec_dec, require_neg _ _ _ hodd]
    rfl
  · rw [exec_dec, require_pos _ _ _ hblocks, require_neg _ _ _ (Nat.not_le_of_lt hlong)]
    rfl
  · exact ⟨_, exec_dec_completes hblocks hroom, mapBlocks_swap (decrypt s.cfg) s.ct s.db hblocks⟩

/-! ## There and back -/

/-- Memories that agree on a word agree on each of its bytes. -/
theorem readByte_eq_of_le32 {m m' : Memory} {a i : Nat} (h : le32 m a = le32 m' a) (hi : i < 4) :
    readByte m (a + i) = readByte m' (a + i) := by
  have hbytes := bytesOf32_le32 m a
  rw [h, bytesOf32_le32] at hbytes
  simp only [List.cons.injEq] at hbytes
  obtain ⟨h0, h1, h2, h3, _⟩ := hbytes
  interval_cases i
  exacts [h0.symm, h1.symm, h2.symm, h3.symm]

/-- The block loop of an inverse, run back from the destination, leaves every byte of the source as it was. -/
theorem readByte_mapBlocks_mapBlocks {f g : W32 × W32 → W32 × W32} (h : ∀ x, g (f x) = x) (src dst : Memory) (n a : Nat) :
    readByte (mapBlocks g (mapBlocks f src 0 n dst) 0 n src) a = readByte src a := by
  by_cases ha : a < 8 * n
  · obtain ⟨hfst, hsnd⟩ := le32_mapBlocks f src n 0 (a / 8) dst (by omega)
    obtain ⟨hfst', hsnd'⟩ := le32_mapBlocks g (mapBlocks f src 0 n dst) n 0 (a / 8) src (by omega)
    rw [hfst, hsnd, Prod.mk.eta, h, Nat.zero_add] at hfst' hsnd'
    by_cases hlow : a % 8 < 4
    · have := readByte_eq_of_le32 hfst' hlow
      rwa [Nat.div_add_mod] at this
    · have := readByte_eq_of_le32 hsnd' (i := a % 8 - 4) (by omega)
      rwa [show 8 * (a / 8) + 4 + (a % 8 - 4) = a by omega] at this
  · exact readByte_mapBlocks_other _ _ _ _ _ _ (by omega)

/-- Settles O34: the second descriptor finds the length the first left, and runs the inverse of its block function. -/
theorem streamRoundTrip : Obligations.StreamRoundTrip := by
  refine ⟨fun s hrun hblocks hct hdb => ?_, fun s hrun hblocks hct hdb => ?_⟩
  · have hexec : execAll [.enc, .dec] s = .next s.encrypted.decrypted := by
      rw [execAll_cons_of_run (exec_enc_completes hblocks hct) hrun]
      exact execAll_cons_of_run (exec_dec_completes (s := s.encrypted) hblocks hdb) hrun
    exact ⟨_, hexec, hrun, rfl, readByte_mapBlocks_mapBlocks (decBlock_encBlock s.cfg) s.db s.ct (s.dblen.toNat / 8)⟩
  · have hexec : execAll [.dec, .enc] s = .next s.decrypted.encrypted := by
      rw [execAll_cons_of_run (exec_dec_completes hblocks hdb) hrun]
      exact execAll_cons_of_run (exec_enc_completes (s := s.decrypted) hblocks hct) hrun
    exact ⟨_, hexec, hrun, rfl, readByte_mapBlocks_mapBlocks (encBlock_decBlock s.cfg) s.ct s.db (s.ctlen.toNat / 8)⟩

end Sys2Proof.Machine
end

section
/-! SUPPORT. The checksum unit (42_checksum.md): its descriptors check by check (R161 to R169), that the mask transform loses nothing
(R166), and the laws of the unit (R170, R171). -/

namespace Sys2Proof.Machine

/-! ## The mask transform -/

/-- R166: the two halves of the 64-bit value stand side by side, none covering the other. -/
theorem xfCk_eq_append (c : Config) (x : W16) : xfCk c x = xfRight c x ++ xfLeft c x := by
  rw [xfCk, BitVec.append_def, BitVec.shiftLeftZeroExtend_eq, BitVec.setWidth'_eq]

theorem xfCk_low (c : Config) (x : W16) : (xfCk c x).extractLsb' 0 32 = xfLeft c x := by
  rw [xfCk_eq_append, BitVec.extractLsb'_append_eq_right]

theorem xfCk_high (c : Config) (x : W16) : (xfCk c x).extractLsb' 32 32 = xfRight c x := by
  rw [xfCk_eq_append, BitVec.extractLsb'_append_eq_left]

/-- A word is put together again from its bits under the mask `m` and its bits outside it; what stood at the other places does not
matter. -/
theorem merge_masked (z m f g : W32) :
    (((z &&& m) ||| (f &&& ~~~m)) &&& m) ||| (((z &&& ~~~m) ||| (g &&& m)) &&& ~~~m) = z := by
  ext i hi
  simp only [BitVec.getElem_or, BitVec.getElem_and, BitVec.getElem_not]
  cases m[i] <;> simp

/-- R166: `left` holds the bits of the checksum under `M1`, `right` the others. -/
theorem merge_xfLeft_xfRight (c : Config) (x : W16) :
    (xfLeft c x &&& c.m1) ||| (xfRight c x &&& ~~~c.m1) = x.zeroExtend 32 :=
  merge_masked (x.zeroExtend 32) c.m1 c.m2 c.m2

theorem zeroExtend32_injective {x y : W16} (h : (x.zeroExtend 32 : W32) = y.zeroExtend 32) : x = y := by
  have hlow := congrArg (BitVec.setWidth 16) h
  simpa using hlow

/-- R166: the checksum is recovered from the halves of the 64-bit value. -/
theorem xfCk_injective (c : Config) {x y : W16} (h : xfCk c x = xfCk c y) : x = y := by
  have hleft : xfLeft c x = xfLeft c y := by rw [← xfCk_low, h, xfCk_low]
  have hright : xfRight c x = xfRight c y := by rw [← xfCk_high, h, xfCk_high]
  apply zeroExtend32_injective
  rw [← merge_xfLeft_xfRight c x, hleft, hright, merge_xfLeft_xfRight]

/-- Settles O37: the masks select complementary bits, and the halves do not overlap. -/
theorem transformIsInjective : Obligations.TransformIsInjective := fun c x _ =>
  ⟨merge_xfLeft_xfRight c x, xfCk_low c x, xfCk_high c x, xfCk_injective c⟩

/-! ## The descriptors, check by check -/

theorem exec_crcinit (s : State) : exec .crcinit s = .next { s.past 1 with crc := 0xFFFF#16 } := rfl

theorem exec_crcupd (off n : W32) (s : State) : exec (.crcupd off n) s =
    (require (off.toNat + n.toNat ≤ s.ctlen.toNat) (.badOperand 5) s <|
    .next { s.past 3 with crc := crcRun s.cfg s.crc (readBytes s.ct off.toNat n.toNat) }) := rfl

theorem exec_crcfin (s : State) : exec .crcfin s = .next { s.past 1 with crc := s.crc ^^^ 0xFFFF#16 } := rfl

theorem exec_ckxf (s : State) : exec .ckxf s = .next { s.past 1 with
    left := xfLeft s.cfg s.crc, right := xfRight s.cfg s.crc, ck64 := xfCk s.cfg s.crc } := rfl

/-- R167, R168: the checksum of the valid ciphertext. -/
def State.checksum (s : State) : W16 := crc16 s.cfg s.ciphertext

/-- The state a `CKVFY` that passes leaves (R168). -/
def State.verified (s : State) : State :=
  { s.past 1 with
    crc := s.checksum, left := xfLeft s.cfg s.checksum, right := xfRight s.cfg s.checksum, ck64 := xfCk s.cfg s.checksum }

/-- The state `CKGEN` leaves (R167). -/
def State.generated (s : State) : State := { s.verified with cstored := xfCk s.cfg s.checksum }

theorem exec_ckgen (s : State) : exec .ckgen s = .next s.generated := rfl

theorem exec_ckvfy (s : State) : exec .ckvfy s =
    (require (xfCk s.cfg s.checksum = s.cstored) (.formatMismatch 2) s <| .next s.verified) := rfl

section
variable {s : State} {off n : W32}

theorem exec_crcupd_completes (h : off.toNat + n.toNat ≤ s.ctlen.toNat) : exec (.crcupd off n) s =
    .next { s.past 3 with crc := crcRun s.cfg s.crc (readBytes s.ct off.toNat n.toNat) } := by
  rw [exec_crcupd, require_pos _ _ _ h]

theorem exec_crcupd_too_long (h : s.ctlen.toNat < off.toNat + n.toNat) : exec (.crcupd off n) s = s.faulted 6 5 := by
  rw [exec_crcupd, require_neg _ _ _ (Nat.not_le_of_lt h)]
  rfl

theorem exec_ckvfy_completes (h : xfCk s.cfg s.checksum = s.cstored) : exec .ckvfy s = .next s.verified := by
  rw [exec_ckvfy, require_pos _ _ _ h]

theorem exec_ckvfy_mismatch (h : xfCk s.cfg s.checksum ≠ s.cstored) : exec .ckvfy s = s.faulted 1 2 := by
  rw [exec_ckvfy, require_neg _ _ _ h]
  rfl

end

/-- Settles O35: only `CRCUPD` has a check. -/
theorem checksumPrimitives : Obligations.ChecksumPrimitives := fun s =>
  ⟨exec_crcinit s, fun _ _ => exec_crcupd_completes, fun _ _ => exec_crcupd_too_long, exec_crcfin s, exec_ckxf s⟩

/-- Settles O36: `CKGEN` has no check, `CKVFY` the one comparison. -/
theorem checksumComposites : Obligations.ChecksumComposites := fun s =>
  ⟨exec_ckgen s, exec_ckvfy_completes, exec_ckvfy_mismatch⟩

/-! ## The laws -/

/-- R170 (a): the primitives in sequence compute what `CKVFY` and `CKGEN` compute. -/
theorem execAll_primitives {s : State} (hrun : s.state = .run) :
    execAll [.crcinit, .crcupd 0#32 s.ctlen, .crcfin, .ckxf] s =
      .next { s.verified with dp := s.dp + 1#32 + 3#32 + 1#32 + 1#32 } := by
  have hspan : (0#32).toNat + s.ctlen.toNat ≤ s.ctlen.toNat := Nat.le_of_eq (Nat.zero_add _)
  have hupd := exec_crcupd_completes (s := { s.past 1 with crc := 0xFFFF#16 }) hspan
  rw [execAll_cons_of_run (exec_crcinit s), execAll_cons_of_run hupd, execAll_cons_of_run (exec_crcfin _),
    execAll_cons_of_run (exec_ckxf _)]
  · rfl
  all_goals exact hrun

/-- R170 (b): `CKGEN` changes neither the ciphertext nor the table, and stores what `CKVFY` compares with. -/
theorem exec_ckvfy_generated (s : State) : exec .ckvfy s.generated = .next (s.generated.past 1) :=
  exec_ckvfy_completes (s := s.generated) rfl

/-- R170 (c). -/
theorem ckvfy_passes_iff {s : State} (hrun : s.state = .run) :
    (∃ t, exec .ckvfy s = .next t ∧ t.state = .run) ↔ xfCk s.cfg s.checksum = s.cstored := by
  constructor
  · rintro ⟨t, hexec, ht⟩
    obtain ⟨hstored, _⟩ := completed_of_not_fault hexec (by simp [ht])
    exact hstored
  · intro h
    exact ⟨s.verified, exec_ckvfy_completes h, hrun⟩

/-- R171: under a sensitive table the flipped bit changes the checksum, and the transform keeps the difference. -/
theorem exec_ckvfy_of_flipped_bit {s : State} {ct : Memory} (hsens : SingleBitSensitive s.cfg)
    (hpass : xfCk s.cfg s.checksum = s.cstored) (hflip : DifferInOneBit s.ciphertext (readBytes ct 0 s.ctlen.toNat)) :
    exec .ckvfy { s with ct := ct } = State.faulted { s with ct := ct } 1 2 := by
  apply exec_ckvfy_mismatch
  intro hpass'
  have hsame : s.checksum = State.checksum { s with ct := ct } := xfCk_injective s.cfg (hpass.trans hpass'.symm)
  exact hsens _ _ hflip hsame

/-- Settles O38. -/
theorem checksumLaws : Obligations.ChecksumLaws := by
  intro s hrun passes
  refine ⟨⟨_, _, execAll_primitives hrun, exec_ckgen s, rfl, rfl, rfl, rfl, rfl⟩,
    ⟨_, exec_ckgen s, exec_ckvfy_generated s⟩, (ckvfy_passes_iff hrun).trans eq_comm, fun hsens hpass ct => ?_⟩
  exact exec_ckvfy_of_flipped_bit hsens ((ckvfy_passes_iff hrun).1 hpass)

end Sys2Proof.Machine
end

section
/-! SUPPORT. What `Walk` and `ReadChain` answer (43_filesystem.md R182, R184): the walk follows the FAT hop by hop, and what it
accepts is the one chain of clusters of the card from its start to the sentinel. -/

namespace Sys2Proof.Machine

/-! ## One hop -/

/-- R182: a cluster from which the walk goes on. -/
abbrev OnCard (c : Config) (cl : W32) : Prop := cl ≠ c.chainEnd ∧ cl.toNat < c.nClusters

/-- R182: the cluster the FAT names after `cl`. -/
abbrev nextCluster (c : Config) (img : Memory) (cl : W32) : W32 := fatValue c img cl.toNat

section
variable {c : Config} {img : Memory} {cl : W32}

theorem walkFrom_sentinel (left : Nat) (h : cl = c.chainEnd) : walkFrom c img left cl = .ok [] := by
  unfold walkFrom
  exact if_pos h

theorem walkFrom_off_card (left : Nat) (hend : cl ≠ c.chainEnd) (hoff : c.nClusters ≤ cl.toNat) :
    walkFrom c img left cl = .error (.chainError 1) := by
  unfold walkFrom
  rw [if_neg hend, if_pos hoff]

theorem walkFrom_zero_onCard (h : OnCard c cl) : walkFrom c img 0 cl = .error (.chainError 2) := by
  unfold walkFrom
  rw [if_neg h.1, if_neg (Nat.not_le_of_lt h.2)]

theorem walkFrom_succ_onCard (left : Nat) (h : OnCard c cl) :
    walkFrom c img (left + 1) cl = (walkFrom c img left (nextCluster c img cl)).map (cl :: ·) := by
  rw [walkFrom, if_neg h.1, if_neg (Nat.not_le_of_lt h.2)]
  cases walkFrom c img left (nextCluster c img cl) <;> rfl

end

/-- As long as the chain stays on the card, each hop puts one cluster before what the rest of the walk answers. -/
theorem walkFrom_hops {c : Config} {img : Memory} (left : Nat) (j : Nat) : ∀ {cl : W32},
    (∀ k, k < j → OnCard c ((nextCluster c img)^[k] cl)) →
    walkFrom c img (left + j) cl = (walkFrom c img left ((nextCluster c img)^[j] cl)).map
      ((List.range j).map (fun k => (nextCluster c img)^[k] cl) ++ ·) := by
  induction j with
  | zero =>
    intro cl _
    change walkFrom c img left cl = (walkFrom c img left cl).map ([] ++ ·)
    cases walkFrom c img left cl <;> rfl
  | succ j ih =>
    intro cl h
    have hfirst : OnCard c cl := h 0 (Nat.succ_pos j)
    have hrest := ih (cl := nextCluster c img cl) fun k hk => h (k + 1) (Nat.succ_lt_succ hk)
    have hlist : (List.range (j + 1)).map (fun k => (nextCluster c img)^[k] cl) =
        cl :: (List.range j).map (fun k => (nextCluster c img)^[k] (nextCluster c img cl)) := by
      rw [List.range_succ_eq_map, List.map_cons, List.map_map]
      rfl
    rw [← Nat.add_assoc, walkFrom_succ_onCard _ hfirst, hrest, hlist, Function.iterate_succ_apply]
    cases walkFrom c img left ((nextCluster c img)^[j] (nextCluster c img cl)) <;> rfl

/-! ## The chain a walk accepts -/

/-- R182: `cls` are the clusters of the card met from `cl` on before the sentinel. -/
def FollowsFat (c : Config) (img : Memory) : W32 → List W32 → Prop
  | cl, [] => cl = c.chainEnd
  | cl, x :: cls => x = cl ∧ OnCard c cl ∧ FollowsFat c img (nextCluster c img cl) cls

theorem walkFrom_ok_iff {c : Config} {img : Memory} (left : Nat) : ∀ {cl : W32} {cls : List W32},
    walkFrom c img left cl = .ok cls ↔ FollowsFat c img cl cls ∧ cls.length ≤ left := by
  induction left with
  | zero =>
    intro cl cls
    constructor
    · intro h
      obtain ⟨hend, rfl⟩ | ⟨_, _, n, _, hn, _⟩ := walkFrom_ok h
      · exact ⟨hend, Nat.le_refl 0⟩
      · cases hn
    · rintro ⟨hf, hlen⟩
      obtain rfl := List.length_eq_zero_iff.1 (Nat.le_zero.1 hlen)
      exact walkFrom_sentinel 0 hf
  | succ left ih =>
    intro cl cls
    constructor
    · intro h
      obtain ⟨hend, rfl⟩ | ⟨hend, hlt, n, tl, hn, htl, rfl⟩ := walkFrom_ok h
      · exact ⟨hend, Nat.zero_le _⟩
      · cases hn
        obtain ⟨hf, hlen⟩ := ih.1 htl
        exact ⟨⟨rfl, ⟨hend, hlt⟩, hf⟩, Nat.succ_le_succ hlen⟩
    · rintro ⟨hf, hlen⟩
      cases cls with
      | nil => exact walkFrom_sentinel _ hf
      | cons x tl =>
        obtain ⟨rfl, hon, hf⟩ := hf
        rw [walkFrom_succ_onCard _ hon, ih.2 ⟨hf, Nat.le_of_succ_le_succ hlen⟩]
        rfl

theorem walk_ok_iff {c : Config} {img : Memory} {cl : W32} {cls : List W32} :
    walk c img cl = .ok cls ↔ FollowsFat c img cl cls ∧ cls.length ≤ c.nClusters := walkFrom_ok_iff _

namespace FollowsFat

variable {c : Config} {img : Memory}

theorem onCard : ∀ {cl : W32} {cls : List W32}, FollowsFat c img cl cls → ∀ x ∈ cls, OnCard c x
  | _, [], _, _, hx => nomatch hx
  | _, _ :: _, ⟨rfl, hon, hf⟩, x, hx => (List.mem_cons.1 hx).elim (fun h => h ▸ hon) (hf.onCard x)

/-- There is one chain from a cluster. -/
theorem unique : ∀ {cl : W32} {cls cls' : List W32}, FollowsFat c img cl cls → FollowsFat c img cl cls' → cls = cls'
  | _, [], [], _, _ => rfl
  | _, [], _ :: _, hend, ⟨_, hon, _⟩ => absurd hend hon.1
  | _, _ :: _, [], ⟨_, hon, _⟩, hend => absurd hend hon.1
  | _, _ :: _, _ :: _, ⟨rfl, _, hf⟩, ⟨rfl, _, hf'⟩ => congrArg _ (hf.unique hf')

/-- What follows a member of a chain is the chain from that member. -/
theorem of_append_cons : ∀ {cl : W32} (before : List W32) {x : W32} {after : List W32},
    FollowsFat c img cl (before ++ x :: after) → FollowsFat c img x (x :: after)
  | _, [], _, _, hf => by obtain ⟨rfl, hon, hf⟩ := hf; exact ⟨rfl, hon, hf⟩
  | _, _ :: before, _, _, ⟨_, _, hf⟩ => of_append_cons before hf

/-- A cluster met twice would be followed by two chains of different lengths. -/
theorem nodup : ∀ {cl : W32} {cls : List W32}, FollowsFat c img cl cls → cls.Nodup
  | _, [], _ => List.nodup_nil
  | cl, _ :: cls, hf => by
    obtain ⟨rfl, hon, htl⟩ := hf
    refine List.nodup_cons.2 ⟨fun hmem => ?_, htl.nodup⟩
    obtain ⟨before, after, hsplit⟩ := List.append_of_mem hmem
    have hagain := of_append_cons before (hsplit ▸ htl)
    have hhere : FollowsFat c img _ (_ :: cls) := ⟨rfl, hon, htl⟩
    have hlen := congrArg List.length (hagain.unique hhere)
    have hlen' := congrArg List.length hsplit
    simp only [List.length_cons, List.length_append] at hlen hlen'
    omega

/-- The FAT's values down a chain are the clusters that follow, then the sentinel. -/
theorem cons_map_next : ∀ {cl : W32} {cls : List W32}, FollowsFat c img cl cls →
    cl :: cls.map (nextCluster c img) = cls ++ [c.chainEnd]
  | _, [], hend => by rw [hend]; rfl
  | _, _ :: _, ⟨rfl, _, hf⟩ => congrArg _ hf.cons_map_next

/-- A chain looks only at the FAT's values for clusters of the card. -/
theorem of_fat_eq {img' : Memory} (h : ∀ k, k < c.nClusters → fatValue c img' k = fatValue c img k) :
    ∀ {cl : W32} {cls : List W32}, FollowsFat c img cl cls → FollowsFat c img' cl cls
  | _, [], hend => hend
  | cl, _ :: _, ⟨hx, hon, hf⟩ => ⟨hx, hon, by
      rw [nextCluster, h _ hon.2]
      exact hf.of_fat_eq h⟩

end FollowsFat

/-- Settles O39. -/
theorem walkIsSound : Obligations.WalkIsSound := by
  intro c img c0 cls h
  obtain ⟨hf, hlen⟩ := walk_ok_iff.1 h
  exact ⟨hlen, hf.nodup, fun x hx => (hf.onCard x hx).symm, fun j _ => by rw [← hf.cons_map_next]⟩

/-! ## The bytes of a file -/

theorem readChain_of_walk_error {c : Config} {img : Memory} {e : DirEntry} {k : BlockFault}
    (h : walk c img e.cluster = .error k) : readChain c img e = .error k := by
  unfold readChain
  rw [h]

section
variable {c : Config} {img : Memory} {e : DirEntry} {cls : List W32} (hwalk : walk c img e.cluster = .ok cls)
include hwalk

theorem readChain_too_short (h : cls.length * c.clusterSize < e.length.toNat) :
    readChain c img e = .error (.chainError 3) := by
  unfold readChain
  rw [hwalk]
  exact if_pos h

theorem readChain_of_walk (h : e.length.toNat ≤ cls.length * c.clusterSize) :
    readChain c img e = .ok ((chainData c img cls).take e.length.toNat) := readChain_ok.2 ⟨cls, hwalk, h, rfl⟩

end

/-- Byte `i` of a file stands at `fileByteAddr` (R184). -/
theorem getD_take_chainData (c : Config) (img : Memory) (cls : List W32) {n i : Nat} (hi : i < n)
    (hn : n ≤ cls.length * c.clusterSize) :
    ((chainData c img cls).take n).getD i 0#8 = readByte img (fileByteAddr c cls i) := by
  rw [List.getD_eq_getElem?_getD, List.getElem?_take_of_lt hi, getElem?_chainData _ _ _ _ (by omega)]
  rfl

/-- Settles O40: the hops on the card, then the one case of the walk that ends them. -/
theorem walkResult : Obligations.WalkResult := by
  intro c img
  refine ⟨fun c0 => ⟨fun j hj hon hend => ?_, fun j hj hon hend hoff => ?_, fun hon => ?_⟩,
    fun e => ⟨fun k => readChain_of_walk_error, fun cls hwalk => ⟨readChain_too_short hwalk, fun hlen => ?_⟩⟩⟩
  · rw [walk, ← Nat.sub_add_cancel hj, walkFrom_hops _ j hon, walkFrom_sentinel _ hend]
    exact congrArg Except.ok (List.append_nil _)
  · rw [walk, ← Nat.sub_add_cancel hj, walkFrom_hops _ j hon, walkFrom_off_card _ hend hoff]
    rfl
  · rw [walk, ← Nat.zero_add c.nClusters, walkFrom_hops 0 _ fun k hk => hon k (Nat.le_of_lt hk),
      walkFrom_zero_onCard (hon _ (Nat.le_refl _))]
    rfl
  · refine ⟨_, readChain_of_walk hwalk hlen, length_readChain (readChain_of_walk hwalk hlen), fun i hi => ?_⟩
    exact getD_take_chainData c img cls hi hlen

end Sys2Proof.Machine
end

section
/-! SUPPORT. The filesystem descriptors that leave the image alone, check by check (43_filesystem.md R186, R190, R199, R200, R204,
R205), and what they deliver. -/

namespace Sys2Proof.Machine

/-! ## `FATGET`, `ECCGEN`, `ECCCHK` -/

theorem exec_fatget (cl : W32) (s : State) : exec (.fatget cl) s =
    (require (cl.toNat < s.cfg.nClusters) (.badOperand 6) s <|
    .next { s.past 2 with rv := (fatValue s.cfg s.img cl.toNat).zeroExtend 64, imgMode := .closed }) := rfl

/-- R199: the three code bytes side by side, the first lowest, in the form of a sum of shifts. -/
theorem zeroExtend_code_eq_or (e : Byte × Byte × Byte) : (e.2.2 ++ e.2.1 ++ e.1 : BitVec 24).zeroExtend 64 =
    e.1.zeroExtend 64 ||| (e.2.1.zeroExtend 64 <<< 8) ||| (e.2.2.zeroExtend 64 <<< 16) := by
  ext i hi
  simp only [BitVec.truncate_eq_setWidth, BitVec.getElem_setWidth, BitVec.getLsbD_append, BitVec.getElem_or,
    BitVec.getElem_shiftLeft]
  by_cases h8 : i < 8
  · simp [h8, Nat.lt_trans h8 (by decide : 8 < 16)]
  · by_cases h16 : i < 16
    · simp [h8, h16, show i - 8 < 8 by omega, BitVec.getLsbD_of_ge e.1 i (Nat.le_of_not_lt h8)]
    · simp [h8, h16, show ¬ i - 8 < 8 by omega, BitVec.getLsbD_of_ge e.1 i (Nat.le_of_not_lt h8),
        BitVec.getLsbD_of_ge e.2.1 (i - 8) (by omega), Nat.sub_sub]

theorem exec_eccgen (off : W32) (s : State) : exec (.eccgen off) s =
    (require (off.toNat + 128 ≤ s.eblen.toNat) (.badOperand 5) s <|
    let e := ecc128 s.cfg (readBytes s.eb off.toNat 128)
    .next { s.past 2 with
      rv := e.1.zeroExtend 64 ||| (e.2.1.zeroExtend 64 <<< 8) ||| (e.2.2.zeroExtend 64 <<< 16), rb := 3#32 }) := by
  simp only [← zeroExtend_code_eq_or]
  rfl

section
variable {p : W32} {s : State}

theorem exec_eccchk_bad_operand (h : ¬ (s.cfg.hasSpare = true ∧ p.toNat < s.cfg.nPages)) :
    exec (.eccchk p) s = s.faulted 6 6 := require_neg _ _ _ h

theorem exec_eccchk_completes (h : s.cfg.hasSpare = true ∧ p.toNat < s.cfg.nPages)
    (hgood : firstBadChunk s.cfg s.img p.toNat = none) :
    exec (.eccchk p) s = .next { s.past 2 with imgMode := .closed } := by
  refine (require_pos _ _ _ h).trans ?_
  simp only [State.openImage_cfg, State.openImage_img, hgood]
  rfl

theorem exec_eccchk_mismatch {k : Nat} (h : s.cfg.hasSpare = true ∧ p.toNat < s.cfg.nPages)
    (hbad : firstBadChunk s.cfg s.img p.toNat = some k) :
    exec (.eccchk p) s = s.faulted 8 (BitVec.ofNat 32 k) := by
  refine (require_pos _ _ _ h).trans ?_
  simp only [State.openImage_cfg, State.openImage_img, hbad]
  rfl

end

/-- R200: the stored code of sub-chunk `k` of page `p` is the computed one. -/
abbrev ChunkGood (c : Config) (img : Memory) (p k : Nat) : Prop :=
  eccBytes c (readBytes img (c.pageAddr p + 128 * k) 128) = readBytes img (c.pageAddr p + c.pageSize + 3 * k) 3

theorem firstBadChunk_eq_none {c : Config} {img : Memory} {p : Nat} (hs : c.hasSpare = true)
    (h : ∀ k, k < c.nch → ChunkGood c img p k) : firstBadChunk c img p = none := by
  refine List.find?_eq_none.2 fun k hk => ?_
  have hk := List.mem_range.1 hk
  simpa using (subChunk_code_iff c img p k hs hk).2 (h k hk)

theorem firstBadChunk_eq_some {c : Config} {img : Memory} {p k : Nat} (hs : c.hasSpare = true) (hk : k < c.nch)
    (hbefore : ∀ j, j < k → ChunkGood c img p j) (hbad : ¬ ChunkGood c img p k) : firstBadChunk c img p = some k := by
  refine List.find?_range_eq_some.2 ⟨?_, List.mem_range.2 hk, fun j hj => ?_⟩
  · simpa using mt (subChunk_code_iff c img p k hs hk).1 hbad
  · simpa using (subChunk_code_iff c img p j hs (Nat.lt_trans hj hk)).2 (hbefore j hj)

/-- Settles O41. -/
theorem fatAndCodeResults : Obligations.FatAndCodeResults := by
  intro s good
  refine ⟨fun cl h => ?_, fun cl h => ?_, fun off h => ?_, fun off h => ?_, fun p h => exec_eccchk_bad_operand ?_,
    fun p hs hp => ⟨fun hgood => ?_, fun k hk hbefore hbad => ?_⟩⟩
  · rw [exec_fatget, require_pos _ _ _ h]
  · rw [exec_fatget, require_neg _ _ _ (Nat.not_lt_of_le h)]
    rfl
  · rw [exec_eccgen, require_pos _ _ _ h]
  · rw [exec_eccgen, require_neg _ _ _ (Nat.not_le_of_lt h)]
    rfl
  · rintro ⟨hs, hp⟩
    rcases h with h | h
    · rw [hs] at h; cases h
    · omega
  · exact exec_eccchk_completes ⟨hs, hp⟩ (firstBadChunk_eq_none hs hgood)
  · exact exec_eccchk_mismatch ⟨hs, hp⟩ (firstBadChunk_eq_some hs hk hbefore hbad)

/-! ## `RDCHAIN` -/

section
variable {idx : W32} {s : State}

theorem exec_rdchain_no_entry (h : s.etn.toNat ≤ idx.toNat) : exec (.rdchain idx) s = s.faulted 6 3 :=
  require_neg _ _ _ (Nat.not_lt_of_le h)

variable (hidx : idx.toNat < s.etn.toNat)
include hidx

theorem exec_rdchain_too_long (h : s.cfg.ebCap < (readEntry s.et idx.toNat).length.toNat) :
    exec (.rdchain idx) s = s.faulted 6 7 :=
  (require_pos _ _ _ hidx).trans (require_neg _ _ _ (Nat.not_le_of_lt h))

variable (hcap : (readEntry s.et idx.toNat).length.toNat ≤ s.cfg.ebCap)
include hcap

theorem exec_rdchain_error {k : BlockFault} (h : readChain s.cfg s.img (readEntry s.et idx.toNat) = .error k) :
    exec (.rdchain idx) s = s.faulted k.code k.info := by
  refine ((require_pos _ _ _ hidx).trans (require_pos _ _ _ hcap)).trans ?_
  simp only [State.openImage_cfg, State.openImage_img, h]
  rfl

theorem exec_rdchain_completes {data : List Byte} (h : readChain s.cfg s.img (readEntry s.et idx.toNat) = .ok data) :
    exec (.rdchain idx) s = .next { s.past 2 with
      eb := writeBytes s.eb 0 data, eblen := (readEntry s.et idx.toNat).length, imgMode := .closed } := by
  refine ((require_pos _ _ _ hidx).trans (require_pos _ _ _ hcap)).trans ?_
  simp only [State.openImage_cfg, State.openImage_img, h]
  rfl

/-- R190, R184: where the file's bytes stand in `EB`. -/
theorem exec_rdchain_delivers {cls : List W32} (hwalk : walk s.cfg s.img (readEntry s.et idx.toNat).cluster = .ok cls)
    (hroom : (readEntry s.et idx.toNat).length.toNat ≤ cls.length * s.cfg.clusterSize) :
    ∃ eb, exec (.rdchain idx) s = .next { s.past 2 with
        eb := eb, eblen := (readEntry s.et idx.toNat).length, imgMode := .closed } ∧
      (∀ i, i < (readEntry s.et idx.toNat).length.toNat → readByte eb i = readByte s.img (fileByteAddr s.cfg cls i)) ∧
      (∀ a, (readEntry s.et idx.toNat).length.toNat ≤ a → readByte eb a = readByte s.eb a) := by
  have hread := readChain_of_walk hwalk hroom
  have hlen := length_readChain hread
  refine ⟨_, exec_rdchain_completes hidx hcap hread, fun i hi => ?_, fun a ha => ?_⟩
  · rw [readByte_writeBytes, if_pos (by omega), Nat.sub_zero, getD_take_chainData _ _ _ hi hroom]
  · rw [readByte_writeBytes, if_neg (by omega)]

end

/-- Settles O42. -/
theorem rdchainResult : Obligations.RdchainResult := fun _ _ =>
  ⟨exec_rdchain_no_entry, exec_rdchain_too_long, fun hidx hcap =>
    ⟨fun _ hk => exec_rdchain_error hidx hcap (readChain_of_walk_error hk), fun _ hwalk =>
      ⟨fun hshort => exec_rdchain_error hidx hcap (readChain_too_short hwalk hshort),
        exec_rdchain_delivers hidx hcap hwalk⟩⟩⟩

/-! ## `LSROOT`, `LOOKUP` -/

/-- R204, R205: the state a directory descriptor of `n` words leaves that lists `es`. -/
def State.listed (s : State) (n : Nat) (es : List DirEntry) : State :=
  { s.past n with et := writeEntries s.et 0 es, etn := BitVec.ofNat 32 es.length, imgMode := .closed }

/-- R204, R205: the last check of both directory descriptors, and what they deliver. -/
theorem listing_result {r : Result} {s : State} {n : Nat} {es : List DirEntry}
    (h : r = require (es.length ≤ s.cfg.etMax) (.badOperand 8) s (.next (s.listed n es))) :
    (s.cfg.etMax < es.length → r = s.faulted 6 8) ∧
    (es.length ≤ s.cfg.etMax →
      ∃ et, r = .next { s.past n with et := et, etn := BitVec.ofNat 32 es.length, imgMode := .closed } ∧
        (∀ j, j < es.length → readEntry et j = es.getD j blankEntry) ∧
        ∀ j, es.length ≤ j → readEntry et j = readEntry s.et j) := by
  refine ⟨fun hmany => ?_, fun hfew => ⟨writeEntries s.et 0 es, ?_, fun j hj => ?_, fun j hj => ?_⟩⟩
  · rw [h, require_neg _ _ _ (Nat.not_le_of_lt hmany)]
    rfl
  · rw [h, require_pos _ _ _ hfew]
    rfl
  · rw [readEntry_writeEntries, if_pos (by omega), Nat.sub_zero]
  · rw [readEntry_writeEntries, if_neg (by omega)]

section
variable {s : State}

theorem exec_lsroot_error {k : BlockFault} (h : dirList s.cfg s.img (rootEntry s.cfg s.img) = .error k) :
    exec .lsroot s = s.faulted k.code k.info := by
  change execLsroot s = _
  simp only [execLsroot, State.openImage_cfg, State.openImage_img, h]
  rfl

theorem exec_lsroot_list {es : List DirEntry} (h : dirList s.cfg s.img (rootEntry s.cfg s.img) = .ok es) :
    exec .lsroot s = require (es.length ≤ s.cfg.etMax) (.badOperand 8) s (.next (s.listed 1 es)) := by
  change execLsroot s = _
  simp only [execLsroot, State.openImage_cfg, State.openImage_img, h]
  rfl

end

/-- Settles O47. -/
theorem lsrootResult : Obligations.LsrootResult := fun _ =>
  ⟨fun _ hk => exec_lsroot_error (dirList_error.2 hk), fun bs hbs =>
    listing_result (exec_lsroot_list (dirList_ok.2 ⟨bs, hbs, rfl⟩))⟩

/-- R205: the first entry of a name is the one `LOOKUP` takes. -/
theorem find?_first_named {roots before after : List DirEntry} {h : DirEntry} {name : List Byte}
    (hsplit : roots = before ++ h :: after) (hbefore : ∀ d ∈ before, d.name ≠ name) (hfirst : h.name = name) :
    roots.find? (fun d => decide (d.name = name)) = some h :=
  List.find?_eq_some_iff_append.2 ⟨decide_eq_true hfirst, before, after, hsplit, fun d hd => by simpa using hbefore d hd⟩

section
variable {a n : W32} {s : State}

theorem exec_lookup_bad_operand (h : s.cfg.cbLen < a.toNat + n.toNat) : exec (.lookup a n) s = s.faulted 6 2 :=
  require_neg _ _ _ (Nat.not_le_of_lt h)

variable (hname : a.toNat + n.toNat ≤ s.cfg.cbLen)
include hname

theorem exec_lookup_root_error {k : BlockFault} (h : dirList s.cfg s.img (rootEntry s.cfg s.img) = .error k) :
    exec (.lookup a n) s = s.faulted k.code k.info := by
  refine (require_pos _ _ _ hname).trans ?_
  simp only [State.openImage_cfg, State.openImage_img, h]
  rfl

variable {roots : List DirEntry} (hroots : dirList s.cfg s.img (rootEntry s.cfg s.img) = .ok roots)
include hroots

theorem exec_lookup_not_found (h : ∀ d ∈ roots, d.name ≠ readBytes s.cb a.toNat n.toNat) :
    exec (.lookup a n) s = s.faulted 2 0 := by
  have hfind : roots.find? (fun d => decide (d.name = readBytes (s.openImage .read).cb a.toNat n.toNat)) = none :=
    List.find?_eq_none.2 fun d hd hnamed => h d hd (of_decide_eq_true hnamed)
  refine (require_pos _ _ _ hname).trans ?_
  simp only [State.openImage_cfg, State.openImage_img, hroots, hfind]
  rfl

variable {before after : List DirEntry} {h : DirEntry} (hsplit : roots = before ++ h :: after)
  (hbefore : ∀ d ∈ before, d.name ≠ readBytes s.cb a.toNat n.toNat) (hfirst : h.name = readBytes s.cb a.toNat n.toNat)
include hsplit hbefore hfirst

theorem exec_lookup_entry_error {k : BlockFault} (hk : dirList s.cfg s.img h = .error k) :
    exec (.lookup a n) s = s.faulted k.code k.info := by
  have hfind : roots.find? (fun d => decide (d.name = readBytes (s.openImage .read).cb a.toNat n.toNat)) = some h :=
    find?_first_named hsplit hbefore hfirst
  refine (require_pos _ _ _ hname).trans ?_
  simp only [State.openImage_cfg, State.openImage_img, hroots, hfind, hk]
  rfl

theorem exec_lookup_list {es : List DirEntry} (hes : dirList s.cfg s.img h = .ok es) :
    exec (.lookup a n) s = require (es.length ≤ s.cfg.etMax) (.badOperand 8) s (.next (s.listed 3 es)) := by
  have hfind : roots.find? (fun d => decide (d.name = readBytes (s.openImage .read).cb a.toNat n.toNat)) = some h :=
    find?_first_named hsplit hbefore hfirst
  refine (require_pos _ _ _ hname).trans ?_
  simp only [State.openImage_cfg, State.openImage_img, hroots, hfind, hes]
  rfl

end

/-- Settles O48. -/
theorem lookupResult : Obligations.LookupResult := by
  intro a n s root name live
  refine ⟨exec_lookup_bad_operand, fun hname => ⟨fun k hk => exec_lookup_root_error hname (dirList_error.2 hk),
    fun bs hbs hnone => exec_lookup_not_found hname (dirList_ok.2 ⟨bs, hbs, rfl⟩) hnone,
    fun bs before after h hbs hsplit hbefore hfirst => ?_⟩⟩
  have hroots : dirList s.cfg s.img (rootEntry s.cfg s.img) = .ok (live bs) := dirList_ok.2 ⟨bs, hbs, rfl⟩
  exact ⟨fun k hk => exec_lookup_entry_error hname hroots hsplit hbefore hfirst (dirList_error.2 hk), fun sub hsub =>
    listing_result (exec_lookup_list hname hroots hsplit hbefore hfirst (dirList_ok.2 ⟨sub, hsub, rfl⟩))⟩

end Sys2Proof.Machine
end

section
/-! SUPPORT. What `WRCHAIN` does to the image (43_filesystem.md R194 to R198, R201). A chain is the list of its pages in file order, and
a chain write is one write after another down that list; each fact about the written image is one induction over the pages. -/

namespace Sys2Proof.Machine

/-! ## The pages of a chain -/

/-- R72, R180: all pages of the clusters `cls`, in the order of the file. (`chainPages` lists those that receive a byte.) -/
def filePages (c : Config) (cls : List W32) : List Nat :=
  cls.flatMap (fun cl => List.range' (c.clusterFirstPage cl.toNat) c.ppc)

/-- The address of data byte `i` of the pages `pages`. -/
def pagesByteAddr (c : Config) (pages : List Nat) (i : Nat) : Nat :=
  c.pageAddr (pages.getD (i / c.pageSize) 0) + i % c.pageSize

theorem filePages_cons (c : Config) (cl : W32) (cls : List W32) :
    filePages c (cl :: cls) = List.range' (c.clusterFirstPage cl.toNat) c.ppc ++ filePages c cls := rfl

@[simp] theorem length_filePages (c : Config) (cls : List W32) : (filePages c cls).length = cls.length * c.ppc := by
  simp [filePages, List.length_flatMap]

/-- Page `m` of a chain is page `m % PPC` of its cluster `m / PPC`. -/
theorem getD_filePages (c : Config) (cls : List W32) : ∀ {m : Nat}, m < cls.length * c.ppc →
    (filePages c cls).getD m 0 = c.clusterFirstPage (cls.getD (m / c.ppc) 0#32).toNat + m % c.ppc := by
  induction cls with
  | nil => intro m h; simp at h
  | cons cl cls ih =>
    intro m h
    rw [filePages_cons]
    by_cases hm : m < c.ppc
    · rw [List.getD_append _ _ _ _ (by simpa using hm), Nat.div_eq_of_lt hm, Nat.mod_eq_of_lt hm,
        List.getD_eq_getElem _ _ (by simpa using hm), List.getElem_range', Nat.one_mul]
      rfl
    · have hm := Nat.le_of_not_lt hm
      rw [List.getD_append_right _ _ _ _ (by simpa using hm), List.length_range', ih, Nat.mod_eq_sub_mod hm,
        Nat.div_eq_sub_div c.one_le_ppc hm, List.getD_cons_succ]
      simp only [List.length_cons, Nat.succ_mul] at h
      omega

theorem fileByteAddr_eq_pagesByteAddr (c : Config) (cls : List W32) {i : Nat} (h : i < cls.length * c.clusterSize) :
    fileByteAddr c cls i = pagesByteAddr c (filePages c cls) i := by
  have hpage : i / c.pageSize < cls.length * c.ppc := by
    apply Nat.div_lt_of_lt_mul
    rwa [Nat.mul_left_comm]
  rw [pagesByteAddr, getD_filePages c cls hpage, Nat.div_div_eq_div_mul, ← Nat.mod_mul_right_div_self]
  rfl

/-- R194, R196: the pages a chain write writes are the first of the chain, up to the one with its last byte. -/
theorem writesPage_iff (c : Config) (cls : List W32) (len p : Nat) :
    writesPage c cls len p ↔
      ∃ m, m < cls.length * c.ppc ∧ m * c.pageSize < len ∧ p = (filePages c cls).getD m 0 := by
  have hppc := c.one_le_ppc
  have start : ∀ j q, (j * c.ppc + q) * c.pageSize = j * c.clusterSize + q * c.pageSize := fun j q => by
    rw [ConfigData.clusterSize, Nat.add_mul, Nat.mul_assoc, Nat.mul_comm c.ppc]
  constructor
  · rintro ⟨j, q, hj, hq, hlen, rfl⟩
    have hm : j * c.ppc + q < cls.length * c.ppc :=
      calc j * c.ppc + q < (j + 1) * c.ppc := by rw [Nat.succ_mul]; omega
        _ ≤ cls.length * c.ppc := Nat.mul_le_mul_right _ hj
    refine ⟨j * c.ppc + q, hm, by rwa [start], ?_⟩
    rw [getD_filePages c cls hm, Nat.mul_comm j, Nat.mul_add_div hppc, Nat.div_eq_of_lt hq, Nat.mul_add_mod,
      Nat.mod_eq_of_lt hq]
    rfl
  · rintro ⟨m, hm, hlen, rfl⟩
    refine ⟨m / c.ppc, m % c.ppc, Nat.div_lt_of_lt_mul (by rwa [Nat.mul_comm]), Nat.mod_lt _ hppc, ?_,
      getD_filePages c cls hm⟩
    rwa [← start, Nat.div_add_mod']

/-! ## A chain write, page by page -/

/-- R194: what a chain write does at one page; a page that receives no byte is not written. -/
def writePart (c : Config) (img : Memory) (p : Nat) (part : List Byte) : Memory :=
  if part = [] then img else writePage c img p part

/-- R194: `data`, cut into parts of a page, down the pages `pages`. -/
def writeParts (c : Config) : Memory → List Nat → List Byte → Memory
  | img, [], _ => img
  | img, p :: pages, data => writeParts c (writePart c img p (data.take c.pageSize)) pages (data.drop c.pageSize)

theorem writePages_eq_writeParts (c : Config) (n : Nat) : ∀ (img : Memory) (p : Nat) (slice : List Byte),
    writePages c n img p slice = writeParts c img (List.range' p n) slice := by
  induction n with
  | zero => intro img p slice; rfl
  | succ n ih =>
    intro img p slice
    rw [writePages, ih]
    rfl

theorem writeParts_append (c : Config) (pages : List Nat) (pages' : List Nat) : ∀ (img : Memory) (data : List Byte),
    writeParts c img (pages ++ pages') data =
      writeParts c (writeParts c img pages (data.take (pages.length * c.pageSize))) pages'
        (data.drop (pages.length * c.pageSize)) := by
  induction pages with
  | nil => intro img data; simp [writeParts]
  | cons p pages ih =>
    intro img data
    have hsize : (p :: pages).length * c.pageSize = c.pageSize + pages.length * c.pageSize := by
      rw [List.length_cons, Nat.succ_mul, Nat.add_comm]
    rw [hsize, List.cons_append, writeParts, writeParts, ih, List.take_take, Nat.min_eq_left (Nat.le_add_right _ _),
      List.drop_take, Nat.add_sub_cancel_left, List.drop_drop]

theorem writeChain_eq_writeParts (c : Config) (cls : List W32) : ∀ (img : Memory) (data : List Byte),
    writeChain c img cls data = writeParts c img (filePages c cls) data := by
  induction cls with
  | nil => intro img data; rfl
  | cons cl cls ih =>
    intro img data
    rw [writeChain, filePages_cons, writeParts_append, List.length_range', writePages_eq_writeParts, ih,
      show c.ppc * c.pageSize = c.clusterSize from Nat.mul_comm _ _]

/-! ## One part -/

theorem readByte_writePart_other (c : Config) (img : Memory) (p a : Nat) {part : List Byte} (hl : part.length ≤ c.pageSize)
    (h : part ≠ [] → ¬ (c.pageAddr p ≤ a ∧ a < c.pageAddr p + c.rawPage)) :
    readByte (writePart c img p part) a = readByte img a := by
  unfold writePart
  split
  · rfl
  · rename_i hne
    exact readByte_writePage_other c img p a part hl (h hne)

theorem readByte_writePart_data (c : Config) (img : Memory) (p : Nat) (part : List Byte) {r : Nat} (hr : r < c.pageSize) :
    readByte (writePart c img p part) (c.pageAddr p + r) =
      if r < part.length then part.getD r 0#8 else readByte img (c.pageAddr p + r) := by
  unfold writePart
  split
  · rename_i hnil
    rw [if_neg (by simp [hnil])]
  · exact readByte_writePage_data c img p r part hr

theorem pageSize_le_rawPage (c : Config) : c.pageSize ≤ c.rawPage := Nat.le_add_right _ _

/-- A part touches no other page. -/
theorem readByte_writePart_other_page (c : Config) (img : Memory) {p q : Nat} (hpq : q ≠ p) {part : List Byte}
    (hl : part.length ≤ c.pageSize) {r : Nat} (hr : r < c.rawPage) :
    readByte (writePart c img p part) (c.pageAddr q + r) = readByte img (c.pageAddr q + r) :=
  readByte_writePart_other c img p _ hl fun _ hin => hpq (c.pages_disjoint ⟨Nat.le_add_right _ _, by omega⟩ hin)

theorem length_take_le_pageSize (c : Config) (data : List Byte) : (data.take c.pageSize).length ≤ c.pageSize :=
  List.length_take_le _ _

/-! ## The bytes of the image after a chain write -/

/-- Only the pages that receive a byte change. -/
theorem readByte_writeParts_other (c : Config) (a : Nat) (pages : List Nat) : ∀ (img : Memory) (data : List Byte),
    (∀ m, m < pages.length → m * c.pageSize < data.length →
      ¬ (c.pageAddr (pages.getD m 0) ≤ a ∧ a < c.pageAddr (pages.getD m 0) + c.rawPage)) →
    readByte (writeParts c img pages data) a = readByte img a := by
  induction pages with
  | nil => intro img data _; rfl
  | cons p pages ih =>
    intro img data h
    rw [writeParts, ih]
    · refine readByte_writePart_other c img p a (length_take_le_pageSize c data) fun hne => h 0 (Nat.succ_pos _) ?_
      rw [Nat.zero_mul]
      exact List.length_pos_iff.2 fun hnil => hne (by rw [hnil, List.take_nil])
    · intro m hm hlt
      refine h (m + 1) (Nat.succ_lt_succ hm) ?_
      rw [List.length_drop] at hlt
      rw [Nat.succ_mul]
      omega

theorem pagesByteAddr_cons_of_lt (c : Config) (p : Nat) (pages : List Nat) {i : Nat} (h : i < c.pageSize) :
    pagesByteAddr c (p :: pages) i = c.pageAddr p + i := by
  rw [pagesByteAddr, Nat.div_eq_of_lt h, Nat.mod_eq_of_lt h]
  rfl

theorem pagesByteAddr_cons_add (c : Config) (p : Nat) (pages : List Nat) (i : Nat) (h : 0 < c.pageSize) :
    pagesByteAddr c (p :: pages) (i + c.pageSize) = pagesByteAddr c pages i := by
  rw [pagesByteAddr, Nat.add_div_right _ h, Nat.add_mod_right]
  rfl

/-- A data byte of any page to whose place no byte goes keeps its value. -/
theorem readByte_writeParts_unwritten (c : Config) {q r : Nat} (hr : r < c.pageSize) (pages : List Nat) :
    ∀ (img : Memory) (data : List Byte),
      (∀ k, k < data.length → k < pages.length * c.pageSize → pagesByteAddr c pages k ≠ c.pageAddr q + r) →
      readByte (writeParts c img pages data) (c.pageAddr q + r) = readByte img (c.pageAddr q + r) := by
  have hpos : 0 < c.pageSize := Nat.zero_lt_of_lt hr
  induction pages with
  | nil => intro img data _; rfl
  | cons p pages ih =>
    intro img data h
    rw [List.length_cons, Nat.succ_mul] at h
    rw [writeParts, ih]
    · by_cases hpq : q = p
      · subst hpq
        rw [readByte_writePart_data c img q _ hr, if_neg]
        intro hlt
        rw [List.length_take] at hlt
        exact h r (by omega) (by omega) (pagesByteAddr_cons_of_lt c q pages hr)
      · exact readByte_writePart_other_page c img hpq (length_take_le_pageSize c data)
          (Nat.lt_of_lt_of_le hr (pageSize_le_rawPage c))
    · intro k hk hk' hsame
      rw [List.length_drop] at hk
      rw [← pagesByteAddr_cons_add c p pages k hpos] at hsame
      exact h (k + c.pageSize) (by omega) (by omega) hsame

/-- A place holds the last byte that goes there. -/
theorem readByte_writeParts_last (c : Config) (pages : List Nat) : ∀ (img : Memory) (data : List Byte) {i : Nat},
    i < data.length → i < pages.length * c.pageSize →
    (∀ k, i < k → k < data.length → k < pages.length * c.pageSize → pagesByteAddr c pages k ≠ pagesByteAddr c pages i) →
    readByte (writeParts c img pages data) (pagesByteAddr c pages i) = data.getD i 0#8 := by
  induction pages with
  | nil => intro img data i _ hi; simp at hi
  | cons p pages ih =>
    intro img data i hi hi' hlast
    rw [List.length_cons, Nat.succ_mul] at hi' hlast
    have hpos : 0 < c.pageSize := Nat.pos_of_lt_mul_left (b := pages.length + 1) (by rwa [Nat.succ_mul])
    rw [writeParts]
    by_cases hfirst : i < c.pageSize
    · rw [pagesByteAddr_cons_of_lt c p pages hfirst] at hlast ⊢
      rw [readByte_writeParts_unwritten c hfirst, readByte_writePart_data c img p _ hfirst, if_pos]
      · rw [List.getD_eq_getElem?_getD, List.getElem?_take_of_lt hfirst, List.getD_eq_getElem?_getD]
      · rw [List.length_take]; omega
      · intro k hk hk' hsame
        rw [List.length_drop] at hk
        rw [← pagesByteAddr_cons_add c p pages k hpos] at hsame
        exact hlast (k + c.pageSize) (by omega) (by omega) (by omega) hsame
    · obtain ⟨j, rfl⟩ := Nat.exists_eq_add_of_le' (Nat.le_of_not_lt hfirst)
      rw [pagesByteAddr_cons_add c p pages j hpos] at hlast ⊢
      rw [ih, List.getD_eq_getElem?_getD, List.getElem?_drop, Nat.add_comm, List.getD_eq_getElem?_getD]
      · rw [List.length_drop]; omega
      · omega
      · intro k hk hk' hk'' hsame
        rw [List.length_drop] at hk'
        rw [← pagesByteAddr_cons_add c p pages k hpos] at hsame
        exact hlast (k + c.pageSize) (by omega) (by omega) (by omega) hsame

/-- A chain with a data byte has pages of some size. -/
theorem pageSize_pos_of_lt {c : Config} {n i : Nat} (h : i < n * c.clusterSize) : 0 < c.pageSize :=
  Nat.pos_of_mul_pos_right (Nat.pos_of_lt_mul_left h)

section
variable (c : Config) (img : Memory) (cls : List W32) (data : List Byte)

/-- R194 to R196: only the written pages change. -/
theorem readByte_writeChain_other {a : Nat} (h : ∀ p, writesPage c cls data.length p →
    ¬ (c.pageAddr p ≤ a ∧ a < c.pageAddr p + c.rawPage)) : readByte (writeChain c img cls data) a = readByte img a := by
  rw [writeChain_eq_writeParts]
  refine readByte_writeParts_other c a _ img data fun m hm hlt => h _ ?_
  rw [length_filePages] at hm
  exact (writesPage_iff c cls _ _).2 ⟨m, hm, hlt, rfl⟩

theorem length_filePages_mul_pageSize : (filePages c cls).length * c.pageSize = cls.length * c.clusterSize := by
  rw [length_filePages, Nat.mul_assoc, Nat.mul_comm c.ppc]
  rfl

theorem readByte_writeChain_unwritten {i : Nat} (hi : i < cls.length * c.clusterSize)
    (h : ∀ k, k < data.length → fileByteAddr c cls k ≠ fileByteAddr c cls i) :
    readByte (writeChain c img cls data) (fileByteAddr c cls i) = readByte img (fileByteAddr c cls i) := by
  have hpos : 0 < c.pageSize := pageSize_pos_of_lt hi
  rw [writeChain_eq_writeParts]
  refine readByte_writeParts_unwritten c (Nat.mod_lt _ hpos) _ img data fun k hk hk' => ?_
  rw [length_filePages_mul_pageSize] at hk'
  rw [← fileByteAddr_eq_pagesByteAddr c cls hk']
  exact h k hk

theorem readByte_writeChain_last {i : Nat} (hroom : data.length ≤ cls.length * c.clusterSize) (hi : i < data.length)
    (h : ∀ k, i < k → k < data.length → fileByteAddr c cls k ≠ fileByteAddr c cls i) :
    readByte (writeChain c img cls data) (fileByteAddr c cls i) = data.getD i 0#8 := by
  have place : ∀ k, k < data.length → fileByteAddr c cls k = pagesByteAddr c (filePages c cls) k := fun k hk =>
    fileByteAddr_eq_pagesByteAddr c cls (Nat.lt_of_lt_of_le hk hroom)
  rw [writeChain_eq_writeParts, place i hi]
  refine readByte_writeParts_last c _ img data hi ?_ fun k hk hk' _ => ?_
  · rw [length_filePages_mul_pageSize]
    exact Nat.lt_of_lt_of_le hi hroom
  · rw [← place i hi, ← place k hk']
    exact h k hk hk'

end

/-! ## Clusters that share no page -/

/-- On such a card a chain of distinct clusters has distinct pages. -/
theorem nodup_filePages {c : Config} {cls : List W32} (hshare : ClustersShareNoPage c) (hnodup : cls.Nodup)
    (hcard : ∀ x ∈ cls, x.toNat < c.nClusters) : (filePages c cls).Nodup := by
  refine List.nodup_flatMap.2 ⟨fun cl _ => List.nodup_range', hnodup.imp_of_mem fun {x y} hx hy hxy p hpx hpy => hxy ?_⟩
  obtain ⟨q, hq, rfl⟩ := List.mem_range'.1 hpx
  obtain ⟨q', hq', hpage⟩ := List.mem_range'.1 hpy
  rw [Nat.one_mul, Nat.one_mul] at hpage
  exact BitVec.eq_of_toNat_eq (hshare _ _ q q' (hcard x hx) (hcard y hy) hq hq' hpage)

theorem pagesByteAddr_injective {c : Config} {pages : List Nat} (hnodup : pages.Nodup) {i k : Nat}
    (hi : i < pages.length * c.pageSize) (hk : k < pages.length * c.pageSize)
    (h : pagesByteAddr c pages i = pagesByteAddr c pages k) : i = k := by
  have hpos : 0 < c.pageSize := Nat.pos_of_lt_mul_left hi
  have hraw := pageSize_le_rawPage c
  have hir := Nat.mod_lt i hpos
  have hkr := Nat.mod_lt k hpos
  have hip : i / c.pageSize < pages.length := Nat.div_lt_of_lt_mul (by rwa [Nat.mul_comm])
  have hkp : k / c.pageSize < pages.length := Nat.div_lt_of_lt_mul (by rwa [Nat.mul_comm])
  unfold pagesByteAddr at h
  have hpage : pages.getD (i / c.pageSize) 0 = pages.getD (k / c.pageSize) 0 :=
    c.pages_disjoint (a := c.pageAddr (pages.getD (i / c.pageSize) 0) + i % c.pageSize)
      ⟨Nat.le_add_right _ _, by omega⟩ ⟨h ▸ Nat.le_add_right _ _, by omega⟩
  rw [hpage] at h
  rw [List.getD_eq_getElem _ _ hip, List.getD_eq_getElem _ _ hkp, hnodup.getElem_inj_iff] at hpage
  rw [← Nat.div_add_mod i c.pageSize, hpage, Nat.add_left_cancel h, Nat.div_add_mod]

theorem fileByteAddr_injective {c : Config} {cls : List W32} (hshare : ClustersShareNoPage c) (hnodup : cls.Nodup)
    (hcard : ∀ x ∈ cls, x.toNat < c.nClusters) {i k : Nat} (hi : i < cls.length * c.clusterSize)
    (hk : k < cls.length * c.clusterSize) (h : fileByteAddr c cls i = fileByteAddr c cls k) : i = k := by
  rw [fileByteAddr_eq_pagesByteAddr c cls hi, fileByteAddr_eq_pagesByteAddr c cls hk] at h
  rw [← length_filePages_mul_pageSize] at hi hk
  exact pagesByteAddr_injective (nodup_filePages hshare hnodup hcard) hi hk h

/-! ## The codes of a written page -/

/-- R194, R201: the spare area of page `p` is that of its data. -/
def PageCoded (c : Config) (img : Memory) (p : Nat) : Prop := pageSpare c img p = spareOf c (pageData c img p)

theorem PageCoded.pageSpare_eq {c : Config} {img : Memory} {p : Nat} (h : PageCoded c img p) :
    pageSpare c img p = spareOf c (pageData c img p) := h

theorem pageCoded_writePart_same {c : Config} (img : Memory) (p : Nat) {part : List Byte} (hs : c.hasSpare = true)
    (hne : part ≠ []) : PageCoded c (writePart c img p part) p := by
  rw [writePart, if_neg hne]
  exact pageSpare_writePage c img p part hs

/-- A part leaves a page whose codes are right with right codes. -/
theorem PageCoded.writePart {c : Config} {img : Memory} {p q : Nat} {part : List Byte} (hs : c.hasSpare = true)
    (hl : part.length ≤ c.pageSize) (h : PageCoded c img q) : PageCoded c (writePart c img p part) q := by
  by_cases hnil : part = []
  · rwa [Machine.writePart, if_pos hnil]
  · by_cases hqp : q = p
    · subst hqp
      exact pageCoded_writePart_same img q hs hnil
    · have hraw : c.rawPage = c.pageSize + c.spareSize := by rw [ConfigData.rawPage, if_pos hs]
      have hdata : pageData c (Machine.writePart c img p part) q = pageData c img q :=
        readBytes_congr fun r hr => readByte_writePart_other_page c img hqp hl (by omega)
      have hspare : pageSpare c (Machine.writePart c img p part) q = pageSpare c img q := readBytes_congr fun r hr => by
        rw [Nat.add_assoc]
        exact readByte_writePart_other_page c img hqp hl (by omega)
      rw [PageCoded, hdata, hspare, h.pageSpare_eq]

theorem PageCoded.writeParts {c : Config} {q : Nat} (hs : c.hasSpare = true) (pages : List Nat) :
    ∀ {img : Memory} {data : List Byte}, PageCoded c img q → PageCoded c (writeParts c img pages data) q := by
  induction pages with
  | nil => intro img data h; exact h
  | cons p pages ih => intro img data h; exact ih (h.writePart hs (length_take_le_pageSize c data))

/-- Every page that received a byte has right codes. -/
theorem pageCoded_writeParts {c : Config} (hs : c.hasSpare = true) (hpos : 0 < c.pageSize) (pages : List Nat) :
    ∀ {img : Memory} {data : List Byte} {m : Nat}, m < pages.length → m * c.pageSize < data.length →
      PageCoded c (writeParts c img pages data) (pages.getD m 0) := by
  induction pages with
  | nil => intro img data m hm; simp at hm
  | cons p pages ih =>
    intro img data m hm hlt
    cases m with
    | zero =>
      have hpart : data.take c.pageSize ≠ [] := by
        rw [← List.length_pos_iff, List.length_take]
        omega
      exact (pageCoded_writePart_same img p hs hpart).writeParts hs pages
    | succ m =>
      refine ih (Nat.lt_of_succ_lt_succ hm) ?_
      rw [List.length_drop]
      rw [Nat.succ_mul] at hlt
      omega

end Sys2Proof.Machine
end

section
/-! SUPPORT. `WRCHAIN` check by check (43_filesystem.md R194, R195), what the image and the pages it wrote hold afterwards (R196, R201),
and that `RDCHAIN` reads the file back (R198). -/

namespace Sys2Proof.Machine

/-- R194: the state a `WRCHAIN` down `cls` leaves. -/
def State.written (s : State) (cls : List W32) : State :=
  { s.past 2 with img := writeChain s.cfg s.img cls (readBytes s.eb 0 s.eblen.toNat), imgMode := .closed }

@[simp] theorem State.written_img (s : State) (cls : List W32) :
    (s.written cls).img = writeChain s.cfg s.img cls (readBytes s.eb 0 s.eblen.toNat) := rfl

/-! ## The checks -/

section
variable {idx : W32} {s : State}

theorem exec_wrchain_no_entry (h : s.etn.toNat ≤ idx.toNat) : exec (.wrchain idx) s = s.faulted 6 3 :=
  require_neg _ _ _ (Nat.not_lt_of_le h)

variable (hidx : idx.toNat < s.etn.toNat)
include hidx

theorem exec_wrchain_error {k : BlockFault} (h : walk s.cfg s.img (readEntry s.et idx.toNat).cluster = .error k) :
    exec (.wrchain idx) s = s.faulted k.code k.info := by
  refine (require_pos _ _ _ hidx).trans ?_
  simp only [State.openImage_cfg, State.openImage_img, h]
  rfl

variable {cls : List W32} (hwalk : walk s.cfg s.img (readEntry s.et idx.toNat).cluster = .ok cls)
include hwalk

theorem exec_wrchain_walked : exec (.wrchain idx) s =
    require (s.eblen.toNat ≤ cls.length * s.cfg.clusterSize) (.chainError 3) s (.next (s.written cls)) := by
  refine (require_pos _ _ _ hidx).trans ?_
  simp only [State.openImage_cfg, State.openImage_img, hwalk]
  rfl

theorem exec_wrchain_too_long (h : cls.length * s.cfg.clusterSize < s.eblen.toNat) :
    exec (.wrchain idx) s = s.faulted 7 3 := by
  rw [exec_wrchain_walked hidx hwalk, require_neg _ _ _ (Nat.not_le_of_lt h)]
  rfl

theorem exec_wrchain_completes (h : s.eblen.toNat ≤ cls.length * s.cfg.clusterSize) :
    exec (.wrchain idx) s = .next (s.written cls) := by
  rw [exec_wrchain_walked hidx hwalk, require_pos _ _ _ h]

end

/-- Settles O43: the checks in order, then that a chain write keeps to its pages. -/
theorem wrchainStoresInItsPages : Obligations.WrchainStoresInItsPages := fun _ s =>
  ⟨exec_wrchain_no_entry, fun hidx => ⟨fun _ => exec_wrchain_error hidx, fun cls hwalk =>
    ⟨exec_wrchain_too_long hidx hwalk, fun hroom => ⟨_, exec_wrchain_completes hidx hwalk hroom, fun a ha =>
      readByte_writeChain_other s.cfg s.img cls _ (by rwa [length_readBytes])⟩⟩⟩⟩

/-! ## The bytes of the file -/

section
variable {s : State} {cls : List W32} {i : Nat} (hroom : s.eblen.toNat ≤ cls.length * s.cfg.clusterSize)

include hroom in
theorem written_last (hi : i < s.eblen.toNat)
    (hlast : ∀ k, i < k → k < s.eblen.toNat → fileByteAddr s.cfg cls k ≠ fileByteAddr s.cfg cls i) :
    readByte (s.written cls).img (fileByteAddr s.cfg cls i) = readByte s.eb i := by
  rw [State.written_img, readByte_writeChain_last, getD_readBytes _ _ _ _ _ hi, Nat.zero_add]
  all_goals rwa [length_readBytes]

theorem written_unwritten (hi : i < cls.length * s.cfg.clusterSize)
    (hnone : ∀ k, k < s.eblen.toNat → fileByteAddr s.cfg cls k ≠ fileByteAddr s.cfg cls i) :
    readByte (s.written cls).img (fileByteAddr s.cfg cls i) = readByte s.img (fileByteAddr s.cfg cls i) :=
  readByte_writeChain_unwritten s.cfg s.img cls _ hi (by rwa [length_readBytes])

include hroom in
/-- R194, R198: where clusters share no page, no byte of `EB` goes to the place of another. -/
theorem written_fileByte (hshare : ClustersShareNoPage s.cfg) (hnodup : cls.Nodup)
    (hcard : ∀ x ∈ cls, x.toNat < s.cfg.nClusters) (hi : i < cls.length * s.cfg.clusterSize) :
    readByte (s.written cls).img (fileByteAddr s.cfg cls i) =
      if i < s.eblen.toNat then readByte s.eb i else readByte s.img (fileByteAddr s.cfg cls i) := by
  have apart : ∀ k, k < s.eblen.toNat → k ≠ i → fileByteAddr s.cfg cls k ≠ fileByteAddr s.cfg cls i := fun k hk hne hsame =>
    hne (fileByteAddr_injective hshare hnodup hcard (Nat.lt_of_lt_of_le hk hroom) hi hsame)
  by_cases hlt : i < s.eblen.toNat
  · rw [if_pos hlt]
    exact written_last hroom hlt fun k hik hk => apart k hk (Nat.ne_of_gt hik)
  · rw [if_neg hlt]
    exact written_unwritten hi fun k hk => apart k hk (by omega)

end

/-- Settles O44. -/
theorem wrchainWritesTheFile : Obligations.WrchainWritesTheFile := by
  intro idx s t cls hidx hwalk hroom hexec place
  rw [exec_wrchain_completes hidx hwalk hroom] at hexec
  obtain rfl := Host.Outcome.next.inj hexec
  obtain ⟨hchain, _⟩ := walk_ok_iff.1 hwalk
  exact ⟨fun i => written_last hroom, fun i => written_unwritten, fun hshare i =>
    written_fileByte hroom hshare hchain.nodup fun x hx => (hchain.onCard x hx).2⟩

/-! ## The codes of the pages written -/

/-- R181: the codes of a spare area, sub-chunk by sub-chunk. -/
theorem code_spareOf (c : Config) (d : List Byte) {k : Nat} (hk : k < c.nch) :
    ((spareOf c d).drop (3 * k)).take 3 = eccBytes c (subChunk d k) := by
  obtain ⟨n, hn⟩ := Nat.exists_eq_add_of_lt hk
  have hsplit : List.range c.nch = List.range k ++ k :: (List.range n).map (k + 1 + ·) := by
    rw [hn, Nat.add_right_comm, List.range_add, List.range_succ, List.append_assoc]
    rfl
  have hbefore : ((List.range k).flatMap (fun j => eccBytes c (subChunk d j))).length = 3 * k := by
    simp [List.length_flatMap, Nat.mul_comm]
  rw [spareOf, eccCodes, hsplit, List.flatMap_append, List.flatMap_cons, List.append_assoc, List.append_assoc,
    List.drop_left' hbefore, List.take_left' (length_eccBytes c _)]

theorem spareOf_zero_fill (c : Config) (d : List Byte) {k : Nat} (hk : 3 * c.nch ≤ k) : (spareOf c d).getD k 0#8 = 0#8 := by
  rw [spareOf, List.getD_append_right _ _ _ _ (by rwa [length_eccCodes]), List.getD_eq_getElem?_getD,
    List.getElem?_replicate]
  split <;> rfl

namespace PageCoded

variable {c : Config} {img : Memory} {p : Nat} (hcoded : PageCoded c img p)
include hcoded

theorem firstBadChunk_eq_none (hs : c.hasSpare = true) : firstBadChunk c img p = none := by
  refine Machine.firstBadChunk_eq_none hs fun k hk => (subChunk_code_iff c img p k hs hk).1 ?_
  rw [hcoded.pageSpare_eq, code_spareOf c _ hk]

theorem zero_fill {k : Nat} (hlow : 3 * c.nch ≤ k) (hk : k < c.spareSize) :
    readByte img (c.pageAddr p + c.pageSize + k) = 0#8 := by
  rw [← getD_readBytes img 0#8 _ c.spareSize k hk, ← pageSpare, hcoded.pageSpare_eq,
    spareOf_zero_fill c _ hlow]

end PageCoded

/-- R201: every page of a chain write that received a byte has right codes. -/
theorem pageCoded_writeChain {c : Config} {img : Memory} {cls : List W32} {data : List Byte} {p : Nat}
    (hs : c.hasSpare = true) (hroom : data.length ≤ cls.length * c.clusterSize) (hp : writesPage c cls data.length p) :
    PageCoded c (writeChain c img cls data) p := by
  obtain ⟨m, hm, hlt, rfl⟩ := (writesPage_iff c cls _ _).1 hp
  have hpos : 0 < c.pageSize := pageSize_pos_of_lt (Nat.lt_of_lt_of_le (Nat.zero_lt_of_lt hlt) hroom)
  rw [writeChain_eq_writeParts]
  exact pageCoded_writeParts hs hpos _ (by rwa [length_filePages]) hlt

theorem writesPage_lt_nPages {c : Config} {cls : List W32} {len p : Nat} (hcard : ∀ x ∈ cls, x.toNat < c.nClusters)
    (hp : writesPage c cls len p) : p < c.nPages := by
  obtain ⟨j, q, hj, hq, _, rfl⟩ := hp
  have hfits := c.cluster_fits (hcard _ (List.getElem_mem hj))
  rw [List.getD_eq_getElem _ _ hj]
  omega

/-- Settles O45. -/
theorem writtenPagesPassEccchk : Obligations.WrittenPagesPassEccchk := by
  intro idx p s t cls hs hidx hwalk hroom hexec hp
  rw [exec_wrchain_completes hidx hwalk hroom] at hexec
  obtain rfl := Host.Outcome.next.inj hexec
  obtain ⟨hchain, _⟩ := walk_ok_iff.1 hwalk
  have hpage : p.toNat < s.cfg.nPages := writesPage_lt_nPages (fun x hx => (hchain.onCard x hx).2) hp
  have hcoded : PageCoded s.cfg (s.written cls).img p.toNat :=
    pageCoded_writeChain hs (by rwa [length_readBytes]) (by rwa [length_readBytes])
  exact ⟨exec_eccchk_completes ⟨hs, hpage⟩ (hcoded.firstBadChunk_eq_none hs), fun k => hcoded.zero_fill⟩

/-! ## Writing, then reading -/

/-- Settles O46: the FAT's values give the same chain again, and each byte of the file stands at its place. -/
theorem writeThenReadFile : Obligations.WriteThenReadFile := by
  intro idx s t hshare hrun inv hlength hexec ht hfat
  obtain ⟨hidx, cls, hwalk, hroom, rfl⟩ := completed_of_not_fault hexec (by simp [ht])
  obtain ⟨hchain, hcount⟩ := walk_ok_iff.1 hwalk
  have hcap : (readEntry s.et idx.toNat).length.toNat ≤ s.cfg.ebCap := hlength ▸ inv.eblen_le
  obtain ⟨eb, hread, hfile, habove⟩ := exec_rdchain_delivers (s := s.written cls) hidx hcap
    (walk_ok_iff.2 ⟨hchain.of_fat_eq hfat, hcount⟩) (hlength ▸ hroom)
  refine ⟨_, hread, hrun, hlength, fun a => ?_⟩
  change ∀ i, i < (readEntry s.et idx.toNat).length.toNat → readByte eb i = _ at hfile
  change ∀ a, (readEntry s.et idx.toNat).length.toNat ≤ a → readByte eb a = readByte s.eb a at habove
  rw [hlength] at hfile habove
  by_cases ha : a < s.eblen.toNat
  · have hplace := written_fileByte hroom hshare hchain.nodup (fun x hx => (hchain.onCard x hx).2)
      (Nat.lt_of_lt_of_le ha hroom)
    rw [if_pos ha] at hplace
    exact (hfile a ha).trans hplace
  · exact habove a (Nat.le_of_not_lt ha)

end Sys2Proof.Machine
end

section
/-! SUPPORT. The container unit (44_container.md): what it is for a buffer to hold a container (20_memory.md R70), that `SPLIT` and
`JOIN` are its two directions (R222, R224, R225), the cursor `DSTART` computes (R226), and the pipeline that changes nothing (R230). -/

namespace Sys2Proof.Machine

/-! ## Copies and words -/

section
variable (m src : Memory) {a b n c k : Nat}

theorem readByte_copy (hk : k < n) : readByte (writeBytes m a (readBytes src b n)) (a + k) = readByte src (b + k) := by
  rw [readByte_writeBytes, if_pos (by simp only [length_readBytes]; omega), Nat.add_sub_cancel_left, getD_readBytes _ _ _ _ _ hk]

theorem readByte_copy_other (hc : c < a ∨ a + n ≤ c) : readByte (writeBytes m a (readBytes src b n)) c = readByte m c := by
  rw [readByte_writeBytes, if_neg (by simp only [length_readBytes]; omega)]

end

theorem eq_ofNat_of_toNat_eq {w : W32} {n : Nat} (h : w.toNat = n) : w = BitVec.ofNat 32 n := by
  rw [← h, BitVec.ofNat_toNat, BitVec.setWidth_eq]

theorem le32_eq_of_le64 {m m' : Memory} {a : Nat} (h : le64 m a = le64 m' a) :
    le32 m a = le32 m' a ∧ le32 m (a + 4) = le32 m' (a + 4) := by
  have hlow := congrArg (BitVec.extractLsb' 0 32) h
  have hhigh := congrArg (BitVec.extractLsb' 32 32) h
  rw [le64, le64, extract_append_lo, extract_append_lo] at hlow
  rw [le64, le64, extract_append_hi, extract_append_hi] at hhigh
  exact ⟨hlow, hhigh⟩

/-- Memories that agree on a 64-bit word agree on each of its bytes. -/
theorem readByte_eq_of_le64 {m m' : Memory} {a i : Nat} (h : le64 m a = le64 m' a) (hi : i < 8) :
    readByte m (a + i) = readByte m' (a + i) := by
  obtain ⟨hlow, hhigh⟩ := le32_eq_of_le64 h
  by_cases hi4 : i < 4
  · exact readByte_eq_of_le32 hlow hi4
  · have := readByte_eq_of_le32 hhigh (i := i - 4) (by omega)
    rwa [show a + 4 + (i - 4) = a + i by omega] at this

/-! ## The container -/

/-- R70: `eb` holds the container with halves of `h` bytes taken from `ct` and the checksum `ck`. -/
structure HoldsContainer (eb ct : Memory) (h : Nat) (ck : W64) : Prop where
  header : le32 eb 0 = BitVec.ofNat 32 (2 * h)
  checksum : le64 eb (4 + h) = ck
  firstHalf : ∀ k, k < h → readByte eb (4 + k) = readByte ct k
  secondHalf : ∀ k, k < h → readByte eb (12 + h + k) = readByte ct (h + k)

namespace HoldsContainer
variable {eb eb' ct ct' : Memory} {h : Nat} {ck : W64}

/-- The four parts cover the container: nothing else of the buffer's first bytes is left open. -/
theorem unique (hold : HoldsContainer eb ct h ck) (hold' : HoldsContainer eb' ct h ck) {a : Nat} (ha : a < 12 + 2 * h) :
    readByte eb a = readByte eb' a := by
  by_cases hheader : a < 4
  · have := readByte_eq_of_le32 (hold.header.trans hold'.header.symm) hheader
    rwa [Nat.zero_add] at this
  by_cases hfirst : a < 4 + h
  · obtain ⟨k, rfl⟩ := Nat.exists_eq_add_of_le (Nat.le_of_not_lt hheader)
    have hk : k < h := Nat.lt_of_add_lt_add_left hfirst
    rw [hold.firstHalf k hk, hold'.firstHalf k hk]
  by_cases hchecksum : a < 12 + h
  · obtain ⟨k, rfl⟩ := Nat.exists_eq_add_of_le (Nat.le_of_not_lt hfirst)
    exact readByte_eq_of_le64 (hold.checksum.trans hold'.checksum.symm) (by omega)
  · obtain ⟨k, rfl⟩ := Nat.exists_eq_add_of_le (Nat.le_of_not_lt hchecksum)
    have hk : k < h := by omega
    rw [hold.secondHalf k hk, hold'.secondHalf k hk]

theorem of_same_ciphertext (hold : HoldsContainer eb ct h ck) (hct : ∀ a, readByte ct' a = readByte ct a) :
    HoldsContainer eb ct' h ck :=
  { hold with
    firstHalf := fun k hk => (hold.firstHalf k hk).trans (hct k).symm
    secondHalf := fun k hk => (hold.secondHalf k hk).trans (hct (h + k)).symm }

end HoldsContainer

theorem holdsContainer_joinInto (s : State) (eb : Memory) :
    HoldsContainer (joinInto s eb) s.ct s.cfg.halfLen s.cstored := by
  unfold joinInto ConfigData.offA ConfigData.offCk ConfigData.offB
  refine ⟨?_, ?_, fun k hk => ?_, fun k hk => readByte_copy _ _ hk⟩
  · refine (le32_congr fun i hi => ?_).trans (le32_putLe32 eb 0 _)
    rw [readByte_copy_other _ _ (by omega), readByte_putLe64_other _ _ _ _ (by omega), readByte_copy_other _ _ (by omega)]
  · exact (le64_congr fun i hi => readByte_copy_other _ _ (by omega)).trans (le64_putLe64 _ _ _)
  · rw [readByte_copy_other _ _ (by omega), readByte_putLe64_other _ _ _ _ (by omega), readByte_copy _ _ hk, Nat.zero_add]

theorem readByte_joinInto_above (s : State) (eb : Memory) {a : Nat} (ha : 12 + 2 * s.cfg.halfLen ≤ a) :
    readByte (joinInto s eb) a = readByte eb a := by
  unfold joinInto ConfigData.offA ConfigData.offCk ConfigData.offB
  rw [readByte_copy_other _ _ (by omega), readByte_putLe64_other _ _ _ _ (by omega), readByte_copy_other _ _ (by omega),
    readByte_putLe32_other _ _ _ _ (by omega)]

/-! ## The descriptors, check by check -/

/-- The state a completed `SPLIT` leaves (R222). -/
def State.separated (s : State) : State :=
  { s.past 1 with
    hdr := le32 s.eb 0
    ct := writeBytes (writeBytes s.ct 0 (readBytes s.eb 4 s.cfg.halfLen)) s.cfg.halfLen
      (readBytes s.eb (12 + s.cfg.halfLen) s.cfg.halfLen)
    cstored := le64 s.eb (4 + s.cfg.halfLen)
    ctlen := BitVec.ofNat 32 (2 * s.cfg.halfLen) }

/-- The state a completed `JOIN` leaves (R224). -/
def State.joined (s : State) : State :=
  { s.past 1 with eb := joinInto s s.eb, eblen := BitVec.ofNat 32 (12 + 2 * s.cfg.halfLen) }

@[simp] theorem State.separated_cfg (s : State) : s.separated.cfg = s.cfg := rfl
@[simp] theorem State.separated_state (s : State) : s.separated.state = s.state := rfl
@[simp] theorem State.separated_eb (s : State) : s.separated.eb = s.eb := rfl
@[simp] theorem State.joined_state (s : State) : s.joined.state = s.state := rfl
@[simp] theorem State.joined_eblen (s : State) : s.joined.eblen = BitVec.ofNat 32 (12 + 2 * s.cfg.halfLen) := rfl

theorem exec_split (s : State) : exec .split s =
    (require (s.eblen.toNat = 12 + 2 * s.cfg.halfLen) (.formatMismatch 4) s <|
    require ((le32 s.eb 0).toNat = 2 * s.cfg.halfLen) (.formatMismatch 1) s <|
    .next s.separated) := rfl

theorem exec_join (s : State) : exec .join s =
    (require (s.ctlen.toNat = 2 * s.cfg.halfLen) (.badOperand 4) s <| .next s.joined) := rfl

theorem exec_dstart (s : State) : exec .dstart s =
    (require (4 ≤ s.dblen.toNat) (.truncated 0) s <|
    require ((dataStart s.db).toNat ≤ s.dblen.toNat) (.truncated (dataStart s.db)) s <|
    .next { s.past 1 with dstart := dataStart s.db, bo := BitVec.ofNat 32 (8 * (dataStart s.db).toNat) }) := rfl

section
variable {s : State}

theorem exec_split_completes (hlen : s.eblen.toNat = 12 + 2 * s.cfg.halfLen) (hhdr : (le32 s.eb 0).toNat = 2 * s.cfg.halfLen) :
    exec .split s = .next s.separated := by
  rw [exec_split, require_pos _ _ _ hlen, require_pos _ _ _ hhdr]

theorem separated_of_exec_split {u : State} (h : exec .split s = .next u) (hu : u.state = .run) :
    s.eblen.toNat = 12 + 2 * s.cfg.halfLen ∧ (le32 s.eb 0).toNat = 2 * s.cfg.halfLen ∧ u = s.separated :=
  completed_of_not_fault h (by simp [hu])

theorem exec_join_completes (hlen : s.ctlen.toNat = 2 * s.cfg.halfLen) : exec .join s = .next s.joined := by
  rw [exec_join, require_pos _ _ _ hlen]

theorem readByte_separated_first {k : Nat} (hk : k < s.cfg.halfLen) :
    readByte s.separated.ct k = readByte s.eb (4 + k) := by
  have := readByte_copy s.ct s.eb (a := 0) (b := 4) hk
  rw [Nat.zero_add] at this
  exact (readByte_copy_other _ _ (.inl hk)).trans this

theorem readByte_separated_second {k : Nat} (hk : k < s.cfg.halfLen) :
    readByte s.separated.ct (s.cfg.halfLen + k) = readByte s.eb (12 + s.cfg.halfLen + k) :=
  readByte_copy _ _ hk

theorem readByte_separated_above {a : Nat} (ha : 2 * s.cfg.halfLen ≤ a) :
    readByte s.separated.ct a = readByte s.ct a :=
  (readByte_copy_other _ _ (by omega)).trans (readByte_copy_other _ _ (by omega))

end

/-- Settles O49: its two checks, then the copies byte by byte. -/
theorem splitResult : Obligations.SplitResult := by
  intro s
  refine ⟨fun hlen => ?_, fun hlen hhdr => ?_, fun hlen hhdr => ?_⟩
  · rw [exec_split, require_neg _ _ _ hlen]
    rfl
  · rw [exec_split, require_pos _ _ _ hlen, require_neg _ _ _ hhdr]
    rfl
  · exact ⟨_, exec_split_completes hlen hhdr, fun _ => readByte_separated_first, fun _ => readByte_separated_second,
      fun _ => readByte_separated_above⟩

/-- Settles O50: its check, then the parts of the container it puts together. -/
theorem joinResult : Obligations.JoinResult := by
  intro s
  refine ⟨fun hlen => ?_, fun hlen => ?_⟩
  · rw [exec_join, require_neg _ _ _ hlen]
    rfl
  · obtain ⟨hheader, hchecksum, hfirst, hsecond⟩ := holdsContainer_joinInto s s.eb
    exact ⟨_, exec_join_completes hlen, hheader, hchecksum, hfirst, hsecond, fun _ => readByte_joinInto_above s s.eb⟩

/-- Settles O51: its two checks in order. -/
theorem dstartResult : Obligations.DstartResult := fun s =>
  ⟨fun hshort => (exec_dstart s).trans (require_neg _ _ _ (Nat.not_le_of_lt hshort)),
    fun hroom hpast =>
      (exec_dstart s).trans ((require_pos _ _ _ hroom).trans (require_neg _ _ _ (Nat.not_le_of_lt hpast))),
    fun hroom hinside => (exec_dstart s).trans ((require_pos _ _ _ hroom).trans (require_pos _ _ _ hinside))⟩

/-! ## There and back -/

/-- `JOIN` over the container it puts together changes no byte. -/
theorem readByte_joined_of_holds {s : State} (hold : HoldsContainer s.eb s.ct s.cfg.halfLen s.cstored) (a : Nat) :
    readByte s.joined.eb a = readByte s.eb a := by
  by_cases ha : a < 12 + 2 * s.cfg.halfLen
  · exact (holdsContainer_joinInto s s.eb).unique hold ha
  · exact readByte_joinInto_above s s.eb (Nat.le_of_not_lt ha)

/-- What `SPLIT` took out is what `EB` holds. -/
theorem holdsContainer_separated {s : State} (hhdr : (le32 s.eb 0).toNat = 2 * s.cfg.halfLen) :
    HoldsContainer s.eb s.separated.ct s.cfg.halfLen s.separated.cstored :=
  ⟨eq_ofNat_of_toNat_eq hhdr, rfl, fun _ hk => (readByte_separated_first hk).symm,
    fun _ hk => (readByte_separated_second hk).symm⟩

theorem toNat_ctlen_separated {s : State} (hhdr : (le32 s.eb 0).toNat = 2 * s.cfg.halfLen) :
    s.separated.ctlen.toNat = 2 * s.cfg.halfLen :=
  (congrArg BitVec.toNat (eq_ofNat_of_toNat_eq hhdr)).symm.trans hhdr

/-- Settles O52: `JOIN` puts together what `SPLIT` took apart, over the container itself. -/
theorem joinAfterSplit : Obligations.JoinAfterSplit := by
  intro s hrun hlen hhdr
  have hexec : execAll [.split, .join] s = .next s.separated.joined := by
    rw [execAll_cons_of_run (exec_split_completes hlen hhdr) hrun]
    exact execAll_cons_of_run (exec_join_completes (s := s.separated) (toNat_ctlen_separated hhdr)) hrun
  exact ⟨_, hexec, hrun, (eq_ofNat_of_toNat_eq hlen).symm,
    readByte_joined_of_holds (s := s.separated) (holdsContainer_separated hhdr)⟩

/-! ## The pipeline -/

/-- `DEC; ENC` leaves every byte of `CT` (R150 (b)). -/
theorem readByte_decrypted_encrypted (s : State) (a : Nat) : readByte s.decrypted.encrypted.ct a = readByte s.ct a :=
  readByte_mapBlocks_mapBlocks (encBlock_decBlock s.cfg) s.ct s.db (s.ctlen.toNat / 8) a

theorem checksum_decrypted_encrypted (s : State) : s.decrypted.encrypted.checksum = s.checksum :=
  congrArg (crc16 s.cfg) (readBytes_congr fun i _ => readByte_decrypted_encrypted s (0 + i))

/-- The state `CKVFY; DEC; ENC; CKGEN` leaves, each completing. -/
def State.recoded (s : State) : State := s.verified.decrypted.encrypted.generated

@[simp] theorem State.recoded_frame (s : State) :
    s.recoded.cfg = s.cfg ∧ s.recoded.state = s.state ∧ s.recoded.eb = s.eb ∧ s.recoded.ctlen = s.ctlen := by
  simp only [State.recoded, State.generated, State.encrypted, State.decrypted, State.verified, and_self]

section
variable {s : State}

/-- `CKGEN` stores the checksum that `CKVFY` compared, because `DEC; ENC` between them leaves the ciphertext. -/
theorem cstored_recoded (hstored : xfCk s.cfg s.checksum = s.cstored) : s.recoded.cstored = s.cstored :=
  (congrArg (xfCk s.cfg) (checksum_decrypted_encrypted s.verified)).trans hstored

theorem HoldsContainer.recoded (hstored : xfCk s.cfg s.checksum = s.cstored)
    (hold : HoldsContainer s.eb s.ct s.cfg.halfLen s.cstored) :
    HoldsContainer s.recoded.eb s.recoded.ct s.recoded.cfg.halfLen s.recoded.cstored := by
  obtain ⟨hcfg, _, heb, _⟩ := s.recoded_frame
  rw [cstored_recoded hstored, hcfg, heb]
  exact hold.of_same_ciphertext (readByte_decrypted_encrypted s.verified)

/-- A whole payload in `CT` passes the checks of `DEC`, `ENC` and `JOIN` (R7, R9). -/
theorem execAll_after_split (hrun : s.state = .run) (hstored : xfCk s.cfg s.checksum = s.cstored)
    (hlen : s.ctlen.toNat = 2 * s.cfg.halfLen) :
    execAll [.ckvfy, .dec, .enc, .ckgen, .join] s = .next s.recoded.joined := by
  have hblocks : s.ctlen.toNat % 8 = 0 := by have := s.cfg.halfLen_mod; omega
  have hdb : s.ctlen.toNat ≤ s.cfg.dbCap := hlen ▸ s.cfg.plen_le_dbCap
  have hct : s.ctlen.toNat ≤ s.cfg.ctCap := hlen ▸ s.cfg.plen_le_ctCap
  rw [execAll_cons_of_run (exec_ckvfy_completes hstored) hrun,
    execAll_cons_of_run (exec_dec_completes (s := s.verified) hblocks hdb) hrun,
    execAll_cons_of_run (exec_enc_completes (s := s.verified.decrypted) hblocks hct) hrun,
    execAll_cons_of_run (exec_ckgen s.verified.decrypted.encrypted) hrun]
  exact execAll_cons_of_run (exec_join_completes (s := s.recoded) (by simpa using hlen)) (by simpa using hrun)

end

/-- Settles O53: the ciphertext and the checksum that `JOIN` writes back are those `SPLIT` took out. -/
theorem pipelineIdentity : Obligations.PipelineIdentity := by
  intro s t hrun hexec ht
  obtain ⟨u, hsplit, hu, hexec⟩ := execAll_cons_run hexec ht
  obtain ⟨v, hvfy, hv, _⟩ := execAll_cons_run hexec ht
  obtain ⟨hlen, hhdr, rfl⟩ := separated_of_exec_split hsplit hu
  have hstored := (ckvfy_passes_iff hu).1 ⟨v, hvfy, hv⟩
  have hpipeline : execAll [.split, .ckvfy, .dec, .enc, .ckgen, .join] s = .next s.separated.recoded.joined :=
    (execAll_cons_of_run hsplit hu).trans (execAll_after_split hu hstored (toNat_ctlen_separated hhdr))
  refine ⟨_, hpipeline, by simpa using hrun, ?_, fun a => ?_⟩
  · simpa using (eq_ofNat_of_toNat_eq hlen).symm
  · simpa using readByte_joined_of_holds ((holdsContainer_separated hhdr).recoded hstored) a

end Sys2Proof.Machine
end

section
/-! SUPPORT. The sequencer (45_sequencer.md R240 to R246): every step answers a next state, a run is left by an `END` or a fault, and
every run ends. -/

namespace Sys2Proof.Machine

/-! ## Every instruction answers a next state -/

/-- The block is not stuck (R246): the model answers a next state. -/
def Answers (r : Result) : Prop := ∃ t, r = .next t

theorem answers_next (t : State) : Answers (.next t) := ⟨t, rfl⟩

theorem answers_raise (k : BlockFault) (s : State) : Answers (raise k s) := answers_next _

theorem answers_complete (i : Instr) (s : State) : Answers (complete i s) := answers_next _

/-- A check that fails raises, so a check is answered if what follows it is. -/
theorem answers_require {c : Prop} [Decidable c] {k : BlockFault} {s : State} {r : Result} (h : Answers r) :
    Answers (require c k s r) := by
  by_cases hc : c
  · rwa [require_pos _ _ _ hc]
  · rw [require_neg _ _ _ hc]
    exact answers_next _

/-- An instruction is a run of checks and matches that end in a raise or in a completion. -/
theorem exec_answers (i : Instr) (s : State) : Answers (exec i s) := by
  cases i with
  | endRun => exact answers_next _
  | skip | align | seek | encw | decw | crcinit | crcfin | ckxf | ckgen => exact answers_complete _ _
  | crcupd | ckvfy | fatget | eccgen | join => exact answers_require (answers_complete _ _)
  | rd | unpacks | enc | dec | split | dstart => exact answers_require (answers_require (answers_complete _ _))
  | unpack | padchk => exact answers_require (answers_require (answers_require (answers_complete _ _)))
  | patch idx =>
    change Answers (execPatch idx s)
    unfold execPatch
    split
    · exact answers_raise _ _
    · exact answers_require (answers_require (answers_complete _ _))
    · exact answers_require (answers_complete _ _)
  | rdchain idx =>
    refine answers_require (answers_require ?_)
    dsimp only
    split
    · exact answers_raise _ _
    · exact answers_complete _ _
  | wrchain idx =>
    refine answers_require ?_
    split
    · exact answers_raise _ _
    · exact answers_require (answers_complete _ _)
  | eccchk p =>
    refine answers_require ?_
    split
    · exact answers_raise _ _
    · exact answers_complete _ _
  | lsroot =>
    change Answers (execLsroot s)
    unfold execLsroot
    dsimp only
    split
    · exact answers_raise _ _
    · exact answers_require (answers_complete _ _)
  | lookup a n =>
    refine answers_require ?_
    split
    · exact answers_raise _ _
    · split
      · exact answers_raise _ _
      · split
        · exact answers_raise _ _
        · exact answers_require (answers_complete _ _)

/-! ## One step -/

/-- Outside `RUN` the block waits (log 6). -/
theorem step_of_not_run {s : State} (hs : s.state ≠ .run) : step s = .next s := by
  cases hstate : s.state with
  | run => exact absurd hstate hs
  | _ => simp only [step, hstate]

/-- Settles O5: the two branches of the step. -/
theorem stepRunsDecoded : Obligations.StepRunsDecoded :=
  ⟨fun _ _ _ hs hdec => step_of_decode_ok hs hdec, fun _ hs => step_of_not_run hs⟩

/-- Settles O6: the block waits, raises a decode fault, or runs the decoded instruction. -/
theorem everyStepAnswersNext : Obligations.EveryStepAnswersNext := by
  intro s
  by_cases hs : s.state = .run
  · cases hdec : decode (fetchWords s) with
    | error e => exact ⟨_, step_of_decode_error hs hdec⟩
    | ok r => exact step_of_decode_ok hs hdec ▸ exec_answers r.1 s
  · exact ⟨s, step_of_not_run hs⟩

/-- An `END` read at `dp` is a zero word of `DM` (R95, R243). -/
theorem readWord_of_decode_endRun {s : State} {rest : List W32} (h : decode (fetchWords s) = .ok (.endRun, rest)) :
    s.dp.toNat < s.cfg.dmWords ∧ readWord s.dm s.dp.toNat = 0#32 := by
  obtain ⟨_, hroom⟩ := size_of_decode_fetchWords h
  obtain ⟨_, _, hwords⟩ := dmHolds_of_decode h
  exact ⟨hroom, hwords 0 Nat.zero_lt_one⟩

/-- Settles O9: a fault ends in `FAULT`, a completion but `END`'s leaves `state`, and `END` was read from a zero word. -/
theorem runLeavesByEndOrFault : Obligations.RunLeavesByEndOrFault := by
  intro s t hs h
  obtain ⟨hidle, _⟩ | ⟨_, e, _, rfl⟩ | ⟨_, i, rest, hdec, hexec⟩ := step_cases s t h
  · exact absurd hs hidle
  · exact .inr (.inl rfl)
  · obtain ⟨k, rfl⟩ | hdone := exec_cases i s t hexec
    · exact .inr (.inl rfl)
    · by_cases hend : i = .endRun
      · subst hend
        obtain ⟨hdp, hzero⟩ := readWord_of_decode_endRun hdec
        exact .inr (.inr ⟨hdp, hzero, hdone⟩)
      · obtain ⟨hstate, _⟩ := hdone.frame hend
        exact .inl (hstate.trans hs)

/-! ## The whole run -/

/-- The head word is part of every descriptor (R93). -/
theorem sizeByFormat_pos (head : W32) : 0 < sizeByFormat head := by
  unfold sizeByFormat
  dsimp only
  split_ifs <;> omega

/-- A step that stays in `RUN` leaves fewer words of `DM` at and after `dp` (R246). -/
theorem step_remaining_lt {s t : State} (hs : s.state = .run) (h : step s = .next t) (ht : t.state = .run) :
    t.cfg.dmWords - t.dp.toNat < s.cfg.dmWords - s.dp.toNat := by
  obtain ⟨hdp, hroom⟩ := pointerMovesForward s t hs h ht
  obtain ⟨_, _, hcfg⟩ := programIsNotWritten s t h
  have hpos := sizeByFormat_pos (readWord s.dm s.dp.toNat)
  rw [hcfg]
  omega

theorem run_succ_of_step {s t : State} (h : step s = .next t) (k : Nat) :
    Host.Core.run Sys2Proof.core (k + 1) s = Host.Core.run Sys2Proof.core k t := by
  have hstep : Sys2Proof.core.step s = .next t := h
  simp only [Host.Core.run, hstep]

/-- With fewer than `n` words of `DM` left at and after `dp`, a run ends within `n` steps: a step ends it, or leaves fewer words. -/
theorem run_ends_within (n : Nat) : ∀ s : State, s.state = .run → s.cfg.dmWords - s.dp.toNat < n →
    ∃ k t, k ≤ n ∧ Host.Core.run Sys2Proof.core k s = .next t ∧ (t.state = .done ∨ t.state = .fault) := by
  induction n with
  | zero => exact fun _ _ hn => absurd hn (Nat.not_lt_zero _)
  | succ n ih =>
    intro s hs hn
    obtain ⟨t, hstep⟩ := everyStepAnswersNext s
    have hends (ht : t.state = .done ∨ t.state = .fault) : ∃ k t, k ≤ n + 1 ∧ Host.Core.run Sys2Proof.core k s = .next t ∧
        (t.state = .done ∨ t.state = .fault) := ⟨1, t, Nat.le_add_left 1 n, run_succ_of_step hstep 0, ht⟩
    obtain ht | ht | ⟨_, _, rfl⟩ := runLeavesByEndOrFault s t hs hstep
    · obtain ⟨k, u, hk, hrun, hu⟩ := ih t ht (Nat.lt_of_lt_of_le (step_remaining_lt hs hstep ht) (Nat.le_of_lt_succ hn))
      exact ⟨k + 1, u, Nat.succ_le_succ hk, (run_succ_of_step hstep k).trans hrun, hu⟩
    · exact hends (.inr ht)
    · exact hends (.inl rfl)

/-- Settles O7: every step that stays in `RUN` uses up words of `DM`, and one step past the last of them faults. -/
theorem everyRunEnds : Obligations.EveryRunEnds := fun s hs => run_ends_within _ s hs (Nat.lt_succ_self _)

end Sys2Proof.Machine
end

section
/-! SUPPORT. The host's START (45_sequencer.md R244), the discarding of every outside access in a run (R245), and the memory port
outside one (R248). -/

namespace Sys2Proof.Machine

/-! ## START, and accesses in a run -/

/-- Settles O54: START is the write of register 0, which holds nothing. -/
theorem endAndStart : Obligations.EndAndStart :=
  fun _ => ⟨rfl, fun _ => ⟨fun hidle => unlessRunning_idle hidle, fun hrun => unlessRunning_run hrun, ite_self _⟩⟩

/-- In a run only the register `state` shows (R245). -/
theorem hostRead_run {s : State} (hs : s.state = .run) (n : Nat) : hostRead s n = if n = 1 then 1#32 else 0#32 := by
  by_cases hn : n = 1
  · subst hn
    simp [hostRead, registerValue, hs, RunState.code]
  · rw [hostRead, if_pos ⟨hs, hn⟩, if_neg hn]

/-- Settles O55: a write keeps the state it finds in a run, and a read is made outside a run only. -/
theorem hostIsShutOutOfARun : Obligations.HostIsShutOutOfARun := by
  intro s hs
  have hbusy {p : Prop} : ¬ (s.state ≠ .run ∧ p) := fun h => h.1 hs
  refine ⟨fun n v => ?_, fun sp a b => ?_, fun i w => ?_, fun i v => ?_, fun i j b => ?_, fun i w => ?_, fun a b => ?_,
    fun m => ?_, hostRead_run hs 1, fun n hn => ?register, fun sp a => if_neg hbusy, fun i => if_neg hbusy,
    fun i => if_neg (not_not_intro hs), fun i => if_neg hbusy⟩
  case register => rw [hostRead_run hs, if_neg hn]
  all_goals exact unlessRunning_run hs

/-! ## The byte spaces -/

section
variable (s : State) (sp sp' : ByteSpace) (m : Memory)

@[simp] theorem ByteSpace.put_cfg : (sp.put s m).cfg = s.cfg := by cases sp <;> rfl

@[simp] theorem ByteSpace.put_state : (sp.put s m).state = s.state := by cases sp <;> rfl

/-- Other contents of a space change nothing but the spaces. -/
theorem ByteSpace.put_frame : sp.put s m =
    { s with cb := (sp.put s m).cb, eb := (sp.put s m).eb, ct := (sp.put s m).ct, db := (sp.put s m).db } := by
  cases sp <;> rfl

/-- The spaces are apart: other contents of one show in that one only. -/
theorem ByteSpace.mem_put : sp'.mem (sp.put s m) = if sp' = sp then m else sp'.mem s := by
  cases sp <;> cases sp' <;> rfl

end

section
variable {s : State} (hs : s.state ≠ .run) {sp : ByteSpace} {a : Nat} (b : Byte)
include hs

theorem hostWriteByte_eq (ha : a < sp.cap s.cfg) : hostWriteByte s sp a b = sp.put s (writeByte (sp.mem s) a b) := by
  rw [hostWriteByte, unlessRunning_idle hs, if_pos ha]

theorem hostReadByte_hostWriteByte (ha : a < sp.cap s.cfg) (sp' : ByteSpace) (a' : Nat) :
    hostReadByte (hostWriteByte s sp a b) sp' a' = if sp' = sp ∧ a' = a then b else hostReadByte s sp' a' := by
  rw [hostWriteByte_eq hs b ha, hostReadByte, hostReadByte, ByteSpace.put_state, ByteSpace.put_cfg, ByteSpace.mem_put]
  by_cases hsp : sp' = sp
  · subst hsp
    by_cases ha' : a' = a
    · subst ha'
      simp [hs, ha, readByte_writeByte]
    · simp [ha', readByte_writeByte]
  · simp [hsp]

end

theorem hostWriteByte_discarded {s : State} {sp : ByteSpace} {a : Nat} (b : Byte) (ha : sp.cap s.cfg ≤ a) :
    hostWriteByte s sp a b = s := by
  rw [hostWriteByte, if_neg (Nat.not_lt_of_le ha)]
  exact ite_self s

theorem hostReadByte_out_of_bounds {s : State} {sp : ByteSpace} {a : Nat} (ha : sp.cap s.cfg ≤ a) : hostReadByte s sp a = 0#8 :=
  if_neg fun h => Nat.not_lt_of_le ha h.2

/-! ## `DM` -/

theorem readWord_writeWord (m : Store W32) (i j : Nat) (w : W32) :
    readWord (writeWord m i w) j = if j = i then w else readWord m j := Store.read_write _ _ _ _ _

section
variable {s : State} (hs : s.state ≠ .run) {i : Nat} (w : W32)
include hs

theorem hostWriteDm_eq (hi : i < s.cfg.dmWords) : hostWriteDm s i w = { s with dm := writeWord s.dm i w } := by
  rw [hostWriteDm, unlessRunning_idle hs, if_pos hi]

theorem hostReadDm_hostWriteDm (hi : i < s.cfg.dmWords) (j : Nat) :
    hostReadDm (hostWriteDm s i w) j = if j = i then w else hostReadDm s j := by
  rw [hostWriteDm_eq hs w hi]
  by_cases hj : j = i
  · subst hj
    simp [hostReadDm, hs, hi, readWord_writeWord]
  · simp [hostReadDm, hj, readWord_writeWord]

end

theorem hostWriteDm_discarded {s : State} {i : Nat} (w : W32) (hi : s.cfg.dmWords ≤ i) : hostWriteDm s i w = s := by
  rw [hostWriteDm, if_neg (Nat.not_lt_of_le hi)]
  exact ite_self s

theorem hostReadDm_out_of_bounds {s : State} {i : Nat} (hi : s.cfg.dmWords ≤ i) : hostReadDm s i = 0#32 :=
  if_neg fun h => Nat.not_lt_of_le hi h.2

/-! ## `FT` -/

theorem hostReadFt_idle {s : State} (hs : s.state ≠ .run) (i : Nat) : hostReadFt s i = s.ft[i]? := if_pos hs

theorem getElem?_modify_of_some {ft : List FtRecord} {i : Nat} {f : FtRecord} (hf : ft[i]? = some f) (edit : FtRecord → FtRecord)
    (k : Nat) : (ft.modify i edit)[k]? = if k = i then some (edit f) else ft[k]? := by
  by_cases hk : k = i
  · subst hk
    rw [List.getElem?_modify_eq, hf, if_pos rfl]
    rfl
  · rw [List.getElem?_modify_ne _ _ (Ne.symm hk), if_neg hk]

/-- An edit that leaves the record it is made to leaves the table. -/
theorem modify_eq_self_of_some {ft : List FtRecord} {i : Nat} {f : FtRecord} (hf : ft[i]? = some f)
    {edit : FtRecord → FtRecord} (hedit : edit f = f) : ft.modify i edit = ft := by
  apply List.ext_getElem?
  intro k
  rw [getElem?_modify_of_some hf, hedit]
  split
  · rename_i hk
    rw [hk, hf]
  · rfl

section
variable {s : State} {i : Nat} {f : FtRecord} {edit : FtRecord → FtRecord}

/-- A read after an edit of `FT[i]`: the record edited there, every other as before. -/
theorem hostReadFt_modify (hs : s.state ≠ .run) (hf : s.ft[i]? = some f) (k : Nat) :
    hostReadFt { s with ft := s.ft.modify i edit } k = if k = i then some (edit f) else hostReadFt s k := by
  rw [hostReadFt_idle (s := { s with ft := s.ft.modify i edit }) hs, hostReadFt_idle hs]
  exact getElem?_modify_of_some hf edit k

/-- An edit of the other kind of record, or past the last byte of a string, changes nothing. -/
theorem modify_ft_eq_self (hf : s.ft[i]? = some f) (hedit : edit f = f) : { s with ft := s.ft.modify i edit } = s := by
  rw [modify_eq_self_of_some hf hedit]

/-- There is no record to edit at or past `ftn`. -/
theorem modify_ft_past_end (hi : s.ft.length ≤ i) : { s with ft := s.ft.modify i edit } = s := by
  rw [List.modify_eq_self hi]

end

/-! ## `ET` -/

theorem readEntry_writeEntry (m : Store DirEntry) (i j : Nat) (e : DirEntry) :
    readEntry (writeEntry m i e) j = if j = i then e else readEntry m j := Store.read_write _ _ _ _ _

theorem hostReadEt_hostWriteEt {s : State} (hs : s.state ≠ .run) {i : Nat} {w : EntryWrite} (hi : i < s.cfg.etMax)
    (hw : w.fits s.cfg.nameMax = true) (k : Nat) :
    hostReadEt (hostWriteEt s i w) k = if k = i then w.apply (hostReadEt s i) else hostReadEt s k := by
  rw [hostWriteEt_eq hs hi hw]
  by_cases hk : k = i
  · subst hk
    simp [hostReadEt, hs, hi, readEntry_writeEntry]
  · simp [hostReadEt, hk, readEntry_writeEntry]

theorem hostReadEt_out_of_bounds {s : State} {i : Nat} (hi : s.cfg.etMax ≤ i) : hostReadEt s i = blankEntry :=
  if_neg fun h => Nat.not_lt_of_le hi h.2

/-! ## The memory port, space by space -/

/-- Settles O57: each write is made within its bounds and discarded outside them, and each read finds what was written. -/
theorem hostMemoryPort : Obligations.HostMemoryPort := by
  intro s hs
  refine ⟨fun sp a b => ⟨fun ha => ⟨?byte_frame, hostReadByte_hostWriteByte hs b ha⟩,
      fun ha => ⟨hostWriteByte_discarded b ha, hostReadByte_out_of_bounds ha⟩⟩,
    fun i w => ⟨fun hi => ⟨?word_frame, hostReadDm_hostWriteDm hs w hi⟩,
      fun hi => ⟨hostWriteDm_discarded w hi, hostReadDm_out_of_bounds hi⟩⟩,
    fun i => ⟨hostReadFt_idle hs i, fun hi => (hostReadFt_idle hs i).trans (List.getElem?_eq_none hi)⟩,
    fun i v => ?ft_value, fun i j b => ?ft_byte, fun i w => ?et⟩
  case byte_frame =>
    rw [hostWriteByte_eq hs b ha]
    exact sp.put_frame s _
  case word_frame => rw [hostWriteDm_eq hs w hi]
  case ft_value =>
    rw [hostWriteFtValue_eq hs]
    exact ⟨fun n sg off w hf => ⟨rfl, hostReadFt_modify hs hf⟩, fun off bs hf => modify_ft_eq_self hf rfl, modify_ft_past_end⟩
  case ft_byte =>
    rw [hostWriteFtByte_eq hs]
    refine ⟨fun off bs hf => ⟨fun _ => ⟨rfl, hostReadFt_modify hs hf⟩, fun hj => modify_ft_eq_self hf ?_⟩,
      fun n sg off w hf => modify_ft_eq_self hf rfl, modify_ft_past_end⟩
    rw [FtRecord.withByte, List.set_eq_of_length_le hj]
  case et =>
    intro t e tooLong
    have hfits : w.fits s.cfg.nameMax = true ↔ ¬ tooLong := w.fits_iff s.cfg.nameMax
    refine ⟨fun hi hshort => ⟨?_, fun k => ?_⟩, fun hlong => ?_, fun hi => ⟨?_, hostReadEt_out_of_bounds hi⟩⟩
    · rw [show t = _ from hostWriteEt_eq hs hi (hfits.2 hshort)]
    · have hread := hostReadEt_hostWriteEt hs hi (hfits.2 hshort) k
      cases w <;> exact hread
    · exact hostWriteEt_discarded fun h => hfits.1 h.2 hlong
    · exact hostWriteEt_discarded fun h => Nat.not_lt_of_le hi h.1

end Sys2Proof.Machine
end

section
/-! SUPPORT. Faults are precise: a step of a run that ends in `FAULT` has raised one and done nothing else (60_exceptions.md R260 to R264). -/

namespace Sys2Proof.Machine

/-- In a run nothing but a raise leads to `FAULT`: the decoder's, or the first failed check of the instruction (R262, R263). -/
theorem step_to_fault {s t : State} (hs : s.state = .run) (h : step s = .next t) (ht : t.state = .fault) :
    ∃ k, t = s.raised k := by
  obtain ⟨hidle, _⟩ | ⟨_, e, _, hraised⟩ | ⟨_, i, _, _, hexec⟩ := step_cases s t h
  · exact absurd hs hidle
  · exact ⟨_, hraised⟩
  · obtain hraised | hdone := exec_cases i s t hexec
    · exact hraised
    · exact absurd ht (hdone.not_fault hs)

/-- Settles O10: the step has raised a fault, which writes the status registers and leaves one of the codes of R260. -/
theorem faultsArePrecise : Obligations.FaultsArePrecise := by
  intro s t hs h ht
  obtain ⟨k, rfl⟩ := step_to_fault hs h ht
  exact ⟨rfl, code_range k⟩

end Sys2Proof.Machine
end

section
/-! SUPPORT. The reset input and the image (70_reset_and_hazards.md R300, R301): the pages a reset leaves open are those the `WRCHAIN` in
progress was to write, and no other byte of the image changes. -/

namespace Sys2Proof.Machine

/-! ## The interrupted pages -/

/-- R194: of the pages from `p` on, those that receive a byte of a slice are the ones that start before its end. -/
theorem mem_partPages {size n p len x : Nat} :
    x ∈ partPages size n p len ↔ ∃ q, q < n ∧ q * size < len ∧ x = p + q := by
  induction n generalizing p len with
  | zero => simp [partPages]
  | succ n ih =>
    have hfirst : x ∈ (if len = 0 then [] else [p]) ↔ 0 < len ∧ x = p := by
      split <;> simp_all [Nat.pos_iff_ne_zero]
    have hshift : ∀ q, q * size < len - size ↔ (q + 1) * size < len := fun q => by
      rw [Nat.succ_mul]
      omega
    rw [partPages, List.mem_append, hfirst, ih]
    constructor
    · rintro (⟨hlen, rfl⟩ | ⟨q, hq, hlt, rfl⟩)
      · exact ⟨0, Nat.succ_pos n, by rwa [Nat.zero_mul], rfl⟩
      · exact ⟨q + 1, Nat.succ_lt_succ hq, (hshift q).1 hlt, by omega⟩
    · rintro ⟨_ | q, hq, hlt, rfl⟩
      · exact .inl ⟨by rwa [Nat.zero_mul] at hlt, rfl⟩
      · exact .inr ⟨q, Nat.lt_of_succ_lt_succ hq, (hshift q).2 hlt, by omega⟩

/-- R194, R196: the pages reset takes a chain write to be writing are pages it writes. -/
theorem writesPage_of_mem_chainPages {c : Config} {cls : List W32} {len p : Nat} (h : p ∈ chainPages c cls len) :
    writesPage c cls len p := by
  induction cls generalizing len with
  | nil => exact absurd h List.not_mem_nil
  | cons cl cls ih =>
    obtain hfirst | hrest := List.mem_append.1 h
    · obtain ⟨q, hq, hlt, rfl⟩ := mem_partPages.1 hfirst
      exact ⟨0, q, Nat.succ_pos _, hq, by omega, rfl⟩
    · obtain ⟨j, q, hj, hq, hlt, rfl⟩ := ih hrest
      exact ⟨j + 1, q, Nat.succ_lt_succ hj, hq, by rw [Nat.succ_mul]; omega, rfl⟩

/-- R194, R195: pages are open only to a `WRCHAIN` that passes its three checks. -/
theorem writesPage_of_mem_wrchainPages {s : State} {idx : W32} {p : Nat} (h : p ∈ wrchainPages s idx) :
    idx.toNat < s.etn.toNat ∧ ∃ cls, walk s.cfg s.img (readEntry s.et idx.toNat).cluster = .ok cls ∧
      s.eblen.toNat ≤ cls.length * s.cfg.clusterSize ∧ writesPage s.cfg cls s.eblen.toNat p := by
  unfold wrchainPages at h
  split at h
  case isFalse => exact absurd h List.not_mem_nil
  case isTrue hidx =>
    split at h
    case h_1 => exact absurd h List.not_mem_nil
    case h_2 cls hwalk =>
      split at h
      case isFalse => exact absurd h List.not_mem_nil
      case isTrue hroom => exact ⟨hidx, cls, hwalk, hroom, writesPage_of_mem_chainPages h⟩

/-- R301: pages are open only in a run with a `WRCHAIN` at `dp`. -/
theorem wrchain_of_mem_interruptedPages {s : State} {p : Nat} (h : p ∈ interruptedPages s) :
    s.state = .run ∧ ∃ idx rest, decode (fetchWords s) = .ok (.wrchain idx, rest) ∧ p ∈ wrchainPages s idx := by
  unfold interruptedPages at h
  split at h
  case isFalse => exact absurd h List.not_mem_nil
  case isTrue hrun =>
    split at h
    case h_1 idx rest hdecode => exact ⟨hrun, idx, rest, hdecode, h⟩
    case h_2 => exact absurd h List.not_mem_nil

/-! ## The bytes outside them -/

theorem readByte_overlay_other (img m : Memory) {a b n : Nat} (h : ¬ (a ≤ b ∧ b < a + n)) :
    readByte (overlay img m a n) b = readByte img b := by
  rw [overlay, readByte_writeBytes, length_readBytes, if_neg h]

/-- R301: opening pages leaves a byte that is in none of them. -/
theorem readByte_overlayPages_other (c : Config) (m : Memory) (a : Nat) (pages : List Nat) : ∀ (img : Memory),
    (∀ p ∈ pages, ¬ (c.pageAddr p ≤ a ∧ a < c.pageAddr p + c.rawPage)) →
    readByte (pages.foldl (fun i p => overlay i m (c.pageAddr p) c.rawPage) img) a = readByte img a := by
  induction pages with
  | nil => exact fun _ _ => rfl
  | cons p pages ih =>
    intro img h
    obtain ⟨hp, hpages⟩ := List.forall_mem_cons.1 h
    rw [List.foldl_cons, ih _ hpages, readByte_overlay_other img m hp]

/-- Settles O60: reset opens the interrupted pages only, each of which the `WRCHAIN` at `dp` would write. -/
theorem resetLeavesImage : Obligations.ResetLeavesImage := by
  intro s m a hout
  refine readByte_overlayPages_other s.cfg m.img a _ s.img fun p hp => ?_
  obtain ⟨hrun, idx, rest, hdecode, hpage⟩ := wrchain_of_mem_interruptedPages hp
  obtain ⟨hidx, cls, hwalk, hroom, hwrites⟩ := writesPage_of_mem_wrchainPages hpage
  exact hout hrun idx rest cls p hdecode hidx hwalk hroom hwrites

end Sys2Proof.Machine
end
